-- ==== Sys2Proof/Word.lean ====
section
/-! DEFINITION. The plainest types of the block: the command word, the bits of the two serial streams, the bytes they are packed into, and the one memory. -/

namespace Sys2Proof

/-- A 32-bit command word (R70), also the width of `FAULT_INFO` (R29). -/
abbrev Word := BitVec 32

/-- One bit of a serial stream (R77, R78). -/
abbrev Bit := Bool

/-- Eight bits of a stream as the collaborator packs them (R54). -/
abbrev Byte := BitVec 8

/-- The `CUM` table, the block's only memory (R50, R51): the list of its words, index 0 first.
A word is a non-negative integer of `FREQ_BITS` bits (R21); that it fits is an invariant (R22 (c)). -/
abbrev Memory := List Nat

/-- `NSYM`, the size of the alphabet (R5). -/
abbrev nsym : Nat := 257

/-- `EOS`, the end-of-stream symbol (R5). -/
abbrev eos : Nat := 256

end Sys2Proof
end

