-- ==== Sys2Proof/Config.lean ====
section
/-! DEFINITION. What an implementation fixes: the four parameters of an instance (R6, R8, R9), the default instance, and the one free value. -/

namespace Sys2Proof

/-- `POLICY`: what `Observe` does when the total reaches the ceiling (R8). -/
inductive Policy where
  | freeze
  | renormalize
  deriving DecidableEq, Repr

/-- The parameter set of an instance, constant for its life (R6, R8, R9). -/
structure Params where
  /-- `CODE_BITS`, the width of `LOW`, `HIGH` and `VALUE` -/
  codeBits : Nat
  /-- `FREQ_BITS`, the width of a table word -/
  freqBits : Nat
  /-- `PEND_BITS`, the width of `PENDING` -/
  pendBits : Nat
  /-- `POLICY` -/
  policy : Policy
  deriving DecidableEq, Repr

/-- The default instance: `CODE_BITS = 32`, `FREQ_BITS = 16`, `PEND_BITS = 32`,
`POLICY = RENORMALIZE` (R6, R8, R9; D4, D6, D10). -/
def Params.default : Params := ⟨32, 16, 32, .renormalize⟩

/-- DESIGN CHOICE (log 7). What the 8-bit field of `CONFIG` that starts at bit `pos` reads when its
parameter `n` is above 255 and so does not fit it. Such a set is not valid (R7 (c) to (e)), its
instance stays in `FAULT` mode, and the spec states no value for the field: a FREE VALUE. -/
opaque Config.unfitField (pos n : Nat) : BitVec 8

end Sys2Proof
end

