-- ==== Sys2Proof/Machine/Derived.lean ====
section
/-! DEFINITION. What is computed from an instance's parameters: validity (R7), the derived constants (R10), and the fresh table (R95). -/

namespace Sys2Proof

/-- A valid parameter set: the five constraints of R7, in its order. -/
def Params.valid (p : Params) : Bool :=
  decide (p.freqBits + 2 ≤ p.codeBits) && decide (9 ≤ p.freqBits) && decide (p.freqBits ≤ 28)
    && decide (p.codeBits ≤ 255) && decide (1 ≤ p.pendBits) && decide (p.pendBits ≤ 255)

/-- `MAX_CODE = 2^CODE_BITS - 1` (R10). -/
def Params.maxCode (p : Params) : Nat := 2 ^ p.codeBits - 1

/-- `HALF = 2^(CODE_BITS-1)` (R10). -/
def Params.half (p : Params) : Nat := 2 ^ (p.codeBits - 1)

/-- `ONE_FOURTH = 2^(CODE_BITS-2)` (R10). -/
def Params.oneFourth (p : Params) : Nat := 2 ^ (p.codeBits - 2)

/-- `THREE_FOURTHS = 3 * 2^(CODE_BITS-2)` (R10). -/
def Params.threeFourths (p : Params) : Nat := 3 * 2 ^ (p.codeBits - 2)

/-- `CEIL = 2^FREQ_BITS - 1`, the precision ceiling (R6, R10). -/
def Params.ceil (p : Params) : Nat := 2 ^ p.freqBits - 1

/-- `OVERRUN_MAX = CODE_BITS - 2` (R10). -/
def Params.overrunMax (p : Params) : Nat := p.codeBits - 2

/-- `2^PEND_BITS - 1`, the most `PENDING` can hold (R9, R122). -/
def Params.pendMax (p : Params) : Nat := 2 ^ p.pendBits - 1

/-- `XLEN = max(32, CODE_BITS, PEND_BITS)`, the width of the response data (R10). -/
def Params.xlen (p : Params) : Nat := max 32 (max p.codeBits p.pendBits)

/-- `WORK_BITS = CODE_BITS + FREQ_BITS`, the width the multiplier needs (R10, R110). -/
def Params.workBits (p : Params) : Nat := p.codeBits + p.freqBits

/-- The fresh model's table, `CUM[i] = i` for `0 <= i <= 257` (R36, R95). -/
def freshTable : Memory := List.range' 0 258

end Sys2Proof
end

