-- ==== Sys2Proof/Machine/State.lean ====
section
/-! DEFINITION. The state of one OAC instance and of the environment it is driven by, the responses and port transactions, the reasons the model stops, and the state after reset. -/

namespace Sys2Proof.Machine

/-- `MODE` (R28). The values 5 and 6 are never taken and have no constructor (U19). -/
inductive Mode where
  | idle
  | enc
  | encEos
  | dec
  | decEos
  | fault
  deriving DecidableEq, Repr

/-- `FAULT_CODE` (R29, R166). The values 9 to 15 are never produced and have no constructor (U19). -/
inductive FaultCode where
  | none
  | streamExhausted
  | precisionViolation
  | ioFailure
  | symbolRange
  | illegalCommand
  | illegalSequence
  | pendingOverflow
  | valueRange
  deriving DecidableEq, Repr

/-- The status of a response (R75). The codes 0x3 to 0xE are never produced. -/
inductive Status where
  | ok
  | eos
  | rejected
  | fault
  deriving DecidableEq, Repr

/-- A response record (R74); a field a command's rule does not name is zero. -/
structure Response where
  status : Status
  sym : Nat := 0
  lo : Nat := 0
  hi : Nat := 0
  total : Nat := 0
  data : Nat := 0
  deriving DecidableEq, Repr

/-- What one bit-out transaction carries (R76, R77): a data bit, or a flush. -/
inductive BoItem where
  | bit (b : Bit)
  | flush
  deriving DecidableEq, Repr

/-- A bit-out transaction with the sink's answer `bo_err` (R77). -/
structure BoTxn where
  item : BoItem
  err : Bool
  deriving DecidableEq, Repr

/-- An answer of the bit source other than "at end" (R78): the next bit, or `bi_err = 1`. -/
inductive BiAnswer where
  | bit (b : Bit)
  | err
  deriving DecidableEq, Repr

/-- What the host does, one at a time (R13, R76, R190, R192). -/
inductive HostEvent where
  /-- a word on the command port (R70, R76) -/
  | command (w : Word)
  /-- `rst` asserted between commands (R190) -/
  | rst
  /-- `rst` asserted while the command `w` runs, after `k` of its port transactions completed (R190) -/
  | rstDuring (w : Word) (k : Nat)
  /-- the host attaches a bit source that gives these answers and then is at end (R192) -/
  | attachSource (answers : List BiAnswer)
  /-- the host attaches an open bit sink whose `bo_err` answers begin so and then are 0 (R192) -/
  | attachSink (errs : List Bool)
  deriving DecidableEq, Repr

/-- The complete state: the core's (R20), its instance's parameters (log 1), and the environment
state that a whole-system model carries (R34). Registers whose width is a parameter are natural
numbers (R14, R110); that they fit is an invariant (log 6). -/
structure State where
  /-- the parameters of the instance (R6, R8, R9); no step writes them -/
  params : Params
  /-- `CUM[0..257]` (R21, R22) -/
  cum : Memory
  /-- `FROZEN` (R23) -/
  frozen : Bool
  /-- `LOW` (R24) -/
  low : Nat
  /-- `HIGH` (R24) -/
  high : Nat
  /-- `PENDING` (R25) -/
  pending : Nat
  /-- `VALUE` (R26) -/
  value : Nat
  /-- `OVERRUN` (R27) -/
  overrun : Nat
  /-- `MODE` (R28) -/
  mode : Mode
  /-- `FAULT_CODE` (R29) -/
  faultCode : FaultCode
  /-- `FAULT_INFO` (R29) -/
  faultInfo : Word
  /-- host events not yet taken, the next one first (R76, R198) -/
  cmd : List HostEvent
  /-- responses delivered, oldest first (R74, R76) -/
  rsp : List Response
  /-- transactions the attached sink was given, oldest first (R34, R77) -/
  bo : List BoTxn
  /-- the sink's `bo_err` answers to come, the next one first; 0 after the last (R77, R170) -/
  boErr : List Bool
  /-- the source's answers to come, the next one first; "at end" after the last (R63, R78) -/
  bi : List BiAnswer
  deriving DecidableEq, Repr

/-- Why the model stops. Each is a rule's own requirement failing, which the rules prove cannot
happen between commands (R110, R111, R119, R120); no state a run reaches raises one. The block's own
faults (R165) are NOT here: they are next states in `FAULT` mode. Safe: the model stops where the
spec gives no effect (log 8). -/
inductive Fault where
  /-- raised by `narrow` (`E.SYM`, `D.SYM`) where the `requires` line of R111 fails; safe -/
  | narrowRequires
  /-- raised by `scale` (`D.SYM`) where `LOW <= VALUE <= HIGH` or `total >= 1` fails (R110, R121); safe -/
  | scaleRequires
  /-- raised by `renormEnc` and `renormDec` (`E.SYM`, `D.SYM`) where the loop would run more than
  `CODE_BITS` times, against R116; safe -/
  | renormUnbounded
  deriving DecidableEq, Repr

/-- Why the model gives an instruction no meaning. -/
inductive Refusal where
  /-- raised by an arm of `exec` for an instruction that has no meaning yet; no arm raises it; safe -/
  | notModelled (mnemonic : String)
  deriving DecidableEq, Repr

/-- An instance with parameters `p` right after reset (R36, R169), nothing attached to its ports and
no host event pending (R37; log 2 to 5). -/
def State.ofParams (p : Params) : State where
  params := p
  cum := freshTable
  frozen := false
  low := 0
  high := p.maxCode
  pending := 0
  value := 0
  overrun := 0
  mode := if p.valid then .idle else .fault
  faultCode := if p.valid then .none else .precisionViolation
  faultInfo := 0
  cmd := []
  rsp := []
  bo := []
  boErr := []
  bi := []

/-- The default instance right after reset (R6, R8, R9, R36; log 1). -/
def State.reset : State := State.ofParams Params.default

end Sys2Proof.Machine
end

