-- ==== Sys2Proof/Machine/Ops.lean ====
section
/-! DEFINITION. The operations every command is built from: reading and rewriting the table (R51, R93 to R95), the port transactions (R76 to R78), raising a fault (R178), leaving one by reset (R36, R180), and a run of micro-steps that may raise (R179). -/

namespace Sys2Proof.Machine

/-! ## The table -/

/-- The table's form: 258 words (R21). -/
def Memory.wf (m : Memory) : Bool := m.length == 258

/-- `CUM[i]` (R15, R51). No rule reads above index 257 (R52); the 0 stands for no word. -/
def cumAt (m : Memory) (i : Nat) : Nat := m.getD i 0

/-- `for i in s+1 .. 257: CUM[i] <- CUM[i] + 1` (R93). -/
def bump (s : Nat) (m : Memory) : Memory := m.take (s + 1) ++ (m.drop (s + 1)).map (· + 1)

/-- The frequencies `CUM[s+1] - CUM[s]`, symbol 0 first (R16, R21). -/
def freqs (m : Memory) : List Nat := List.zipWith (fun upper lower => upper - lower) m.tail m

/-- The running sums of `f` from `c`: `CUM[0] <- c`, `CUM[s+1] <- CUM[s] + f[s]` (R94). -/
def cumulate (c : Nat) : List Nat → Memory
  | [] => [c]
  | f :: fs => c :: cumulate (c + f) fs

/-- `Rescale()` on the table: every frequency of the old table halved, rounding up (R94). -/
def rescale (m : Memory) : Memory := cumulate 0 ((freqs m).map fun f => (f + 1) / 2)

/-! ## Responses, faults, reset -/

/-- `respond(...)`: the command's one response (R15, R74). -/
def respond (r : Response) (s : State) : State := { s with rsp := s.rsp ++ [r] }

/-- `raise Fault(code)` while executing `w`: the registers written, the mode changed, the response
`FAULT` with every other field zero, and nothing else (R178). -/
def takeFault (c : FaultCode) (w : Word) (s : State) : State :=
  respond { status := .fault } { s with faultCode := c, faultInfo := w, mode := .fault }

/-- Every piece of core state at its reset value (R36), the only way out of a fault (R180). The
streams, the responses and the host's events are not touched (R37, R190). -/
def coreReset (s : State) : State :=
  { State.ofParams s.params with cmd := s.cmd, rsp := s.rsp, bo := s.bo, boErr := s.boErr, bi := s.bi }

/-! ## Runs of micro-steps -/

/-- What a piece of pseudocode does: it ends with a result, it raises a fault in the state of the
last completed micro-step (R179), or it is stuck where a rule's own requirement fails (log 8). -/
inductive Run (α : Type) where
  | ok (a : α) (s : State)
  | raised (c : FaultCode) (s : State)
  | stuck (f : Fault)

/-- The second piece runs where the first ended; `raise` ends the command (R15). -/
def Run.bind {α β : Type} (r : Run α) (k : α → State → Run β) : Run β :=
  match r with
  | .ok a s => k a s
  | .raised c s => .raised c s
  | .stuck f => .stuck f

/-- The end of the command `w`: its response delivered, or the fault it raised taken (R74, R178). -/
def conclude (w : Word) : Run Response → Host.Outcome State Fault Refusal
  | .ok r s => .next (respond r s)
  | .raised c s => .next (takeFault c w s)
  | .stuck f => .fault f

/-! ## Port transactions -/

/-- One bit-out transaction (R77): the sink's next answer is taken, the transaction is logged, and
`bo_err = 1` raises `IOFailure` (R170), without a retry (R186). -/
def boTransact (item : BoItem) (s : State) : Run Unit :=
  match s.boErr with
  | [] => .ok () { s with bo := s.bo ++ [⟨item, false⟩] }
  | false :: rest => .ok () { s with bo := s.bo ++ [⟨item, false⟩], boErr := rest }
  | true :: rest => .raised .ioFailure { s with bo := s.bo ++ [⟨item, true⟩], boErr := rest }

/-- `EmitBit(b)` (R15, R77). -/
def emitBit (b : Bit) (s : State) : Run Unit := boTransact (.bit b) s

/-- `Flush()` (R15, R77). -/
def flush (s : State) : Run Unit := boTransact .flush s

/-- `EmitBit(b)`, `n` times. -/
def emitRun (b : Bit) : Nat → State → Run Unit
  | 0, s => .ok () s
  | n + 1, s => (emitBit b s).bind fun _ t => emitRun b n t

/-- `GetBit()` (R114): one bit-in transaction (R78); `bi_err` is tested before "at end" (R177); past
the end a 0 bit is counted in `OVERRUN`, and at `OVERRUN_MAX` the stream is exhausted (R168). -/
def getBit (s : State) : Run Bit :=
  match s.bi with
  | .err :: rest => .raised .ioFailure { s with bi := rest }
  | .bit b :: rest => .ok b { s with bi := rest }
  | [] =>
    if s.overrun = s.params.overrunMax then .raised .streamExhausted s
    else .ok false { s with overrun := s.overrun + 1 }

end Sys2Proof.Machine
end

