-- ==== Sys2Proof/Machine/Flags.lean ====
section
/-! DEFINITION. The one status flag `FROZEN` and the ceiling test that sets it (R23, R93), the code of every mode, fault and status (R28, R166, R75), and the level output `fault_o` (R182). -/

namespace Sys2Proof.Machine

/-- `CUM[257] >= CEIL`, the test `Observe` makes after its increment (R93; C4). -/
def reachesCeiling (p : Params) (m : Memory) : Bool := decide (p.ceil ≤ cumAt m 257)

/-- The 3-bit value of `MODE` (R28). -/
def modeBits : Mode → BitVec 3
  | .idle => 0
  | .enc => 1
  | .encEos => 2
  | .dec => 3
  | .decEos => 4
  | .fault => 7

/-- The 4-bit value of `FAULT_CODE` (R166). -/
def faultBits : FaultCode → BitVec 4
  | .none => 0
  | .streamExhausted => 1
  | .precisionViolation => 2
  | .ioFailure => 3
  | .symbolRange => 4
  | .illegalCommand => 5
  | .illegalSequence => 6
  | .pendingOverflow => 7
  | .valueRange => 8

/-- The 4-bit status code of a response (R75). -/
def statusBits : Status → BitVec 4
  | .ok => 0x0
  | .eos => 0x1
  | .rejected => 0x2
  | .fault => 0xF

/-- `fault_o = (MODE == FAULT)` (R76, R182). -/
def faultO (s : State) : Bool := decide (s.mode = .fault)

end Sys2Proof.Machine
end

