-- ==== Sys2Proof/Machine/Afm.lean ====
section
/-! DEFINITION. The adaptive frequency model's internal functions (R90 to R96): `ModelInit`, `Prob`, `Locate`, `Observe`, `TotalCount`. -/

namespace Sys2Proof.Machine

/-- A symbol with its interval bounds and the total: what `Prob` and `Locate` return (R90, R91). -/
structure Bounds where
  symbol : Nat
  low : Nat
  high : Nat
  total : Nat
  deriving DecidableEq, Repr

/-- `ModelInit()` (R95). -/
def modelInit (s : State) : State := { s with cum := freshTable, frozen := false }

/-- `TotalCount() = CUM[257]`, live under both policies (R11, R96). -/
def totalCount (m : Memory) : Nat := cumAt m 257

/-- `Prob(s)` (R90). -/
def prob (sym : Nat) (m : Memory) : Bounds := ⟨sym, cumAt m sym, cumAt m (sym + 1), totalCount m⟩

/-- The inverse search of R92 from `lo` and `hi`, at most `n` probes. -/
def search (m : Memory) (v : Nat) : (n lo hi : Nat) → Nat
  | 0, lo, _ => lo
  | n + 1, lo, hi =>
    if 1 < hi - lo then
      if cumAt m ((lo + hi) / 2) ≤ v then search m v n ((lo + hi) / 2) hi
      else search m v n lo ((lo + hi) / 2)
    else lo

/-- `Locate(v)`: the symbol whose interval contains `v`, with its bounds and the total (R91), found by
the search of R92, which takes at most 9 probes. -/
def locate (v : Nat) (m : Memory) : Bounds := prob (search m v 9 0 257) m

/-- `Observe(s)` (R93): whether it was accepted, and the state it leaves. A frozen model rejects; at
the ceiling `FREEZE` freezes and `RENORMALIZE` rescales (R94). -/
def observe (sym : Nat) (s : State) : Bool × State :=
  if s.frozen then (false, s)
  else if reachesCeiling s.params (bump sym s.cum) then
    match s.params.policy with
    | .freeze => (true, { s with cum := bump sym s.cum, frozen := true })
    | .renormalize => (true, { s with cum := rescale (bump sym s.cum) })
  else (true, { s with cum := bump sym s.cum })

end Sys2Proof.Machine
end

