-- ==== Sys2Proof/Machine/Acu.lean ====
section
/-! DEFINITION. The coder datapath's micro-operations (R110 to R122): `Shl`, `Narrow`, `EmitWithFollow`, the E1/E2/E3 loops `RenormEnc` and `RenormDec`, and `Scale`. -/

namespace Sys2Proof.Machine

/-- `Shl(x, b) = ((x << 1) & MAX_CODE) | b` (R115). -/
def shl (p : Params) (x : Nat) (b : Bit) : Nat := ((x <<< 1) &&& p.maxCode) ||| b.toNat

/-- `range = HIGH - LOW + 1`, exact (R110). -/
def range (s : State) : Nat := s.high - s.low + 1

/-- The `requires` line of `Narrow` (R111). -/
def narrowRequires (b : Bounds) (s : State) : Bool :=
  decide (b.low < b.high) && decide (b.high ≤ b.total) && decide (b.total ≤ s.params.ceil)
    && decide (s.low ≤ s.high) && decide (b.total ≤ range s)

/-- `Narrow(sym_low, sym_high, total)` (R111): both bounds from the old `LOW` and the old `range`. -/
def narrow (b : Bounds) (s : State) : Run Unit :=
  if narrowRequires b s then
    .ok () { s with
      high := s.low + range s * b.high / b.total - 1
      low := s.low + range s * b.low / b.total }
  else .stuck .narrowRequires

/-- `EmitWithFollow(b)`: the bit, then `PENDING` inverted bits, then `PENDING <- 0` (R113). -/
def emitWithFollow (b : Bit) (s : State) : Run Unit :=
  (emitBit b s).bind fun _ t =>
    (emitRun (!b) s.pending t).bind fun _ u => .ok () { u with pending := 0 }

/-- The guarded increment of `PENDING` (R122). -/
def incPending (s : State) : Run Unit :=
  if s.pending = s.params.pendMax then .raised .pendingOverflow s
  else .ok () { s with pending := s.pending + 1 }

/-- The three renormalisation cases (R16, R116). -/
inductive ECase where
  | e1
  | e2
  | e3
  deriving DecidableEq, Repr

/-- The case that applies to an interval, tested in the order E1, E2, E3 (R116, R118). -/
def renormCase (p : Params) (low high : Nat) : Option ECase :=
  if high < p.half then some .e1
  else if p.half ≤ low then some .e2
  else if p.oneFourth ≤ low ∧ high < p.threeFourths then some .e3
  else none

/-- What each case subtracts before the shift (R116). -/
def offset (p : Params) : ECase → Nat
  | .e1 => 0
  | .e2 => p.half
  | .e3 => p.oneFourth

/-- `LOW <- Shl(LOW - off, 0)` and `HIGH <- Shl(HIGH - off, 1)` (R115, R116). -/
def shiftInterval (c : ECase) (s : State) : State :=
  { s with
    low := shl s.params (s.low - offset s.params c) false
    high := shl s.params (s.high - offset s.params c) true }

/-- What a case does to the bit output before the shift (R113, R116, R122). -/
def resolve (c : ECase) (s : State) : Run Unit :=
  match c with
  | .e1 => emitWithFollow false s
  | .e2 => emitWithFollow true s
  | .e3 => incPending s

/-- `RenormEnc()` (R116), at most `n` iterations; the rule bounds them by `CODE_BITS`. -/
def renormEnc : Nat → State → Run Unit
  | 0, s =>
    match renormCase s.params s.low s.high with
    | none => .ok () s
    | some _ => .stuck .renormUnbounded
  | n + 1, s =>
    match renormCase s.params s.low s.high with
    | none => .ok () s
    | some c => (resolve c s).bind fun _ t => renormEnc n (shiftInterval c t)

/-- The three register writes of a `RenormDec` iteration, made together after `GetBit` (R117). -/
def shiftWindow (c : ECase) (b : Bit) (s : State) : State :=
  shiftInterval c { s with value := shl s.params (s.value - offset s.params c) b }

/-- `RenormDec()` (R117), at most `n` iterations; the rule bounds them by `CODE_BITS`. -/
def renormDec : Nat → State → Run Unit
  | 0, s =>
    match renormCase s.params s.low s.high with
    | none => .ok () s
    | some _ => .stuck .renormUnbounded
  | n + 1, s =>
    match renormCase s.params s.low s.high with
    | none => .ok () s
    | some c => (getBit s).bind fun b t => renormDec n (shiftWindow c b t)

/-- `repeat n times: VALUE <- Shl(VALUE, GetBit())` (R140). -/
def primeValue : Nat → State → Run Unit
  | 0, s => .ok () s
  | n + 1, s => (getBit s).bind fun b t => primeValue n { t with value := shl t.params t.value b }

/-- `Scale()` (R121), where `LOW <= VALUE <= HIGH` and the divisors are not zero (R110, R120). -/
def scale (s : State) : Run Nat :=
  if s.low ≤ s.value ∧ s.value ≤ s.high ∧ 0 < totalCount s.cum then
    .ok (((s.value - s.low + 1) * totalCount s.cum - 1) / range s) s
  else .stuck .scaleRequires

end Sys2Proof.Machine
end

