-- ==== Sys2Proof/Syntax.lean ====
section
/-! DEFINITION. The fourteen commands, one constructor per row of spec/opcode_table.json (R72). -/

namespace Sys2Proof

/-- A command with its operand field as the word carries it (R71, R81): a symbol or an index is 9
bits, a register number 4, a value 28. Which operand values are reserved encodings is WellFormed's
(R73 (c), (d)). -/
inductive Instr where
  /-- `RESET`, 0x1, format N -/
  | reset
  /-- `RDREG r`, 0x2, format R -/
  | rdreg (r : BitVec 4)
  /-- `RDCUM idx`, 0x3, format I -/
  | rdcum (idx : BitVec 9)
  /-- `M.INIT`, 0x4, format N -/
  | mInit
  /-- `M.PROB sym`, 0x5, format S -/
  | mProb (sym : BitVec 9)
  /-- `M.LOCATE v`, 0x6, format V -/
  | mLocate (v : BitVec 28)
  /-- `M.OBSERVE sym`, 0x7, format S -/
  | mObserve (sym : BitVec 9)
  /-- `M.TOTAL`, 0x8, format N -/
  | mTotal
  /-- `E.INIT`, 0x9, format N -/
  | eInit
  /-- `E.SYM sym`, 0xA, format S -/
  | eSym (sym : BitVec 9)
  /-- `E.FINISH`, 0xB, format N -/
  | eFinish
  /-- `D.INIT`, 0xC, format N -/
  | dInit
  /-- `D.SYM`, 0xD, format N -/
  | dSym
  /-- `D.END`, 0xE, format N -/
  | dEnd
  deriving DecidableEq, Repr

end Sys2Proof
end

