-- ==== Sys2Proof/WellFormed.lean ====
section
/-! DEFINITION. Which terms of `Instr` are commands: the operand values that are not reserved encodings (R73). -/

namespace Sys2Proof

/-- `RDREG` takes a register number 0 to 7 (R73 (c)) and `RDCUM` an index 0 to 257 (R73 (d)); every
other operand value is a command, the symbols 257 to 511 among them (R73, last paragraph). -/
def Instr.wf : Instr → Bool
  | .rdreg r => decide (r.toNat ≤ 7)
  | .rdcum idx => decide (idx.toNat ≤ 257)
  | .reset | .mInit | .mProb _ | .mLocate _ | .mObserve _ | .mTotal | .eInit | .eSym _ | .eFinish
  | .dInit | .dSym | .dEnd => true

end Sys2Proof
end

