-- ==== Sys2Proof/Decode.lean ====
section
/-! DEFINITION. The command word: its fields and five formats (R70, R71, R81), the decoder over the opcode map (R72), total and rejecting each reserved encoding by name (R73), and the encoder. -/

namespace Sys2Proof

/-- Why a word is a reserved encoding (R73). -/
inductive Reserved where
  /-- opcode 0x0 or 0xF (R73 (a)) -/
  | opcode
  /-- a must-be-zero bit of the format is set (R73 (b)) -/
  | mustBeZero
  /-- `RDREG` of register 8 to 15 (R73 (c)) -/
  | registerNumber
  /-- `RDCUM` of index 258 to 511 (R73 (d)) -/
  | tableIndex
  deriving DecidableEq, Repr

/-- Bits 31:28 (R70). -/
def opField (w : Word) : BitVec 4 := w.extractLsb' 28 4

/-- Bits 27:0 (R70). -/
def argField (w : Word) : BitVec 28 := w.extractLsb' 0 28

/-- Format N: no operand, `arg` all zero (R71). -/
def formatN (i : Instr) (w : Word) : Except Reserved Instr :=
  if argField w = 0 then .ok i else .error .mustBeZero

/-- Format S: `sym = arg[8:0]`, `arg[27:9]` zero (R71, R81). -/
def formatS (mk : BitVec 9 → Instr) (w : Word) : Except Reserved Instr :=
  if w.extractLsb' 9 19 = 0 then .ok (mk (w.extractLsb' 0 9)) else .error .mustBeZero

/-- Format V: `v = arg[27:0]` (R71, R81). -/
def formatV (mk : BitVec 28 → Instr) (w : Word) : Except Reserved Instr :=
  .ok (mk (argField w))

/-- Format I: `idx = arg[8:0]`, `arg[27:9]` zero (R71, R81); 258 to 511 reserved (R73 (d)). -/
def formatI (mk : BitVec 9 → Instr) (w : Word) : Except Reserved Instr :=
  if w.extractLsb' 9 19 = 0 then
    if (w.extractLsb' 0 9).toNat ≤ 257 then .ok (mk (w.extractLsb' 0 9)) else .error .tableIndex
  else .error .mustBeZero

/-- Format R: `r = arg[3:0]`, `arg[27:4]` zero (R71, R81); 8 to 15 reserved (R73 (c)). -/
def formatR (mk : BitVec 4 → Instr) (w : Word) : Except Reserved Instr :=
  if w.extractLsb' 4 24 = 0 then
    if (w.extractLsb' 0 4).toNat ≤ 7 then .ok (mk (w.extractLsb' 0 4)) else .error .registerNumber
  else .error .mustBeZero

/-- The opcode map (R72): the command a word selects, or why it is reserved (R73). The last line
takes opcodes 0x0 and 0xF (R152); no other opcode reaches it. -/
def decode (w : Word) : Except Reserved Instr :=
  match (opField w).toNat with
  | 0x1 => formatN .reset w
  | 0x2 => formatR .rdreg w
  | 0x3 => formatI .rdcum w
  | 0x4 => formatN .mInit w
  | 0x5 => formatS .mProb w
  | 0x6 => formatV .mLocate w
  | 0x7 => formatS .mObserve w
  | 0x8 => formatN .mTotal w
  | 0x9 => formatN .eInit w
  | 0xA => formatS .eSym w
  | 0xB => formatN .eFinish w
  | 0xC => formatN .dInit w
  | 0xD => formatN .dSym w
  | 0xE => formatN .dEnd w
  | _ => .error .opcode

/-- The word an opcode and an operand make: the assembled word `(op << 28) | operand` (R79). -/
def assemble (op : BitVec 4) (arg : BitVec 28) : Word := op ++ arg

/-- The opcode of each command (R72). -/
def opcode : Instr → BitVec 4
  | .reset => 0x1
  | .rdreg _ => 0x2
  | .rdcum _ => 0x3
  | .mInit => 0x4
  | .mProb _ => 0x5
  | .mLocate _ => 0x6
  | .mObserve _ => 0x7
  | .mTotal => 0x8
  | .eInit => 0x9
  | .eSym _ => 0xA
  | .eFinish => 0xB
  | .dInit => 0xC
  | .dSym => 0xD
  | .dEnd => 0xE

/-- The argument field of each command: its operand zero-extended (R81). -/
def operandField : Instr → BitVec 28
  | .rdreg r => r.setWidth 28
  | .rdcum x | .mProb x | .mObserve x | .eSym x => x.setWidth 28
  | .mLocate v => v
  | .reset | .mInit | .mTotal | .eInit | .eFinish | .dInit | .dSym | .dEnd => 0

/-- The command word of a command (R70, R72, R79, R81). -/
def encode (i : Instr) : Word := assemble (opcode i) (operandField i)

/-- The command a table row's bits `w` decode to, `nbits` of them given and the bits above zero.
A command is one 32-bit word (R70), bit 0 its least significant (R14). -/
def decodeTableWord (nbits w : Nat) : Option Instr :=
  if nbits ≤ 32 then (decode (BitVec.ofNat 32 (w % 2 ^ nbits))).toOption else none

end Sys2Proof
end

