-- ==== Sys2Proof/Machine/Operands.lean ====
section
/-! DEFINITION. What a command's operand selects: a symbol and its range check (R5, R155), a register by number with the layouts of `CONFIG` and `STATUS` (R30 to R32); and in which modes a command is legal (R154). -/

namespace Sys2Proof.Machine

/-- The symbol operand of a command that has one (format S, R71, R81). -/
def symbolOperand : Instr → Option Nat
  | .mProb sym | .mObserve sym | .eSym sym => some sym.toNat
  | .reset | .rdreg _ | .rdcum _ | .mInit | .mLocate _ | .mTotal | .eInit | .eFinish | .dInit | .dSym
  | .dEnd => none

/-- The command has a symbol operand above 256 (R155 step 4, R171). -/
def symbolTooLarge (i : Instr) : Bool :=
  match symbolOperand i with
  | some sym => decide (256 < sym)
  | none => false

/-- An 8-bit field of `CONFIG` at bit `pos`: the parameter, or a free value where it does not fit
(R30; log 7). -/
def configField (pos n : Nat) : BitVec 8 :=
  if n < 256 then BitVec.ofNat 8 n else Config.unfitField pos n

/-- `POLICY` as one bit (R8). -/
def policyBit : Policy → BitVec 1
  | .freeze => 0
  | .renormalize => 1

/-- `CONFIG`: reserved 31:25, `POLICY` 24, `PEND_BITS` 23:16, `FREQ_BITS` 15:8, `CODE_BITS` 7:0 (R30). -/
def configWord (p : Params) : Word :=
  0#7 ++ policyBit p.policy ++ configField 16 p.pendBits ++ configField 8 p.freqBits
    ++ configField 0 p.codeBits

/-- `STATUS`: reserved 31:8, `FAULT_CODE` 7:4, `FROZEN` 3, `MODE` 2:0 (R31). -/
def statusWord (s : State) : Word :=
  0#24 ++ faultBits s.faultCode ++ BitVec.ofBool s.frozen ++ modeBits s.mode

/-- Register number `n`, zero-extended, for the numbers that name one (R32). -/
def readRegister (n : Nat) (s : State) : Option Nat :=
  match n with
  | 0 => some (configWord s.params).toNat
  | 1 => some (statusWord s).toNat
  | 2 => some s.low
  | 3 => some s.high
  | 4 => some s.value
  | 5 => some s.pending
  | 6 => some s.overrun
  | 7 => some s.faultInfo.toNat
  | _ => none

/-- The modes in which a command executes: the "yes" entries of R154. -/
def legalMode : Instr → Mode → Bool
  | .reset, _ | .rdreg _, _ => true
  | .rdcum _, m | .mProb _, m | .mLocate _, m | .mTotal, m => decide (m ≠ .fault)
  | .mInit, m | .mObserve _, m | .eInit, m | .dInit, m => decide (m = .idle)
  | .eSym _, m => decide (m = .enc)
  | .eFinish, m => decide (m = .enc ∨ m = .encEos)
  | .dSym, m => decide (m = .dec)
  | .dEnd, m => decide (m = .dec ∨ m = .decEos)

/-- The words that are executed in `FAULT` mode: a well-formed `RESET`, and a well-formed `RDREG`
(R155 step 1, R180). -/
def runsInFault : Instr → Bool
  | .reset => true
  | .rdreg r => (Instr.rdreg r).wf
  | .rdcum _ | .mInit | .mProb _ | .mLocate _ | .mObserve _ | .mTotal | .eInit | .eSym _ | .eFinish
  | .dInit | .dSym | .dEnd => false

end Sys2Proof.Machine
end

