-- ==== Sys2Proof/Machine/Prologue.lean ====
section
/-! DEFINITION. The common prologue that every command runs first (R155), and what a reserved word does (R152, R173). -/

namespace Sys2Proof.Machine

/-- The answer to a word in `FAULT` mode that is not executed: `FAULT`, and nothing changes
(R155 step 1, R180). -/
def answerFaulted (s : State) : State := respond { status := .fault } s

/-- A word that is a reserved encoding (R73): answered in `FAULT` mode (R155 step 1), else
`IllegalCommand` (R155 step 2, R152, R173). -/
def runReserved (w : Word) (s : State) : Host.Outcome State Fault Refusal :=
  if s.mode = .fault then .next (answerFaulted s) else .next (takeFault .illegalCommand w s)

/-- The five steps of the prologue, in order, the first that applies deciding (R155, R177); `body` is
the command's own pseudocode. The command's word is its encoding (log 9). -/
def command (i : Instr) (body : State → Run Response) (s : State) : Host.Outcome State Fault Refusal :=
  if s.mode = .fault ∧ runsInFault i = false then .next (answerFaulted s)
  else if i.wf = false then .next (takeFault .illegalCommand (encode i) s)
  else if legalMode i s.mode = false then .next (takeFault .illegalSequence (encode i) s)
  else if symbolTooLarge i then .next (takeFault .symbolRange (encode i) s)
  else conclude (encode i) (body s)

end Sys2Proof.Machine
end

