-- ==== Sys2Proof/Machine/EncodeCommands.lean ====
section
/-! DEFINITION. The encode commands `E.INIT`, `E.SYM`, `E.FINISH` (R130 to R132). -/

namespace Sys2Proof.Machine

/-- The coder registers and the model at the start of a stream: the writes `E.INIT` and `D.INIT` have
in common (R130, R140). -/
def openSession (s : State) : State :=
  modelInit { s with low := 0, high := s.params.maxCode, pending := 0, value := 0, overrun := 0 }

/-- `E.INIT` (R130). -/
def execEInit (s : State) : Host.Outcome State Fault Refusal :=
  command .eInit (fun s => .ok { status := .ok } { openSession s with mode := .enc }) s

/-- Step 2e of the encode procedure: after `EOS` only termination remains (R131). -/
def afterSymbol (sym : Nat) (s : State) : State :=
  if sym = eos then { s with mode := .encEos } else s

/-- `E.SYM sym` (R131): the bounds are captured before `Observe` changes the table (R60), whose
accepted or rejected result is ignored (R176). -/
def execESym (sym : BitVec 9) (s : State) : Host.Outcome State Fault Refusal :=
  command (.eSym sym) (fun s =>
    (narrow (prob sym.toNat s.cum) s).bind fun _ t =>
      (renormEnc t.params.codeBits (observe sym.toNat t).2).bind fun _ u =>
        .ok { status := .ok } (afterSymbol sym.toNat u)) s

/-- `E.FINISH` (R132). -/
def execEFinish (s : State) : Host.Outcome State Fault Refusal :=
  command .eFinish (fun s =>
    (incPending s).bind fun _ t =>
      (emitWithFollow (decide (t.params.oneFourth ≤ t.low)) t).bind fun _ u =>
        (flush u).bind fun _ v => .ok { status := .ok } { v with mode := .idle }) s

end Sys2Proof.Machine
end

