-- ==== Sys2Proof/Machine/DecodeCommands.lean ====
section
/-! DEFINITION. The decode commands `D.INIT`, `D.SYM`, `D.END` (R140 to R142). -/

namespace Sys2Proof.Machine

/-- `D.INIT` (R140): the session opened, then `CODE_BITS` bits read into `VALUE`. -/
def execDInit (s : State) : Host.Outcome State Fault Refusal :=
  command .dInit (fun s =>
    (primeValue s.params.codeBits (openSession s)).bind fun _ t =>
      .ok { status := .ok } { t with mode := .dec }) s

/-- Steps 2d to 2f of the decode procedure for a symbol that is not `EOS`, with the bounds captured
before `Observe` (R141, R60). -/
def decodeSymbol (b : Bounds) (s : State) : Run Response :=
  (narrow b (observe b.symbol s).2).bind fun _ t =>
    (renormDec t.params.codeBits t).bind fun _ u => .ok { status := .ok, sym := b.symbol } u

/-- `D.SYM` (R141): on `EOS` only `MODE` changes. -/
def execDSym (s : State) : Host.Outcome State Fault Refusal :=
  command .dSym (fun s =>
    (scale s).bind fun scaled t =>
      let b := locate scaled t.cum
      if b.symbol = eos then .ok { status := .eos, sym := eos } { t with mode := .decEos }
      else decodeSymbol b t) s

/-- `D.END` (R142). -/
def execDEnd (s : State) : Host.Outcome State Fault Refusal :=
  command .dEnd (fun s => .ok { status := .ok } { s with mode := .idle }) s

end Sys2Proof.Machine
end

