-- ==== Sys2Proof/Machine/ModelCommands.lean ====
section
/-! DEFINITION. The model commands `RDCUM`, `M.INIT`, `M.PROB`, `M.LOCATE`, `M.OBSERVE`, `M.TOTAL` (R97 to R102). -/

namespace Sys2Proof.Machine

/-- `RDCUM idx` (R102). -/
def execRdcum (idx : BitVec 9) (s : State) : Host.Outcome State Fault Refusal :=
  command (.rdcum idx) (fun s => .ok { status := .ok, data := cumAt s.cum idx.toNat } s) s

/-- `M.INIT` (R97). -/
def execMInit (s : State) : Host.Outcome State Fault Refusal :=
  command .mInit (fun s => .ok { status := .ok } (modelInit s)) s

/-- The response that carries a symbol, its bounds and the total (R74). -/
def boundsResponse (b : Bounds) : Response :=
  { status := .ok, sym := b.symbol, lo := b.low, hi := b.high, total := b.total }

/-- `M.PROB sym` (R98). -/
def execMProb (sym : BitVec 9) (s : State) : Host.Outcome State Fault Refusal :=
  command (.mProb sym) (fun s => .ok (boundsResponse (prob sym.toNat s.cum)) s) s

/-- `M.LOCATE v` (R99): `ValueRange` at or above the total (R172). -/
def execMLocate (v : BitVec 28) (s : State) : Host.Outcome State Fault Refusal :=
  command (.mLocate v) (fun s =>
    if totalCount s.cum ≤ v.toNat then .raised .valueRange s
    else .ok (boundsResponse (locate v.toNat s.cum)) s) s

/-- `M.OBSERVE sym` (R100): `REJECTED` where the model is frozen, which is no fault (R176). -/
def execMObserve (sym : BitVec 9) (s : State) : Host.Outcome State Fault Refusal :=
  command (.mObserve sym) (fun s =>
    match observe sym.toNat s with
    | (true, t) => .ok { status := .ok } t
    | (false, t) => .ok { status := .rejected } t) s

/-- `M.TOTAL` (R101). -/
def execMTotal (s : State) : Host.Outcome State Fault Refusal :=
  command .mTotal (fun s => .ok { status := .ok, total := totalCount s.cum } s) s

end Sys2Proof.Machine
end

