-- ==== Sys2Proof/Machine/SystemCommands.lean ====
section
/-! DEFINITION. The system commands `RESET` and `RDREG` (R150, R151). -/

namespace Sys2Proof.Machine

/-- `RESET` (R150): every piece of state to its reset value; `OK`, or `FAULT` where the parameter set
is invalid and the core comes out in `FAULT` mode (R169). -/
def execReset (s : State) : Host.Outcome State Fault Refusal :=
  command .reset (fun s =>
    let t := coreReset s
    if t.mode = .idle then .ok { status := .ok } t else .ok { status := .fault } t) s

/-- `RDREG r` (R151). The prologue has refused the numbers 8 to 15 (R73 (c), R173). -/
def execRdreg (r : BitVec 4) (s : State) : Host.Outcome State Fault Refusal :=
  command (.rdreg r) (fun s =>
    match readRegister r.toNat s with
    | some v => .ok { status := .ok, data := v } s
    | none => .raised .illegalCommand s) s

end Sys2Proof.Machine
end

