-- ==== Sys2Proof/Machine/Dispatch.lean ====
section
/-! DEFINITION. The meaning of each command, one arm per constructor. -/

namespace Sys2Proof.Machine

def exec (i : Instr) (s : State) : Host.Outcome State Fault Refusal :=
  match i with
  | .reset => Sys2Proof.Machine.execReset s
  | .rdreg r => Sys2Proof.Machine.execRdreg r s
  | .rdcum idx => Sys2Proof.Machine.execRdcum idx s
  | .mInit => Sys2Proof.Machine.execMInit s
  | .mProb sym => Sys2Proof.Machine.execMProb sym s
  | .mLocate v => Sys2Proof.Machine.execMLocate v s
  | .mObserve sym => Sys2Proof.Machine.execMObserve sym s
  | .mTotal => Sys2Proof.Machine.execMTotal s
  | .eInit => Sys2Proof.Machine.execEInit s
  | .eSym sym => Sys2Proof.Machine.execESym sym s
  | .eFinish => Sys2Proof.Machine.execEFinish s
  | .dInit => Sys2Proof.Machine.execDInit s
  | .dSym => Sys2Proof.Machine.execDSym s
  | .dEnd => Sys2Proof.Machine.execDEnd s

end Sys2Proof.Machine
end

