-- ==== Sys2Proof/Machine/Port.lean ====
section
/-! DEFINITION. The command port and `rst`: running a delivered word, hardware reset between and during commands (R190), and what the host attaches (R192). -/

namespace Sys2Proof.Machine

/-- A word delivered on the command port: the command it decodes to, or a reserved encoding (R73, R155). -/
def runWord (w : Word) (s : State) : Host.Outcome State Fault Refusal :=
  match decode w with
  | .ok i => exec i s
  | .error _ => runReserved w s

/-- Where a command run from `s` to `t` is cut after `k` of its port transactions: the transactions
completed by then stay completed, and no other effect of the command is left (R190; log 10). -/
def cutStreams (k : Nat) (s t : State) : State :=
  { s with
    bo := s.bo ++ (t.bo.drop s.bo.length).take k
    boErr := s.boErr.drop (min k (t.bo.length - s.bo.length))
    bi := s.bi.drop (min k (s.bi.length - t.bi.length)) }

/-- `rst` asserted while `w` runs, after `k` port transactions: the command is abandoned without a
response and all core state takes its reset value (R190). -/
def resetDuring (w : Word) (k : Nat) (s : State) : Host.Outcome State Fault Refusal :=
  match runWord w s with
  | .next t => .next (coreReset (cutStreams k s t))
  | .fault f => .fault f
  | .refused r => .refused r

/-- The host attaches a bit source; the core is not touched (R37, R192). -/
def attachSource (answers : List BiAnswer) (s : State) : State := { s with bi := answers }

/-- The host attaches an open bit sink, which has been given nothing yet (R37, R192). -/
def attachSink (errs : List Bool) (s : State) : State := { s with bo := [], boErr := errs }

/-- The next host event is taken from the queue and handled; while there is none the core waits on
its command port and nothing changes (R76, R198; log 2). -/
def takeEvent (s : State) : Host.Outcome State Fault Refusal :=
  match s.cmd with
  | [] => .next s
  | .command w :: rest => runWord w { s with cmd := rest }
  | .rst :: rest => .next (coreReset { s with cmd := rest })
  | .rstDuring w k :: rest => resetDuring w k { s with cmd := rest }
  | .attachSource answers :: rest => .next (attachSource answers { s with cmd := rest })
  | .attachSink errs :: rest => .next (attachSink errs { s with cmd := rest })

/-- The command word `w` becomes the next event on the command port. -/
def deliverWord (w : Word) (s : State) : State := { s with cmd := .command w :: s.cmd }

end Sys2Proof.Machine
end

