-- ==== Sys2Proof/Machine/Step.lean ====
section
/-! DEFINITION. One step of the machine: one host event, and with it one whole command (R12). -/

namespace Sys2Proof.Machine

/-- One step: the next host event is taken; a command executes atomically and in full (R12, R58). -/
def step (s : State) : Host.Outcome State Fault Refusal := takeEvent s

/-- `s` with the instruction of `nbits` bits `w` as the next word on the command port, where `step`
takes its next instruction (R33, R76); the bits above `nbits` are zero. -/
def State.withFetchWord (s : State) (nbits w : Nat) : State :=
  deliverWord (BitVec.ofNat 32 (w % 2 ^ nbits)) s

end Sys2Proof.Machine
end

