-- ==== Sys2Proof/Machine/Streams.lean ====
section
/-! DEFINITION. The collaborator's contract for the two serial streams (R53 to R56): the bits a sink was given, their packing into bytes with the flush's padding, and the order in which a source gives a byte's bits. -/

namespace Sys2Proof.Machine

/-- The data bits among the transactions the sink accepted, in order: the encoded stream (R77). -/
def streamBits : List BoTxn → List Bit
  | [] => []
  | ⟨.bit b, false⟩ :: rest => b :: streamBits rest
  | ⟨.bit _, true⟩ :: rest => streamBits rest
  | ⟨.flush, _⟩ :: rest => streamBits rest

/-- How many zero bits a flush appends after `n` bits: 0 to 7, to a multiple of 8 (R55). -/
def padLength (n : Nat) : Nat := (8 - n % 8) % 8

/-- The stream after its flush (R55). -/
def padded (bits : List Bit) : List Bit := bits ++ List.replicate (padLength bits.length) false

/-- The number a bit sequence spells, most significant bit first (R53). -/
def bitsToNat (bits : List Bit) : Nat := bits.foldl (fun acc b => 2 * acc + b.toNat) 0

/-- Whole bytes, the first bit of each its most significant (R54). -/
def packBytes : List Bit → List Byte
  | b7 :: b6 :: b5 :: b4 :: b3 :: b2 :: b1 :: b0 :: rest =>
    BitVec.ofNat 8 (bitsToNat [b7, b6, b5, b4, b3, b2, b1, b0]) :: packBytes rest
  | _ => []

/-- The bits of a byte in the order they are read, most significant first (R54). -/
def byteBits (b : Byte) : List Bit :=
  [b.getLsbD 7, b.getLsbD 6, b.getLsbD 5, b.getLsbD 4, b.getLsbD 3, b.getLsbD 2, b.getLsbD 1, b.getLsbD 0]

/-- The answers of a source that holds these bytes and does not fail (R54, R78). -/
def sourceOfBytes (bytes : List Byte) : List BiAnswer :=
  (bytes.flatMap byteBits).map BiAnswer.bit

end Sys2Proof.Machine
end

