-- ==== Sys2Proof/Machine/Procedures.lean ====
section
/-! DEFINITION. The host's procedures: the pseudo-commands of R80 and the canonical encode and decode procedures (R133, R143, R144). -/

namespace Sys2Proof.Machine

/-- The pseudo-commands that expand to a fixed sequence (R80). -/
inductive Pseudo where
  | eByte (b : Byte)
  | eEos
  | encode (bytes : List Byte)
  | decodeCount (n : Nat)
  deriving DecidableEq, Repr

/-- `E.SYM b` for a byte `b` (R80). -/
def symOfByte (b : Byte) : Instr := .eSym (b.setWidth 9)

/-- The expansion of a pseudo-command (R80). -/
def expand : Pseudo → List Instr
  | .eByte b => [symOfByte b]
  | .eEos => [.eSym 256]
  | .encode bytes => .eInit :: bytes.map symOfByte ++ [.eSym 256, .eFinish]
  | .decodeCount n => .dInit :: List.replicate n .dSym ++ [.dEnd]

/-- The host issues these commands one after another (R58, R198). -/
def issue : List Instr → State → Host.Outcome State Fault Refusal
  | [], s => .next s
  | i :: rest, s =>
    match exec i s with
    | .next t => issue rest t
    | .fault f => .fault f
    | .refused r => .refused r

/-- The status of the last response delivered. -/
def lastStatus (s : State) : Option Status := s.rsp.getLast?.map (·.status)

/-- `D.SYM` repeated until one answers `EOS` (R143): the loop of `DECODE` (R80), which is the host's.
DESIGN CHOICE (log 17): the loop ends on any status but `OK`, a `FAULT` answer among them, and after
`n` commands at the latest; the rules say only "until a `D.SYM` answers `EOS`". -/
def decodeLoop : Nat → State → Host.Outcome State Fault Refusal
  | 0, s => .next s
  | n + 1, s =>
    match exec .dSym s with
    | .next t => if lastStatus t = some .ok then decodeLoop n t else .next t
    | .fault f => .fault f
    | .refused r => .refused r

/-- `DECODE` with at most `n` symbols asked for: `D.INIT`, the loop, `D.END` (R80, R143). DESIGN CHOICE
(log 17): the rules give `D.END` after `EOS` only; here it is issued also when the loop ended on a
`FAULT` answer or at `n`, and the loop is entered also after a `D.INIT` that answered `FAULT`, so that
in `FAULT` mode one `D.SYM` (for `n` above 0) and `D.END` are each answered `FAULT`. -/
def decodeStream (n : Nat) (s : State) : Host.Outcome State Fault Refusal :=
  match exec .dInit s with
  | .next t =>
    match decodeLoop n t with
    | .next u => exec .dEnd u
    | .fault f => .fault f
    | .refused r => .refused r
  | .fault f => .fault f
  | .refused r => .refused r

end Sys2Proof.Machine
end

