-- ==== Sys2Proof/Safety.lean ====
section
/-! DEFINITION. What claims are stated in: the invariants of the table, the interval and the whole state, a collaborator that does not fail, a fault taken, and the E1/E2/E3 loops as relations written from the rules. -/

namespace Sys2Proof.Machine

/-- The table invariants: R22 (a) to (c) and R103 (f), (g). -/
structure TableInv (p : Params) (m : Memory) (frozen : Bool) : Prop where
  /-- 258 words (R21) -/
  length : m.length = 258
  /-- R22 (a) -/
  zero : cumAt m 0 = 0
  /-- R22 (b): every frequency is at least 1 -/
  increasing : ∀ s, s ≤ 256 → cumAt m s < cumAt m (s + 1)
  /-- R22 (c) -/
  total : cumAt m 257 ≤ p.ceil
  /-- R103 (f) -/
  live : frozen = false → cumAt m 257 < p.ceil
  /-- R103 (g) -/
  stopped : frozen = true → p.policy = .freeze ∧ cumAt m 257 = p.ceil

/-- No renormalisation case applies: the interval between symbols (R24, R119). -/
def Settled (p : Params) (low high : Nat) : Prop :=
  low < p.half ∧ p.half ≤ high ∧ (low < p.oneFourth ∨ p.threeFourths ≤ high)

/-- The invariant every step keeps. -/
structure Invariant (s : State) : Prop where
  /-- the table's form (R21) -/
  form : Memory.wf s.cum = true
  /-- the table's invariants (R22, R103) -/
  table : s.params.valid = true → TableInv s.params s.cum s.frozen
  /-- `HIGH - LOW` never underflows (R110) -/
  ordered : s.low ≤ s.high
  /-- `HIGH` is `CODE_BITS` wide (R24) -/
  highFits : s.high ≤ s.params.maxCode
  /-- `VALUE` is `CODE_BITS` wide (R26) -/
  valueFits : s.value ≤ s.params.maxCode
  /-- `PENDING` is `PEND_BITS` wide (R25) -/
  pendingFits : s.pending ≤ s.params.pendMax
  /-- `OVERRUN` is in `[0, OVERRUN_MAX]` (R27) -/
  overrunFits : s.overrun ≤ s.params.overrunMax
  /-- `MODE = FAULT` if and only if `FAULT_CODE != 0` (R29) -/
  faultIff : s.mode = .fault ↔ s.faultCode ≠ .none
  /-- `FAULT_INFO` is 0 when there is no fault or reset raised it (R29) -/
  infoZero : s.faultCode = .none ∨ s.faultCode = .precisionViolation → s.faultInfo = 0
  /-- an invalid parameter set, and only it, is `PrecisionViolation` (R169) -/
  precision : s.faultCode = .precisionViolation ↔ s.params.valid = false
  /-- between commands outside `FAULT` mode no case applies (R24, R119) -/
  settled : s.mode ≠ .fault → Settled s.params s.low s.high
  /-- the decode invariant (R120) -/
  window : s.mode = .dec ∨ s.mode = .decEos → s.low ≤ s.value ∧ s.value ≤ s.high

/-- The sink accepts every transaction to come (R77). -/
def SinkAccepts (s : State) : Prop := ∀ e ∈ s.boErr, e = false

/-- The sink accepts the next `n` transactions (R77). -/
def SinkTakes (s : State) (n : Nat) : Prop := ∀ e ∈ s.boErr.take n, e = false

/-- The source does not fail: it gives bits, then "at end" (R78). -/
def SourceSound (s : State) : Prop := ∀ a ∈ s.bi, a ≠ .err

/-- What `raise Fault(code)` leaves, as R178 lists it: three registers and the response `FAULT` with
every other field zero. -/
def faulted (c : FaultCode) (w : Word) (s : State) : State :=
  { s with
    faultCode := c, faultInfo := w, mode := .fault
    rsp := s.rsp ++ [⟨.fault, 0, 0, 0, 0, 0⟩] }

/-- Data bits as accepted bit-out transactions (R77). -/
def sentBits (bits : List Bit) : List BoTxn := bits.map fun b => ⟨.bit b, false⟩

/-- The E3 case of the renormalisation loops, after E1 and E2 (R116, R118): the interval straddles
`HALF` inside the middle half. -/
def Underflow (p : Params) (low high : Nat) : Prop :=
  p.oneFourth ≤ low ∧ low < p.half ∧ p.half ≤ high ∧ high < p.threeFourths

/-- Completed iterations of the encode loop, written from R113, R116, R118 and R122: from `LOW`, `HIGH`,
`PENDING` the bits emitted, and the registers after them. The E3 case counts up only below the
maximum of `PENDING` (R122). -/
inductive EncSteps (p : Params) : Nat → Nat → Nat → List Bit → Nat → Nat → Nat → Prop where
  | done {l h q : Nat} : EncSteps p l h q [] l h q
  | e1 {l h q l' h' q' : Nat} {out : List Bit} (c : h < p.half)
      (rest : EncSteps p (2 * l) (2 * h + 1) 0 out l' h' q') :
      EncSteps p l h q (false :: (List.replicate q true ++ out)) l' h' q'
  | e2 {l h q l' h' q' : Nat} {out : List Bit} (c : p.half ≤ l)
      (rest : EncSteps p (2 * (l - p.half)) (2 * (h - p.half) + 1) 0 out l' h' q') :
      EncSteps p l h q (true :: (List.replicate q false ++ out)) l' h' q'
  | e3 {l h q l' h' q' : Nat} {out : List Bit} (c : Underflow p l h) (room : q ≠ p.pendMax)
      (rest : EncSteps p (2 * (l - p.oneFourth)) (2 * (h - p.oneFourth) + 1) (q + 1) out l' h' q') :
      EncSteps p l h q out l' h' q'

/-- The whole encode loop: iterations to where no case applies (R116, R118). -/
def EncTrace (p : Params) (l h q : Nat) (bits : List Bit) (l' h' q' : Nat) : Prop :=
  EncSteps p l h q bits l' h' q' ∧ Settled p l' h'

/-- Completed iterations of the decode loop, written from R117 and R118: from `LOW`, `HIGH`, `VALUE` the
bits fetched, and the registers after them. -/
inductive DecSteps (p : Params) : Nat → Nat → Nat → List Bit → Nat → Nat → Nat → Prop where
  | done {l h v : Nat} : DecSteps p l h v [] l h v
  | e1 {l h v l' h' v' : Nat} {b : Bit} {bits : List Bit} (c : h < p.half)
      (rest : DecSteps p (2 * l) (2 * h + 1) (2 * v + b.toNat) bits l' h' v') :
      DecSteps p l h v (b :: bits) l' h' v'
  | e2 {l h v l' h' v' : Nat} {b : Bit} {bits : List Bit} (c : p.half ≤ l)
      (rest : DecSteps p (2 * (l - p.half)) (2 * (h - p.half) + 1) (2 * (v - p.half) + b.toNat)
        bits l' h' v') :
      DecSteps p l h v (b :: bits) l' h' v'
  | e3 {l h v l' h' v' : Nat} {b : Bit} {bits : List Bit} (c : Underflow p l h)
      (rest : DecSteps p (2 * (l - p.oneFourth)) (2 * (h - p.oneFourth) + 1)
        (2 * (v - p.oneFourth) + b.toNat) bits l' h' v') :
      DecSteps p l h v (b :: bits) l' h' v'

/-- The whole decode loop: iterations to where no case applies (R117, R118). -/
def DecTrace (p : Params) (l h v : Nat) (bits : List Bit) (l' h' v' : Nat) : Prop :=
  DecSteps p l h v bits l' h' v' ∧ Settled p l' h'

/-- The table with one more count of `sym`: `CUM[i] + 1` for `i > sym` (R93). -/
def countedTable (sym : Nat) (m : Memory) : Memory :=
  (List.range' 0 258).map fun i => if sym < i then cumAt m i + 1 else cumAt m i

/-- The table whose frequencies are those of `m` halved, rounding up: `CUM[i]` is the sum of
`floor((freq[s] + 1) / 2)` over the symbols `s < i` (R94). -/
def halvedTable (m : Memory) : Memory :=
  (List.range' 0 258).map fun i =>
    ((List.range i).map fun s => (cumAt m (s + 1) - cumAt m s + 1) / 2).sum

/-- The table and `FROZEN` after `Observe(sym)`, written from R93 and R94. -/
def observedModel (sym : Nat) (s : State) : Memory × Bool :=
  if s.frozen = true then (s.cum, true)
  else if cumAt s.cum 257 + 1 < s.params.ceil then (countedTable sym s.cum, false)
  else match s.params.policy with
    | .freeze => (countedTable sym s.cum, true)
    | .renormalize => (halvedTable (countedTable sym s.cum), false)

/-- The new `LOW` of `Narrow` (R111), from `LOW`, `HIGH`, `CUM[sym]` and the total. -/
def narrowedLow (s : State) (sym : Nat) : Nat :=
  s.low + (s.high - s.low + 1) * cumAt s.cum sym / cumAt s.cum 257

/-- The new `HIGH` of `Narrow` (R111), from `LOW`, `HIGH`, `CUM[sym+1]` and the total. -/
def narrowedHigh (s : State) (sym : Nat) : Nat :=
  s.low + (s.high - s.low + 1) * cumAt s.cum (sym + 1) / cumAt s.cum 257 - 1

/-- `scaled` of `Scale` (R121). -/
def scaledValue (s : State) : Nat :=
  ((s.value - s.low + 1) * cumAt s.cum 257 - 1) / (s.high - s.low + 1)

/-- The first `n` bits the source gives, zeros past its end (R78, R114). -/
def sourceBits (n : Nat) (s : State) : List Bit :=
  ((s.bi.take n).map fun a => decide (a = .bit true)) ++ List.replicate (n - s.bi.length) false

/-- What of `E.SYM sym` has taken effect in `s` after completed loop iterations: the symbol counted, the
registers they leave and the bits they emitted (R131, R179). -/
def encodedSteps (sym l h q : Nat) (bits : List Bit) (s : State) : State :=
  { s with
    low := l, high := h, pending := q
    cum := (observedModel sym s).1, frozen := (observedModel sym s).2
    bo := s.bo ++ sentBits bits, boErr := s.boErr.drop bits.length }

/-- The source gives exactly `bits` next: no `bi_err` among them, zeros past its end, and `OVERRUN` after
such zeros at most `OVERRUN_MAX` (R78, R114). -/
def SourceGives (s : State) (bits : List Bit) : Prop :=
  (∀ a ∈ s.bi.take bits.length, a ≠ .err) ∧ bits = sourceBits bits.length s
    ∧ (bits.length ≤ s.bi.length
      ∨ s.overrun + (bits.length - s.bi.length) ≤ s.params.overrunMax)

/-- After `n` bits the source has no further bit to give: it answers `bi_err`, or it is at its end with
`OVERRUN` at `OVERRUN_MAX` (R114, R168, R170). -/
def SourceRaises (s : State) (n : Nat) : Prop :=
  (∃ later, s.bi.drop n = .err :: later)
    ∨ (s.bi.length ≤ n ∧ s.overrun + (n - s.bi.length) = s.params.overrunMax)

/-- The decoder's side of `s` after `n` bits were fetched, each one past the end counted in `OVERRUN`
(R78, R114). -/
def afterFetched (n : Nat) (s : State) : State :=
  { s with overrun := s.overrun + (n - s.bi.length), bi := s.bi.drop n }

/-- What of `D.SYM` for the byte `sym` has taken effect in `s` after completed loop iterations: the
symbol counted, the registers they leave and the `n` bits they fetched (R141, R179). -/
def decodedSteps (sym l h v n : Nat) (s : State) : State :=
  { afterFetched n s with
    low := l, high := h, value := v
    cum := (observedModel sym s).1, frozen := (observedModel sym s).2 }

/-- The commands that may change the table or `FROZEN` (R21, R50). -/
def writesTable : Instr → Bool
  | .reset | .mInit | .mObserve _ | .eInit | .eSym _ | .dInit | .dSym => true
  | .rdreg _ | .rdcum _ | .mProb _ | .mLocate _ | .mTotal | .eFinish | .dEnd => false

/-- The commands that may change `LOW` or `HIGH` (R24). -/
def writesInterval : Instr → Bool
  | .reset | .eInit | .eSym _ | .dInit | .dSym => true
  | .rdreg _ | .rdcum _ | .mInit | .mProb _ | .mLocate _ | .mObserve _ | .mTotal | .eFinish
  | .dEnd => false

/-- The commands that may change `PENDING` (R25). -/
def writesPending : Instr → Bool
  | .reset | .eInit | .eSym _ | .eFinish | .dInit => true
  | .rdreg _ | .rdcum _ | .mInit | .mProb _ | .mLocate _ | .mObserve _ | .mTotal | .dSym
  | .dEnd => false

/-- The commands that may change `VALUE` or `OVERRUN` (R26, R27). -/
def writesWindow : Instr → Bool
  | .reset | .eInit | .dInit | .dSym => true
  | .rdreg _ | .rdcum _ | .mInit | .mProb _ | .mLocate _ | .mObserve _ | .mTotal | .eSym _
  | .eFinish | .dEnd => false

/-- The commands that reach the bit-out stream (R50). -/
def writesStream : Instr → Bool
  | .eSym _ | .eFinish => true
  | .reset | .rdreg _ | .rdcum _ | .mInit | .mProb _ | .mLocate _ | .mObserve _ | .mTotal | .eInit
  | .dInit | .dSym | .dEnd => false

/-- The commands that reach the bit-in stream (R50). -/
def readsStream : Instr → Bool
  | .dInit | .dSym => true
  | .reset | .rdreg _ | .rdcum _ | .mInit | .mProb _ | .mLocate _ | .mObserve _ | .mTotal | .eInit
  | .eSym _ | .eFinish | .dEnd => false

end Sys2Proof.Machine
end

