-- ==== Sys2Proof/Certificates/Slice0/Obligations.lean ====
section
/-! DEFINITION. The statements for the provers, each from the rules its docstring names. Where one says that a command which reaches a stream answers a next state, it rests on log 11: a port transaction completes at once. -/

open Sys2Proof Sys2Proof.Machine

/-! ## The command word -/

/-- R70 to R72, R79, R81: decoding the word of a well-formed command gives the command back. -/
def Obligations.DecodeOfEncode : Prop :=
  ∀ i : Instr, i.wf = true → decode (encode i) = .ok i

/-- R70 to R73, R81: every word that decodes is the word of the one command it decodes to, and that
command is well formed. -/
def Obligations.EncodeOfDecode : Prop :=
  ∀ (w : Word) (i : Instr), decode w = .ok i → i.wf = true ∧ encode i = w

/-- R71 to R73, R81: a word selects a command exactly when it matches the command's row under the
row's mask, and its operand is the row's field of the word, within the range that is not reserved. -/
def Obligations.DecodeIsMatchAndMask : Prop :=
  ∀ w : Word,
    (decode w = .ok .reset ↔ w &&& 0xFFFFFFFF = 0x10000000)
    ∧ (∀ r, decode w = .ok (.rdreg r) ↔
        w &&& 0xFFFFFFF0 = 0x20000000 ∧ r = w.extractLsb' 0 4 ∧ r.toNat ≤ 7)
    ∧ (∀ x, decode w = .ok (.rdcum x) ↔
        w &&& 0xFFFFFE00 = 0x30000000 ∧ x = w.extractLsb' 0 9 ∧ x.toNat ≤ 257)
    ∧ (decode w = .ok .mInit ↔ w &&& 0xFFFFFFFF = 0x40000000)
    ∧ (∀ x, decode w = .ok (.mProb x) ↔ w &&& 0xFFFFFE00 = 0x50000000 ∧ x = w.extractLsb' 0 9)
    ∧ (∀ v, decode w = .ok (.mLocate v) ↔ w &&& 0xF0000000 = 0x60000000 ∧ v = w.extractLsb' 0 28)
    ∧ (∀ x, decode w = .ok (.mObserve x) ↔ w &&& 0xFFFFFE00 = 0x70000000 ∧ x = w.extractLsb' 0 9)
    ∧ (decode w = .ok .mTotal ↔ w &&& 0xFFFFFFFF = 0x80000000)
    ∧ (decode w = .ok .eInit ↔ w &&& 0xFFFFFFFF = 0x90000000)
    ∧ (∀ x, decode w = .ok (.eSym x) ↔ w &&& 0xFFFFFE00 = 0xA0000000 ∧ x = w.extractLsb' 0 9)
    ∧ (decode w = .ok .eFinish ↔ w &&& 0xFFFFFFFF = 0xB0000000)
    ∧ (decode w = .ok .dInit ↔ w &&& 0xFFFFFFFF = 0xC0000000)
    ∧ (decode w = .ok .dSym ↔ w &&& 0xFFFFFFFF = 0xD0000000)
    ∧ (decode w = .ok .dEnd ↔ w &&& 0xFFFFFFFF = 0xE0000000)

/-- R82, the spec's own examples of R70 to R73, as words written out by hand. -/
def Obligations.EncodingExamples : Prop :=
  decode 0x50000041 = .ok (.mProb 65) ∧ decode 0x6000012C = .ok (.mLocate 300)
    ∧ decode 0x70000100 = .ok (.mObserve 256) ∧ decode 0xA0000000 = .ok (.eSym 0)
    ∧ decode 0x20000001 = .ok (.rdreg 1) ∧ decode 0x30000101 = .ok (.rdcum 257)
    ∧ decode 0x00000000 = .error .opcode ∧ decode 0xFFFFFFFF = .error .opcode
    ∧ decode 0x10000001 = .error .mustBeZero ∧ decode 0x20000008 = .error .registerNumber
    ∧ decode 0x30000102 = .error .tableIndex ∧ decode 0xA0000101 = .ok (.eSym 257)

/-! ## A step -/

/-- R12, R33, R58, R76: when the next host event is a word that decodes to a command, the step is
that command's meaning, the word taken from the port. That host events wait in `cmd` is the model's
choice (log 2). -/
def Obligations.StepRunsDecodedCommand : Prop :=
  ∀ (s : State) (w : Word) (rest : List HostEvent) (i : Instr),
    s.cmd = .command w :: rest → decode w = .ok i → step s = exec i { s with cmd := rest }

/-- R73: the reserved encodings are exactly the words of (a) to (d). Outside `FAULT` mode one raises
`IllegalCommand` with the word recorded (R152, R173, R178), and a word that is no reserved encoding
never does, whatever else it raises. In `FAULT` mode a reserved encoding answers `FAULT` and changes
nothing (R152), as other words do there (R155 step 1). -/
def Obligations.ReservedWordsFault : Prop :=
  ∀ w : Word,
    ((∃ e, decode w = .error e) ↔
        w.extractLsb' 28 4 = 0x0 ∨ w.extractLsb' 28 4 = 0xF
        ∨ (w.extractLsb' 28 4 ∈ [0x1, 0x4, 0x8, 0x9, 0xB, 0xC, 0xD, 0xE] ∧ w.extractLsb' 0 28 ≠ 0)
        ∨ (w.extractLsb' 28 4 ∈ [0x3, 0x5, 0x7, 0xA] ∧ w.extractLsb' 9 19 ≠ 0)
        ∨ (w.extractLsb' 28 4 = 0x2 ∧ w.extractLsb' 4 24 ≠ 0)
        ∨ (w.extractLsb' 28 4 = 0x2 ∧ 8 ≤ (w.extractLsb' 0 4).toNat)
        ∨ (w.extractLsb' 28 4 = 0x3 ∧ 258 ≤ (w.extractLsb' 0 9).toNat))
    ∧ ∀ (s : State) (rest : List HostEvent), s.cmd = .command w :: rest →
      (∀ e, decode w = .error e →
        (s.mode ≠ .fault →
          step s = .next (faulted .illegalCommand w { s with cmd := rest }))
        ∧ (s.mode = .fault →
          step s = .next { s with cmd := rest, rsp := s.rsp ++ [⟨.fault, 0, 0, 0, 0, 0⟩] }))
      ∧ ∀ i t, decode w = .ok i → s.mode ≠ .fault → step s = .next t → t.mode = .fault →
        t.faultCode ≠ .illegalCommand

/-- R190 (with R36, R37): `rst` between commands puts every piece of core state at its reset value;
during a command the command is abandoned without a response, its completed port transactions stay,
and nothing else does. That `rst` cuts a command after `k` of its port transactions is the model's
choice (log 10). -/
def Obligations.RstAtAnyTime : Prop :=
  (∀ (s : State) (rest : List HostEvent), s.cmd = .rst :: rest →
    step s = .next { State.ofParams s.params with
      cmd := rest, rsp := s.rsp, bo := s.bo, boErr := s.boErr, bi := s.bi })
  ∧ ∀ (s u : State) (w : Word) (k : Nat) (rest : List HostEvent) (sent : List BoTxn)
      (taken : Nat),
    s.cmd = .rstDuring w k :: rest →
    step { s with cmd := .command w :: rest } = .next u →
    u.bo = s.bo ++ sent → u.boErr = s.boErr.drop sent.length →
    taken ≤ s.bi.length → u.bi = s.bi.drop taken →
    step s = .next { State.ofParams s.params with
      cmd := rest, rsp := s.rsp, bo := s.bo ++ sent.take k,
      boErr := s.boErr.drop (min k sent.length), bi := s.bi.drop (min k taken) }

/-! ## Faults -/

/-- R155 step 1, R180: in `FAULT` mode every word but `0x10000000` and `0x20000000` to `0x20000007`
answers `FAULT`, and nothing but the response changes. -/
def Obligations.FaultModeAnswersFault : Prop :=
  ∀ (s : State) (w : Word) (rest : List HostEvent),
    s.cmd = .command w :: rest → s.mode = .fault → w ≠ 0x10000000 →
    ¬ (0x20000000 ≤ w.toNat ∧ w.toNat ≤ 0x20000007) →
    step s = .next { s with cmd := rest, rsp := s.rsp ++ [⟨.fault, 0, 0, 0, 0, 0⟩] }

/-- R165, R181: in `FAULT` mode no word but `RESET` changes anything but the responses, so no second
fault is raised and the registers keep the first. -/
def Obligations.FaultIsSticky : Prop :=
  ∀ (s t : State) (w : Word) (rest : List HostEvent),
    s.cmd = .command w :: rest → s.mode = .fault → w ≠ 0x10000000 → step s = .next t →
    t = { s with cmd := rest, rsp := t.rsp }

/-- R154 (the "seq" entries), R174: a well-formed command in a mode where it is not legal raises
`IllegalSequence` with its word, and has no other effect. -/
def Obligations.IllegalSequenceFaults : Prop :=
  ∀ s : State, s.mode ≠ .fault →
    (s.mode ≠ .idle →
      exec .mInit s = .next (faulted .illegalSequence 0x40000000 s)
      ∧ (∀ x, exec (.mObserve x) s = .next (faulted .illegalSequence (0x70000000 ||| x.setWidth 32) s))
      ∧ exec .eInit s = .next (faulted .illegalSequence 0x90000000 s)
      ∧ exec .dInit s = .next (faulted .illegalSequence 0xC0000000 s))
    ∧ (s.mode ≠ .enc →
      ∀ x, exec (.eSym x) s = .next (faulted .illegalSequence (0xA0000000 ||| x.setWidth 32) s))
    ∧ (s.mode ≠ .enc → s.mode ≠ .encEos →
      exec .eFinish s = .next (faulted .illegalSequence 0xB0000000 s))
    ∧ (s.mode ≠ .dec → exec .dSym s = .next (faulted .illegalSequence 0xD0000000 s))
    ∧ (s.mode ≠ .dec → s.mode ≠ .decEos →
      exec .dEnd s = .next (faulted .illegalSequence 0xE0000000 s))

/-- R171: a symbol operand of 257 to 511 in a command that the mode allows raises `SymbolRange` with
the command word, and nothing else changes. -/
def Obligations.SymbolRangeFaults : Prop :=
  ∀ (s : State) (x : BitVec 9), 257 ≤ x.toNat →
    (s.mode ≠ .fault →
      exec (.mProb x) s = .next (faulted .symbolRange (0x50000000 ||| x.setWidth 32) s))
    ∧ (s.mode = .idle →
      exec (.mObserve x) s = .next (faulted .symbolRange (0x70000000 ||| x.setWidth 32) s))
    ∧ (s.mode = .enc →
      exec (.eSym x) s = .next (faulted .symbolRange (0xA0000000 ||| x.setWidth 32) s))

/-- R153: `MODE` changes only as the transition table lists. -/
def Obligations.ModeChangesOnlyAsListed : Prop :=
  ∀ (i : Instr) (s t : State), exec i s = .next t →
    t.mode = s.mode
    ∨ (s.mode ≠ .fault ∧ t.mode = .fault ∧ t.faultCode ≠ .none)
    ∨ (i = .reset ∧ t.mode = if s.params.valid then .idle else .fault)
    ∨ (i = .eInit ∧ s.mode = .idle ∧ t.mode = .enc)
    ∨ (i = .eSym 256 ∧ s.mode = .enc ∧ t.mode = .encEos)
    ∨ (i = .eFinish ∧ (s.mode = .enc ∨ s.mode = .encEos) ∧ t.mode = .idle)
    ∨ (i = .dInit ∧ s.mode = .idle ∧ t.mode = .dec)
    ∨ (i = .dSym ∧ s.mode = .dec ∧ t.mode = .decEos
        ∧ t.rsp = s.rsp ++ [⟨.eos, 256, 0, 0, 0, 0⟩])
    ∨ (i = .dEnd ∧ (s.mode = .dec ∨ s.mode = .decEos) ∧ t.mode = .idle)

/-- R12, R74: every command that completes delivers exactly one response, after those before it. -/
def Obligations.OneResponsePerCommand : Prop :=
  ∀ (i : Instr) (s t : State), exec i s = .next t → ∃ r, t.rsp = s.rsp ++ [r]

/-- R21, R24 to R27, R50, R64: which state each command may change. Outside a fault, what the lists
do not name is unchanged; the instance's parameters and the host's pending events never change, the
bit-out log only grows and the bit-in stream is only read forward. -/
def Obligations.CommandsChangeOnlyWhatIsListed : Prop :=
  ∀ (i : Instr) (s t : State), exec i s = .next t →
    t.params = s.params ∧ t.cmd = s.cmd
    ∧ (writesTable i = false → t.cum = s.cum ∧ t.frozen = s.frozen)
    ∧ (writesInterval i = false → t.low = s.low ∧ t.high = s.high)
    ∧ (writesPending i = false → t.pending = s.pending)
    ∧ (writesWindow i = false → t.value = s.value ∧ t.overrun = s.overrun)
    ∧ (writesStream i = false → t.bo = s.bo ∧ t.boErr = s.boErr)
    ∧ (readsStream i = false → t.bi = s.bi)
    ∧ (t.mode ≠ .fault → i ≠ .reset → t.faultCode = s.faultCode ∧ t.faultInfo = s.faultInfo)
    ∧ (∃ sent : List BoTxn, t.bo = s.bo ++ sent ∧ t.boErr = s.boErr.drop sent.length)
    ∧ ∃ n, n ≤ s.bi.length ∧ t.bi = s.bi.drop n

/-! ## Reset and the registers -/

/-- R36, R169: every piece of core state after reset, for every parameter set. That `State.reset` is
the default instance of R6, R8 and R9 is the model's choice (log 1). -/
def Obligations.ResetValues : Prop :=
  State.reset = State.ofParams ⟨32, 16, 32, .renormalize⟩
  ∧ ∀ (p : Params) (s : State), s = State.ofParams p →
    (∀ i, i ≤ 257 → cumAt s.cum i = i) ∧ s.cum.length = 258 ∧ s.frozen = false
    ∧ s.low = 0 ∧ s.high = 2 ^ p.codeBits - 1 ∧ s.pending = 0 ∧ s.value = 0 ∧ s.overrun = 0
    ∧ s.faultInfo = 0
    ∧ ((p.freqBits + 2 ≤ p.codeBits ∧ 9 ≤ p.freqBits ∧ p.freqBits ≤ 28 ∧ p.codeBits ≤ 255
          ∧ 1 ≤ p.pendBits ∧ p.pendBits ≤ 255) →
        s.mode = .idle ∧ s.faultCode = .none)
    ∧ (¬ (p.freqBits + 2 ≤ p.codeBits ∧ 9 ≤ p.freqBits ∧ p.freqBits ≤ 28 ∧ p.codeBits ≤ 255
          ∧ 1 ≤ p.pendBits ∧ p.pendBits ≤ 255) →
        s.mode = .fault ∧ s.faultCode = .precisionViolation)

/-- R36, R150, R191: after `RESET` in any mode, and after `rst`, every piece of core state has its
reset value and the streams are as they were; `RESET` answers `OK`, or `FAULT` for an invalid
parameter set, and `rst` answers nothing. -/
def Obligations.ResetCommand : Prop :=
  ∀ s : State, ∃ t : State,
    t = { s with
      cum := List.range' 0 258, frozen := false, low := 0, high := 2 ^ s.params.codeBits - 1
      pending := 0, value := 0, overrun := 0
      mode := if s.params.valid then .idle else .fault
      faultCode := if s.params.valid then .none else .precisionViolation
      faultInfo := 0 }
    ∧ exec .reset s = .next { t with
      rsp := s.rsp ++ [⟨if s.params.valid then .ok else .fault, 0, 0, 0, 0, 0⟩] }
    ∧ step { s with cmd := .rst :: s.cmd } = .next t

/-- R32, R151: in every mode `RDREG r` for 0 to 7 answers `OK` with the register the number names, and
changes nothing else. -/
def Obligations.RdregReadsRegister : Prop :=
  ∀ (s : State) (r : BitVec 4) (v : Nat),
    [(configWord s.params).toNat, (statusWord s).toNat, s.low, s.high, s.value, s.pending,
      s.overrun, s.faultInfo.toNat][r.toNat]? = some v →
    exec (.rdreg r) s = .next { s with rsp := s.rsp ++ [⟨.ok, 0, 0, 0, 0, v⟩] }

/-- R30: the layout of `CONFIG`, for every parameter set that fits its fields, and its value in the
default instance. -/
def Obligations.ConfigLayout : Prop :=
  (∀ p : Params, p.codeBits ≤ 255 → p.freqBits ≤ 255 → p.pendBits ≤ 255 →
    (configWord p).toNat = p.codeBits + 2 ^ 8 * p.freqBits + 2 ^ 16 * p.pendBits
      + 2 ^ 24 * (if p.policy = .renormalize then 1 else 0))
  ∧ configWord Params.default = 0x01201020

/-- R31, R28, R166: the layout of `STATUS`, register number 1, and its value after reset of a valid
instance. -/
def Obligations.StatusLayout : Prop :=
  (∀ s : State, readRegister 1 s = some (statusWord s).toNat ∧ (statusWord s).toNat =
      (match s.mode with
        | .idle => 0 | .enc => 1 | .encEos => 2 | .dec => 3 | .decEos => 4 | .fault => 7)
      + 8 * (if s.frozen then 1 else 0)
      + 16 * (match s.faultCode with
        | .none => 0 | .streamExhausted => 1 | .precisionViolation => 2 | .ioFailure => 3
        | .symbolRange => 4 | .illegalCommand => 5 | .illegalSequence => 6 | .pendingOverflow => 7
        | .valueRange => 8))
  ∧ ∀ p : Params, p.valid = true → statusWord (State.ofParams p) = 0

/-! ## The model commands -/

/-- R102: `RDCUM idx` answers `OK` with the table word, in every mode but `FAULT`. -/
def Obligations.RdcumReadsWord : Prop :=
  ∀ (s : State) (x : BitVec 9), s.mode ≠ .fault → x.toNat ≤ 257 →
    exec (.rdcum x) s = .next { s with rsp := s.rsp ++ [⟨.ok, 0, 0, 0, 0, cumAt s.cum x.toNat⟩] }

/-- R95, R97: `M.INIT` in `IDLE` makes the uniform table and clears `FROZEN`. -/
def Obligations.MInitFreshModel : Prop :=
  ∀ s : State, s.mode = .idle →
    exec .mInit s = .next { s with
      cum := List.range' 0 258, frozen := false, rsp := s.rsp ++ [⟨.ok, 0, 0, 0, 0, 0⟩] }

/-- R90, R98: `M.PROB sym` answers the symbol's bounds and the total, and changes nothing else. -/
def Obligations.MProbAnswersBounds : Prop :=
  ∀ (s : State) (x : BitVec 9), s.mode ≠ .fault → x.toNat ≤ 256 →
    exec (.mProb x) s = .next { s with rsp := s.rsp ++
      [⟨.ok, x.toNat, cumAt s.cum x.toNat, cumAt s.cum (x.toNat + 1), cumAt s.cum 257, 0⟩] }

/-- R91, R99: below the total `M.LOCATE v` answers the one symbol whose half-open interval holds `v`,
and changes nothing else. -/
def Obligations.MLocateFindsOwner : Prop :=
  ∀ (s : State) (v : BitVec 28), s.mode ≠ .fault → TableInv s.params s.cum s.frozen →
    v.toNat < cumAt s.cum 257 →
    ∃ k, k ≤ 256 ∧ cumAt s.cum k ≤ v.toNat ∧ v.toNat < cumAt s.cum (k + 1)
      ∧ (∀ j, j ≤ 256 → cumAt s.cum j ≤ v.toNat → v.toNat < cumAt s.cum (j + 1) → j = k)
      ∧ exec (.mLocate v) s = .next { s with rsp := s.rsp ++
          [⟨.ok, k, cumAt s.cum k, cumAt s.cum (k + 1), cumAt s.cum 257, 0⟩] }

/-- R172: `M.LOCATE v` with `v >= CUM[257]` raises `ValueRange` with its word, and nothing else
changes. -/
def Obligations.MLocateValueRange : Prop :=
  ∀ (s : State) (v : BitVec 28), s.mode ≠ .fault → cumAt s.cum 257 ≤ v.toNat →
    exec (.mLocate v) s = .next (faulted .valueRange (0x60000000 ||| v.setWidth 32) s)

/-- R93, R94, R100, R176: `M.OBSERVE sym` in `IDLE` counts the symbol, freezes or rescales at the
ceiling and answers `OK`; on a frozen model it answers `REJECTED` and the table is unchanged. -/
def Obligations.MObserveCounts : Prop :=
  ∀ (s : State) (x : BitVec 9), s.mode = .idle → s.cum.length = 258 → x.toNat ≤ 256 →
    exec (.mObserve x) s = .next { s with
      cum := (observedModel x.toNat s).1, frozen := (observedModel x.toNat s).2
      rsp := s.rsp ++ [⟨if s.frozen then .rejected else .ok, 0, 0, 0, 0, 0⟩] }

/-- R96, R101: `M.TOTAL` answers the live total under both policies. -/
def Obligations.MTotalAnswersLiveTotal : Prop :=
  ∀ s : State, s.mode ≠ .fault →
    exec .mTotal s = .next { s with rsp := s.rsp ++ [⟨.ok, 0, 0, 0, cumAt s.cum 257, 0⟩] }

/-- R104: `Locate` is the exact inverse of `Prob`, and every symbol owns a count. -/
def Obligations.LocateInvertsProb : Prop :=
  ∀ (p : Params) (m : Memory) (frozen : Bool), TableInv p m frozen → ∀ k, k ≤ 256 →
    (∀ v, cumAt m k ≤ v → v < cumAt m (k + 1) → locate v m = prob k m)
    ∧ ∃ v, v < cumAt m 257 ∧ locate v m = prob k m

/-- R94: after `Rescale` every frequency is the old one halved, rounding up, so that none becomes 0, and
the table starts at 0. That a total which was at most the ceiling is below it is the spec's own
inference: R94 marks it as derived from R7 (b). -/
def Obligations.RescaleHalvesFrequencies : Prop :=
  ∀ (p : Params) (m : Memory), p.valid = true → m.length = 258 →
    (∀ s, s ≤ 256 → cumAt m s < cumAt m (s + 1)) → cumAt m 0 = 0 → cumAt m 257 ≤ p.ceil →
    cumAt (rescale m) 0 = 0
    ∧ (∀ s, s ≤ 256 → cumAt (rescale m) (s + 1) - cumAt (rescale m) s
        = (cumAt m (s + 1) - cumAt m s + 1) / 2)
    ∧ (∀ s, s ≤ 256 → cumAt (rescale m) s < cumAt (rescale m) (s + 1))
    ∧ cumAt (rescale m) 257 < p.ceil

/-- R103, the spec's own inference from R93 to R95: `ModelInit` establishes the table invariants,
`Observe` keeps them, a rejected `Observe` changes nothing, and the commands that only read the table
write nothing of it. -/
def Obligations.TableInvariantKept : Prop :=
  ∀ s : State, s.params.valid = true →
    TableInv s.params (modelInit s).cum (modelInit s).frozen
    ∧ (TableInv s.params s.cum s.frozen → ∀ sym, sym ≤ 256 →
        TableInv s.params (observe sym s).2.cum (observe sym s).2.frozen
        ∧ ((observe sym s).1 = false ↔ s.frozen = true)
        ∧ (s.frozen = true → (observe sym s).2 = s))
    ∧ ∀ (i : Instr) (t : State), writesTable i = false → exec i s = .next t →
        t.cum = s.cum ∧ t.frozen = s.frozen

/-! ## The coder datapath -/

/-- R115: `Shl` doubles, drops bit `CODE_BITS`, and inserts the bit. -/
def Obligations.ShlShiftsOneBit : Prop :=
  ∀ (p : Params) (x : Nat) (b : Bit), 1 ≤ p.codeBits → x ≤ p.maxCode →
    shl p x b = 2 * x % 2 ^ p.codeBits + (if b then 1 else 0)

/-- R111: where its `requires` line holds, `Narrow` sets both bounds from the old ones. By the spec's
own inference there (from R110) the result stays inside the old interval, is never empty, and keeps
the end that the top or the bottom symbol touches. -/
def Obligations.NarrowStaysInside : Prop :=
  ∀ (s : State) (k sl sh t : Nat),
    sl < sh → sh ≤ t → t ≤ s.params.ceil → s.low ≤ s.high → t ≤ s.high - s.low + 1 →
    ∃ nl nh, nl = s.low + (s.high - s.low + 1) * sl / t
      ∧ nh = s.low + (s.high - s.low + 1) * sh / t - 1
      ∧ narrow ⟨k, sl, sh, t⟩ s = .ok () { s with low := nl, high := nh }
      ∧ s.low ≤ nl ∧ nl ≤ nh ∧ nh ≤ s.high
      ∧ (sh = t → nh = s.high) ∧ (sl = 0 → nl = s.low)

/-- R113 (with R170, R179): with a sink that takes `1 + PENDING` bits, `EmitWithFollow(b)` emits the bit
and then `PENDING` inverted bits, and clears `PENDING`; where the sink answers `bo_err = 1` on the transaction
after `n` accepted ones, `n` at most `PENDING`, it raises `IOFailure` there, `PENDING` not cleared. -/
def Obligations.EmitWithFollowRules : Prop :=
  ∀ (s : State) (b : Bit),
    (SinkTakes s (1 + s.pending) → emitWithFollow b s = .ok () { s with
      bo := s.bo ++ sentBits (b :: List.replicate s.pending (!b))
      boErr := s.boErr.drop (1 + s.pending)
      pending := 0 })
    ∧ ∀ (n : Nat) (later : List Bool), n ≤ s.pending →
      s.boErr = List.replicate n false ++ true :: later →
      ∃ last, last = (if n = 0 then b else !b)
        ∧ emitWithFollow b s = .raised .ioFailure { s with
            bo := s.bo ++ sentBits ((b :: List.replicate s.pending (!b)).take n) ++ [⟨.bit last, true⟩]
            boErr := later }

/-- R114: the three answers of the source, and the reads past its end. -/
def Obligations.GetBitRules : Prop :=
  ∀ (s : State) (rest : List BiAnswer),
    (s.bi = .err :: rest → getBit s = .raised .ioFailure { s with bi := rest })
    ∧ (∀ b, s.bi = .bit b :: rest → getBit s = .ok b { s with bi := rest })
    ∧ (s.bi = [] → s.overrun = s.params.codeBits - 2 → getBit s = .raised .streamExhausted s)
    ∧ (s.bi = [] → s.overrun ≠ s.params.codeBits - 2 →
        getBit s = .ok false { s with overrun := s.overrun + 1 })

/-- R116, R118, R122: `RenormEnc` takes the cases in order, emits what they emit and ends where no case
applies, whenever the sink takes the bits of those iterations. That it ends within `CODE_BITS`
iterations, and the register widths after it (R24), are the spec's own inferences; so is that the
iterations always reach an interval where no case applies, or the E3 case with `PENDING` at its
maximum, and never the latter with room for `CODE_BITS` counts. -/
def Obligations.RenormEncFollowsCases : Prop :=
  ∀ s : State, s.params.valid = true → s.low ≤ s.high → s.high ≤ s.params.maxCode →
    (∀ (l h q : Nat) (bits : List Bit),
      EncTrace s.params s.low s.high s.pending bits l h q → SinkTakes s bits.length →
      l ≤ h ∧ h ≤ s.params.maxCode
      ∧ renormEnc s.params.codeBits s = .ok () { s with
          low := l, high := h, pending := q
          bo := s.bo ++ sentBits bits, boErr := s.boErr.drop bits.length })
    ∧ (∃ (l h q : Nat) (bits : List Bit),
      EncSteps s.params s.low s.high s.pending bits l h q
      ∧ (Settled s.params l h ∨ (q = s.params.pendMax ∧ Underflow s.params l h)))
    ∧ (s.pending + s.params.codeBits ≤ s.params.pendMax →
      ∃ (l h q : Nat) (bits : List Bit), EncTrace s.params s.low s.high s.pending bits l h q)

/-- R117, R118: `RenormDec` from an interval that holds `VALUE` takes the cases in order with one bit
fetched per iteration and ends where no case applies, whenever the source gives the bits of those
iterations. That it ends within `CODE_BITS` iterations, R119 and R120 (the interval still holds
`VALUE`) are the spec's own inferences; so is that the iterations always reach an interval where no
case applies, or a fetch that raises, and never the latter on a sound source that has enough bits. -/
def Obligations.RenormDecFollowsCases : Prop :=
  ∀ s : State, s.params.valid = true → s.low ≤ s.value → s.value ≤ s.high →
    s.high ≤ s.params.maxCode →
    (∀ (l h v : Nat) (bits : List Bit),
      DecTrace s.params s.low s.high s.value bits l h v → SourceGives s bits →
      l ≤ v ∧ v ≤ h ∧ h ≤ s.params.maxCode
      ∧ renormDec s.params.codeBits s
          = .ok () { afterFetched bits.length s with low := l, high := h, value := v })
    ∧ (s.overrun ≤ s.params.overrunMax →
      ∃ (l h v : Nat) (bits : List Bit),
        DecSteps s.params s.low s.high s.value bits l h v ∧ SourceGives s bits
        ∧ (Settled s.params l h ∨ SourceRaises s bits.length))
    ∧ (SourceSound s →
      s.params.codeBits + s.overrun ≤ s.bi.length + s.params.overrunMax →
      ∃ (l h v : Nat) (bits : List Bit),
        DecTrace s.params s.low s.high s.value bits l h v ∧ SourceGives s bits)

/-- R119, the spec's own inference from R116 to R118 and R7 (a): where no case applies the range is
at least `ONE_FOURTH + 2`, and in a valid instance that is above every total the table can have. -/
def Obligations.SettledRangeExceedsTotal : Prop :=
  ∀ (p : Params) (l h : Nat), p.valid = true → Settled p l h →
    2 ^ (p.codeBits - 2) + 2 ≤ h - l + 1 ∧ 2 ^ p.freqBits - 1 < h - l + 1

/-- R121: the formula of `Scale`. By the spec's own inferences (R120 and R121), while the interval
holds `VALUE` it gives a count below the total, and the symbol that owns that count has a
sub-interval that holds `VALUE`. -/
def Obligations.ScaleFindsTheSymbol : Prop :=
  ∀ s : State, TableInv s.params s.cum s.frozen → s.low ≤ s.value → s.value ≤ s.high →
    scale s = .ok (scaledValue s) s ∧ scaledValue s < cumAt s.cum 257
    ∧ ∀ k, k ≤ 256 → cumAt s.cum k ≤ scaledValue s → scaledValue s < cumAt s.cum (k + 1) →
        narrowedLow s k ≤ s.value ∧ s.value ≤ narrowedHigh s k

/-- R122, R175: where `PENDING` is at its maximum, `E.FINISH` and the E3 case raise `PendingOverflow`
before anything changes. In `E.SYM` (with R166, R179) that fault comes after completed iterations and
records the command word: the symbol is counted, the interval is the one they leave, and the bits
they emitted stay emitted. -/
def Obligations.PendingOverflowFaults : Prop :=
  (∀ s : State, s.mode = .enc ∨ s.mode = .encEos → s.pending = 2 ^ s.params.pendBits - 1 →
    exec .eFinish s = .next (faulted .pendingOverflow 0xB0000000 s))
  ∧ (∀ s : State, s.pending = 2 ^ s.params.pendBits - 1 → 1 ≤ s.params.codeBits →
    s.params.oneFourth ≤ s.low → s.low < s.params.half → s.params.half ≤ s.high →
    s.high < s.params.threeFourths →
    renormEnc s.params.codeBits s = .raised .pendingOverflow s)
  ∧ ∀ (s : State) (x : BitVec 9) (l h : Nat) (bits : List Bit), Invariant s → s.mode = .enc →
    x.toNat ≤ 256 →
    EncSteps s.params (narrowedLow s x.toNat) (narrowedHigh s x.toNat) s.pending bits l h
      (2 ^ s.params.pendBits - 1) →
    Underflow s.params l h → SinkTakes s bits.length →
    exec (.eSym x) s = .next (faulted .pendingOverflow (0xA0000000 ||| x.setWidth 32)
      (encodedSteps x.toNat l h (2 ^ s.params.pendBits - 1) bits s))

/-! ## The encode commands -/

/-- R130: `E.INIT` in `IDLE` opens an encode session and emits nothing. -/
def Obligations.EInitOpensSession : Prop :=
  ∀ s : State, s.mode = .idle →
    exec .eInit s = .next { s with
      low := 0, high := 2 ^ s.params.codeBits - 1, pending := 0, value := 0, overrun := 0
      cum := List.range' 0 258, frozen := false, mode := .enc
      rsp := s.rsp ++ [⟨.ok, 0, 0, 0, 0, 0⟩] }

/-- R131 (with R93, R111, R113, R116): `E.SYM sym` in `ENC` narrows by the bounds from before the
update, counts the symbol, renormalises to where no case applies, and after 256 leaves only
termination; it completes whenever the sink takes the bits, and nothing else changes. A sink that
accepts and room in `PENDING` for `CODE_BITS` counts are always enough. That a port transaction
completes at once is the model's choice (log 11). -/
def Obligations.ESymEncodesSymbol : Prop :=
  ∀ (s : State) (x : BitVec 9), Invariant s → s.mode = .enc → x.toNat ≤ 256 →
    (∀ (l h q : Nat) (bits : List Bit),
      EncTrace s.params (narrowedLow s x.toNat) (narrowedHigh s x.toNat) s.pending bits l h q →
      SinkTakes s bits.length →
      exec (.eSym x) s = .next { encodedSteps x.toNat l h q bits s with
        mode := if x.toNat = 256 then .encEos else .enc
        rsp := s.rsp ++ [⟨.ok, 0, 0, 0, 0, 0⟩] })
    ∧ (SinkAccepts s → s.pending + s.params.codeBits ≤ s.params.pendMax →
      ∃ (l h q : Nat) (bits : List Bit) (t : State),
        EncTrace s.params (narrowedLow s x.toNat) (narrowedHigh s x.toNat) s.pending bits l h q
        ∧ exec (.eSym x) s = .next t)

/-- R132: `E.FINISH` in `ENC` or `ENC_EOS` emits 0 and `PENDING + 1` ones where `LOW < ONE_FOURTH`,
else 1 and `PENDING + 1` zeros, flushes, and closes the session; nothing else changes. That a port
transaction completes at once is the model's choice (log 11). -/
def Obligations.EFinishTerminates : Prop :=
  ∀ s : State, s.mode = .enc ∨ s.mode = .encEos → s.pending ≠ 2 ^ s.params.pendBits - 1 →
    SinkTakes s (s.pending + 3) →
    ∃ b : Bit, (b = false ↔ s.low < 2 ^ (s.params.codeBits - 2))
      ∧ exec .eFinish s = .next { s with
          pending := 0, mode := .idle
          bo := s.bo ++ sentBits (b :: List.replicate (s.pending + 1) (!b)) ++ [⟨.flush, false⟩]
          boErr := s.boErr.drop (s.pending + 3)
          rsp := s.rsp ++ [⟨.ok, 0, 0, 0, 0, 0⟩] }

/-- R170, R179 (with R113, R116): after completed iterations that emitted `bits`, the next case is E1 or
E2 and must emit `b` and then `PENDING` inverted bits. Where the sink takes `bits` and the first `m`
of those, and answers `bo_err = 1` on the next, `E.SYM` raises `IOFailure` with its word: the interval
and `PENDING` are those of the completed iterations, the symbol is counted, the bits before the failed
one stay emitted. -/
def Obligations.ESymFailsPrecisely : Prop :=
  ∀ (s : State) (x : BitVec 9) (l h q m : Nat) (b : Bit) (bits : List Bit) (later : List Bool),
    Invariant s → s.mode = .enc → x.toNat ≤ 256 →
    EncSteps s.params (narrowedLow s x.toNat) (narrowedHigh s x.toNat) s.pending bits l h q →
    (b = false ∧ h < s.params.half) ∨ (b = true ∧ s.params.half ≤ l) → m ≤ q →
    s.boErr = List.replicate (bits.length + m) false ++ true :: later →
    exec (.eSym x) s = .next (faulted .ioFailure (0xA0000000 ||| x.setWidth 32)
      { encodedSteps x.toNat l h q bits s with
        bo := s.bo ++ sentBits (bits ++ (b :: List.replicate q (!b)).take m)
          ++ [⟨.bit (if m = 0 then b else !b), true⟩]
        boErr := later })

/-- R132, R170, R179: where the sink accepts the termination bits and answers `bo_err = 1` on the
flush, `E.FINISH` raises `IOFailure` with its word: the bits stay emitted and `PENDING` is cleared.
Where it answers `bo_err = 1` on a termination bit, after `m` accepted ones, the fault is raised there
and `PENDING` stays incremented. -/
def Obligations.EFinishFlushFails : Prop :=
  ∀ (s : State) (later : List Bool), s.mode = .enc ∨ s.mode = .encEos →
    s.pending ≠ 2 ^ s.params.pendBits - 1 →
    ∃ b : Bit, (b = false ↔ s.low < 2 ^ (s.params.codeBits - 2))
      ∧ (s.boErr = List.replicate (s.pending + 2) false ++ true :: later →
        exec .eFinish s = .next (faulted .ioFailure 0xB0000000 { s with
          pending := 0
          bo := s.bo ++ sentBits (b :: List.replicate (s.pending + 1) (!b)) ++ [⟨.flush, true⟩]
          boErr := later }))
      ∧ ∀ m, m ≤ s.pending + 1 → s.boErr = List.replicate m false ++ true :: later →
        exec .eFinish s = .next (faulted .ioFailure 0xB0000000 { s with
          pending := s.pending + 1
          bo := s.bo ++ sentBits ((b :: List.replicate (s.pending + 1) (!b)).take m)
            ++ [⟨.bit (if m = 0 then b else !b), true⟩]
          boErr := later })

/-! ## The decode commands -/

/-- R140: `D.INIT` in `IDLE` opens a decode session and reads `CODE_BITS` bits into `VALUE`, most
significant first, zeros past the end counted in `OVERRUN`; a source of at least 2 answers, none of
the first `CODE_BITS` of them `bi_err`, is enough for it to complete. That a port transaction
completes at once is the model's choice (log 11). -/
def Obligations.DInitPrimesValue : Prop :=
  ∀ s : State, s.mode = .idle → (∀ a ∈ s.bi.take s.params.codeBits, a ≠ .err) →
    2 ≤ s.bi.length →
    exec .dInit s = .next { s with
      low := 0, high := 2 ^ s.params.codeBits - 1, pending := 0
      overrun := s.params.codeBits - s.bi.length
      value := bitsToNat (sourceBits s.params.codeBits s)
      bi := s.bi.drop s.params.codeBits
      cum := List.range' 0 258, frozen := false, mode := .dec
      rsp := s.rsp ++ [⟨.ok, 0, 0, 0, 0, 0⟩] }

/-- R140, R168, R179: `D.INIT` on a sound source of fewer than 2 bits raises `StreamExhausted`, with
`OVERRUN` at its maximum and the bits shifted in so far in `VALUE`. -/
def Obligations.DInitStreamExhausted : Prop :=
  ∀ s : State, s.mode = .idle → s.params.valid = true → SourceSound s → s.bi.length < 2 →
    exec .dInit s = .next (faulted .streamExhausted 0xC0000000 { s with
      low := 0, high := 2 ^ s.params.codeBits - 1, pending := 0
      overrun := s.params.codeBits - 2
      value := bitsToNat (sourceBits (s.bi.length + (s.params.codeBits - 2)) s)
      bi := [], cum := List.range' 0 258, frozen := false })

/-- R141 (steps a to c): where the located symbol is `EOS`, `D.SYM` answers `EOS` and only `MODE`
changes. -/
def Obligations.DSymMeetsEos : Prop :=
  ∀ s : State, Invariant s → s.mode = .dec → cumAt s.cum 256 ≤ scaledValue s →
    exec .dSym s = .next { s with
      mode := .decEos, rsp := s.rsp ++ [⟨.eos, 256, 0, 0, 0, 0⟩] }

/-- R141 (steps a to f, with R93, R111, R117): where the located symbol is a byte, `D.SYM` counts it,
narrows by the captured bounds, renormalises with fetched bits to where no case applies and answers
the byte; it completes whenever the source gives those bits, zeros past its end included (R114), and
nothing else changes. A sound source that has enough bits always does. That a port transaction
completes at once is the model's choice (log 11). -/
def Obligations.DSymDecodesByte : Prop :=
  ∀ (s : State) (k : Nat), Invariant s → s.mode = .dec → k ≤ 255 →
    cumAt s.cum k ≤ scaledValue s → scaledValue s < cumAt s.cum (k + 1) →
    (∀ (l h v : Nat) (bits : List Bit),
      DecTrace s.params (narrowedLow s k) (narrowedHigh s k) s.value bits l h v →
      SourceGives s bits →
      exec .dSym s = .next { decodedSteps k l h v bits.length s with
        rsp := s.rsp ++ [⟨.ok, k, 0, 0, 0, 0⟩] })
    ∧ (SourceSound s → s.params.codeBits + s.overrun ≤ s.bi.length + s.params.overrunMax →
      ∃ (l h v : Nat) (bits : List Bit) (t : State),
        DecTrace s.params (narrowedLow s k) (narrowedHigh s k) s.value bits l h v
        ∧ SourceGives s bits ∧ exec .dSym s = .next t)

/-- R140, R170, R179: where the source answers `bi_err = 1` after `n` bits, `n` below `CODE_BITS`,
`D.INIT` raises `IOFailure` with its word and keeps the bits shifted in so far in `VALUE`. -/
def Obligations.DInitFailsPrecisely : Prop :=
  ∀ (s : State) (bits : List Bit) (later : List BiAnswer), s.mode = .idle →
    s.params.valid = true → bits.length < s.params.codeBits →
    s.bi = bits.map .bit ++ .err :: later →
    exec .dInit s = .next (faulted .ioFailure 0xC0000000 { s with
      low := 0, high := 2 ^ s.params.codeBits - 1, pending := 0, overrun := 0
      value := bitsToNat bits, bi := later, cum := List.range' 0 258, frozen := false })

/-- R141, R117, R168, R170, R179: where the located symbol is a byte and, after completed iterations
that fetched `bits`, a case still applies, a bit fetch that raises (`bi_err`, or the end with `OVERRUN`
at its maximum) makes `D.SYM` raise that fault with its word: the symbol is counted, the registers are
those of the completed iterations, and the byte is not delivered. -/
def Obligations.DSymFailsPrecisely : Prop :=
  ∀ (s : State) (k l h v : Nat) (bits : List Bit), Invariant s → s.mode = .dec → k ≤ 255 →
    cumAt s.cum k ≤ scaledValue s → scaledValue s < cumAt s.cum (k + 1) →
    DecSteps s.params (narrowedLow s k) (narrowedHigh s k) s.value bits l h v →
    SourceGives s bits → ¬ Settled s.params l h →
    (s.bi.length ≤ bits.length →
      s.overrun + (bits.length - s.bi.length) = s.params.overrunMax →
      exec .dSym s = .next (faulted .streamExhausted 0xD0000000
        (decodedSteps k l h v bits.length s)))
    ∧ ∀ later, s.bi.drop bits.length = .err :: later →
      exec .dSym s = .next (faulted .ioFailure 0xD0000000
        { decodedSteps k l h v bits.length s with bi := later })

/-- R142: `D.END` in `DEC` or `DEC_EOS` closes the session and changes nothing else. -/
def Obligations.DEndCloses : Prop :=
  ∀ s : State, s.mode = .dec ∨ s.mode = .decEos →
    exec .dEnd s = .next { s with mode := .idle, rsp := s.rsp ++ [⟨.ok, 0, 0, 0, 0, 0⟩] }

/-- R123, one symbol: an encoder and a decoder with the same parameters, table and interval, the
decoder's `VALUE` in the sub-interval of the symbol that the encoder encodes. Where the encoder's loop
ends and its sink takes the bits, the decoder decodes that symbol: `EOS` with no bit fetched; a byte
whenever its source gives the bits of its own loop, and then the two are left with the same table and
interval. -/
def Obligations.DecodeReplaysEncode : Prop :=
  ∀ (e d : State) (x : BitVec 9) (l h q : Nat) (out : List Bit),
    Invariant e → Invariant d → e.mode = .enc → d.mode = .dec →
    x.toNat ≤ 256 → e.params = d.params → e.cum = d.cum → e.frozen = d.frozen →
    e.low = d.low → e.high = d.high →
    narrowedLow e x.toNat ≤ d.value → d.value ≤ narrowedHigh e x.toNat →
    EncTrace e.params (narrowedLow e x.toNat) (narrowedHigh e x.toNat) e.pending out l h q →
    SinkTakes e out.length →
    ∃ e' : State, exec (.eSym x) e = .next e'
      ∧ (x.toNat = 256 → ∃ d', exec .dSym d = .next d'
          ∧ d'.mode = .decEos ∧ d'.rsp = d.rsp ++ [⟨.eos, 256, 0, 0, 0, 0⟩])
      ∧ (x.toNat ≤ 255 → ∀ (l' h' v : Nat) (bits : List Bit),
          DecTrace d.params (narrowedLow d x.toNat) (narrowedHigh d x.toNat) d.value bits l' h' v →
          SourceGives d bits →
          ∃ d', exec .dSym d = .next d'
            ∧ d'.mode = .dec ∧ d'.rsp = d.rsp ++ [⟨.ok, x.toNat, 0, 0, 0, 0⟩]
            ∧ e'.cum = d'.cum ∧ e'.frozen = d'.frozen ∧ e'.low = d'.low ∧ e'.high = d'.high)

/-- R123, R133, R143, R114 (the source's round trip, T1): the stream that the canonical encode procedure
emits for any bytes, followed by any bits at all, decodes to those bytes and then `EOS`, without a
fault. The two instances agree on `CODE_BITS`, `FREQ_BITS` and `POLICY` (R194). The run meets `EOS`, so
what `decodeStream` chooses where it does not (log 17) is not reached. -/
def Obligations.DecodeOfEncodedStream : Prop :=
  ∀ (e e' d : State) (bytes : List Byte) (extra : List Bit),
    e.params.valid = true → d.params.valid = true → d.params.codeBits = e.params.codeBits →
    d.params.freqBits = e.params.freqBits → d.params.policy = e.params.policy →
    e.mode = .idle → d.mode = .idle → SinkAccepts e → e.bo = [] →
    issue (expand (.encode bytes)) e = .next e' → e'.mode = .idle →
    d.bi = (streamBits e'.bo ++ extra).map BiAnswer.bit →
    ∃ d' : State, decodeStream (bytes.length + 1) d = .next d' ∧ d'.mode = .idle
      ∧ d'.rsp = d.rsp ++ [⟨.ok, 0, 0, 0, 0, 0⟩]
          ++ bytes.map (fun b => ⟨.ok, b.toNat, 0, 0, 0, 0⟩)
          ++ [⟨.eos, 256, 0, 0, 0, 0⟩, ⟨.ok, 0, 0, 0, 0, 0⟩]

/-! ## The streams -/

/-- R54, R55: a flush pads with at most 7 zero bits to whole bytes, the `k`-th bit of the stream is
bit `7 - (k mod 8)` of byte `k / 8`, and a source that holds those bytes gives the padded bits back. -/
def Obligations.BytesCarryTheStream : Prop :=
  ∀ bits : List Bit,
    (∃ n, n ≤ 7 ∧ padded bits = bits ++ List.replicate n false ∧ (bits.length + n) % 8 = 0)
    ∧ 8 * (packBytes (padded bits)).length = (padded bits).length
    ∧ (∀ k, k < (padded bits).length →
        ((packBytes (padded bits)).getD (k / 8) 0).getLsbD (7 - k % 8) = (padded bits).getD k false)
    ∧ sourceOfBytes (packBytes (padded bits)) = (padded bits).map BiAnswer.bit

/-- R80, R133: the host's canonical encode procedure, and the other fixed pseudo-commands, are these
command words. -/
def Obligations.PseudoCommandWords : Prop :=
  ∀ (b : Byte) (bytes : List Byte) (n : Nat),
    (expand (.eByte b)).map encode = [0xA0000000 ||| b.setWidth 32]
    ∧ (expand .eEos).map encode = [0xA0000100]
    ∧ (expand (.encode bytes)).map encode
        = [0x90000000] ++ bytes.map (fun c => 0xA0000000 ||| c.setWidth 32) ++ [0xA0000100, 0xB0000000]
    ∧ (expand (.decodeCount n)).map encode
        = [0xC0000000] ++ List.replicate n 0xD0000000 ++ [0xE0000000]

/-! ## The whole machine -/

/-- R74: in a state that meets the invariant every response's fields fit: a symbol 0 to 256, table
words of `FREQ_BITS` bits, data of `XLEN` bits; and a `FAULT` response has every other field zero. -/
def Obligations.ResponseFieldsFit : Prop :=
  ∀ (i : Instr) (s t : State) (r : Response), Invariant s → exec i s = .next t → t.rsp = s.rsp ++ [r] →
    r.sym ≤ 256 ∧ r.lo < 2 ^ s.params.freqBits ∧ r.hi < 2 ^ s.params.freqBits
    ∧ r.total < 2 ^ s.params.freqBits ∧ r.data < 2 ^ s.params.xlen
    ∧ (r.status = .fault → r = ⟨.fault, 0, 0, 0, 0, 0⟩)

/-- R22, R25 to R27, R29, R169, with R24's, R103's and R119's inferences, at reset: the invariant
holds right after reset, for every parameter set. -/
def Obligations.InvariantAtReset : Prop :=
  Invariant State.reset ∧ ∀ p : Params, Invariant (State.ofParams p)

/-- R22, R25 to R27, R29, R169, with R24's, R103's, R119's and R120's inferences: every step,
whatever the host does, keeps the invariant of the whole state. -/
def Obligations.EveryStepKeepsInvariant : Prop :=
  ∀ s t : State, Invariant s → step s = .next t → Invariant t

/-- By the inferences of R110, R111, R116, R119, R120 and R121: from every state that meets the
invariant a step answers a next state. No requirement of a rule ever fails and no command is without
a meaning. That a port transaction completes at once, so that a command never waits for its sink or
its source, is the model's choice, under the fairness that R13 assumes (log 11); so is that a step
with no host event pending is a next state (log 2). -/
def Obligations.EveryStepCompletes : Prop :=
  ∀ s : State, Invariant s → ∃ t, step s = .next t
end

