-- ==== Sys2Proof/Laws/Params.lean ====
section
/-! SUPPORT. The derived constants of a valid parameter set, related by plain arithmetic (R7, R10). -/

namespace Sys2Proof

/-- The five constraints as hypotheses for arithmetic (R7). -/
theorem Params.valid_iff (p : Params) : p.valid = true ↔
    p.freqBits + 2 ≤ p.codeBits ∧ 9 ≤ p.freqBits ∧ p.freqBits ≤ 28 ∧ p.codeBits ≤ 255
      ∧ 1 ≤ p.pendBits ∧ p.pendBits ≤ 255 := by
  simp [Params.valid, and_assoc]

theorem Params.half_eq (p : Params) (h : 2 ≤ p.codeBits) : p.half = 2 * p.oneFourth := by
  obtain ⟨n, hn⟩ := Nat.exists_eq_add_of_le h
  simp only [Params.half, Params.oneFourth, hn, show 2 + n - 1 = n + 1 by omega,
    show 2 + n - 2 = n by omega]
  ring

theorem Params.threeFourths_eq (p : Params) : p.threeFourths = 3 * p.oneFourth := rfl

theorem Params.two_pow_codeBits (p : Params) (h : 2 ≤ p.codeBits) :
    2 ^ p.codeBits = 4 * p.oneFourth := by
  obtain ⟨n, hn⟩ := Nat.exists_eq_add_of_le h
  simp only [Params.oneFourth, hn, show 2 + n - 2 = n by omega]
  ring

theorem Params.maxCode_eq (p : Params) (h : 2 ≤ p.codeBits) : p.maxCode + 1 = 4 * p.oneFourth := by
  have := p.two_pow_codeBits h
  have : 0 < 2 ^ p.codeBits := by positivity
  simp only [Params.maxCode]; omega

theorem Params.oneFourth_pos (p : Params) : 0 < p.oneFourth := by
  simp [Params.oneFourth]

/-- Two bits of headroom put the ceiling below `ONE_FOURTH` (R7 (a), R119). -/
theorem Params.ceil_lt_oneFourth (p : Params) (h : p.valid = true) : p.ceil < p.oneFourth := by
  have hv := p.valid_iff.mp h
  have : 2 ^ p.freqBits ≤ 2 ^ (p.codeBits - 2) := Nat.pow_le_pow_right (by norm_num) (by omega)
  have : 0 < 2 ^ p.freqBits := by positivity
  simp only [Params.ceil, Params.oneFourth]; omega

/-- A fresh table is below the ceiling (R7 (b), R103). -/
theorem Params.ceil_ge (p : Params) (h : p.valid = true) : 511 ≤ p.ceil := by
  have hv := p.valid_iff.mp h
  have : 2 ^ 9 ≤ 2 ^ p.freqBits := Nat.pow_le_pow_right (by norm_num) hv.2.1
  simp only [Params.ceil]; omega

theorem Params.codeBits_ge (p : Params) (h : p.valid = true) : 11 ≤ p.codeBits := by
  have := p.valid_iff.mp h; omega

end Sys2Proof
end

