-- ==== Sys2Proof/Laws/State.lean ====
section
/-! SUPPORT. Beside State: what each shared update makes of each field, one lemma per field, so that no proof unfolds a record update. -/

namespace Sys2Proof.Machine

@[simp] theorem respond_params (r : Response) (s : State) : (respond r s).params = s.params := rfl
@[simp] theorem respond_cum (r : Response) (s : State) : (respond r s).cum = s.cum := rfl
@[simp] theorem respond_frozen (r : Response) (s : State) : (respond r s).frozen = s.frozen := rfl
@[simp] theorem respond_low (r : Response) (s : State) : (respond r s).low = s.low := rfl
@[simp] theorem respond_high (r : Response) (s : State) : (respond r s).high = s.high := rfl
@[simp] theorem respond_pending (r : Response) (s : State) : (respond r s).pending = s.pending := rfl
@[simp] theorem respond_value (r : Response) (s : State) : (respond r s).value = s.value := rfl
@[simp] theorem respond_overrun (r : Response) (s : State) : (respond r s).overrun = s.overrun := rfl
@[simp] theorem respond_mode (r : Response) (s : State) : (respond r s).mode = s.mode := rfl
@[simp] theorem respond_faultCode (r : Response) (s : State) : (respond r s).faultCode = s.faultCode := rfl
@[simp] theorem respond_faultInfo (r : Response) (s : State) : (respond r s).faultInfo = s.faultInfo := rfl
@[simp] theorem respond_cmd (r : Response) (s : State) : (respond r s).cmd = s.cmd := rfl
@[simp] theorem respond_rsp (r : Response) (s : State) : (respond r s).rsp = s.rsp ++ [r] := rfl
@[simp] theorem respond_bo (r : Response) (s : State) : (respond r s).bo = s.bo := rfl
@[simp] theorem respond_boErr (r : Response) (s : State) : (respond r s).boErr = s.boErr := rfl
@[simp] theorem respond_bi (r : Response) (s : State) : (respond r s).bi = s.bi := rfl

@[simp] theorem takeFault_params (c : FaultCode) (w : Word) (s : State) : (takeFault c w s).params = s.params := rfl
@[simp] theorem takeFault_cum (c : FaultCode) (w : Word) (s : State) : (takeFault c w s).cum = s.cum := rfl
@[simp] theorem takeFault_frozen (c : FaultCode) (w : Word) (s : State) : (takeFault c w s).frozen = s.frozen := rfl
@[simp] theorem takeFault_low (c : FaultCode) (w : Word) (s : State) : (takeFault c w s).low = s.low := rfl
@[simp] theorem takeFault_high (c : FaultCode) (w : Word) (s : State) : (takeFault c w s).high = s.high := rfl
@[simp] theorem takeFault_pending (c : FaultCode) (w : Word) (s : State) : (takeFault c w s).pending = s.pending := rfl
@[simp] theorem takeFault_value (c : FaultCode) (w : Word) (s : State) : (takeFault c w s).value = s.value := rfl
@[simp] theorem takeFault_overrun (c : FaultCode) (w : Word) (s : State) : (takeFault c w s).overrun = s.overrun := rfl
@[simp] theorem takeFault_mode (c : FaultCode) (w : Word) (s : State) : (takeFault c w s).mode = .fault := rfl
@[simp] theorem takeFault_faultCode (c : FaultCode) (w : Word) (s : State) : (takeFault c w s).faultCode = c := rfl
@[simp] theorem takeFault_faultInfo (c : FaultCode) (w : Word) (s : State) : (takeFault c w s).faultInfo = w := rfl
@[simp] theorem takeFault_cmd (c : FaultCode) (w : Word) (s : State) : (takeFault c w s).cmd = s.cmd := rfl
@[simp] theorem takeFault_rsp (c : FaultCode) (w : Word) (s : State) : (takeFault c w s).rsp = s.rsp ++ [⟨.fault, 0, 0, 0, 0, 0⟩] := rfl
@[simp] theorem takeFault_bo (c : FaultCode) (w : Word) (s : State) : (takeFault c w s).bo = s.bo := rfl
@[simp] theorem takeFault_boErr (c : FaultCode) (w : Word) (s : State) : (takeFault c w s).boErr = s.boErr := rfl
@[simp] theorem takeFault_bi (c : FaultCode) (w : Word) (s : State) : (takeFault c w s).bi = s.bi := rfl

@[simp] theorem answerFaulted_params (s : State) : (answerFaulted s).params = s.params := rfl
@[simp] theorem answerFaulted_cum (s : State) : (answerFaulted s).cum = s.cum := rfl
@[simp] theorem answerFaulted_frozen (s : State) : (answerFaulted s).frozen = s.frozen := rfl
@[simp] theorem answerFaulted_low (s : State) : (answerFaulted s).low = s.low := rfl
@[simp] theorem answerFaulted_high (s : State) : (answerFaulted s).high = s.high := rfl
@[simp] theorem answerFaulted_pending (s : State) : (answerFaulted s).pending = s.pending := rfl
@[simp] theorem answerFaulted_value (s : State) : (answerFaulted s).value = s.value := rfl
@[simp] theorem answerFaulted_overrun (s : State) : (answerFaulted s).overrun = s.overrun := rfl
@[simp] theorem answerFaulted_mode (s : State) : (answerFaulted s).mode = s.mode := rfl
@[simp] theorem answerFaulted_faultCode (s : State) : (answerFaulted s).faultCode = s.faultCode := rfl
@[simp] theorem answerFaulted_faultInfo (s : State) : (answerFaulted s).faultInfo = s.faultInfo := rfl
@[simp] theorem answerFaulted_cmd (s : State) : (answerFaulted s).cmd = s.cmd := rfl
@[simp] theorem answerFaulted_rsp (s : State) : (answerFaulted s).rsp = s.rsp ++ [⟨.fault, 0, 0, 0, 0, 0⟩] := rfl
@[simp] theorem answerFaulted_bo (s : State) : (answerFaulted s).bo = s.bo := rfl
@[simp] theorem answerFaulted_boErr (s : State) : (answerFaulted s).boErr = s.boErr := rfl
@[simp] theorem answerFaulted_bi (s : State) : (answerFaulted s).bi = s.bi := rfl

@[simp] theorem coreReset_params (s : State) : (coreReset s).params = s.params := rfl
@[simp] theorem coreReset_cum (s : State) : (coreReset s).cum = freshTable := rfl
@[simp] theorem coreReset_frozen (s : State) : (coreReset s).frozen = false := rfl
@[simp] theorem coreReset_low (s : State) : (coreReset s).low = 0 := rfl
@[simp] theorem coreReset_high (s : State) : (coreReset s).high = s.params.maxCode := rfl
@[simp] theorem coreReset_pending (s : State) : (coreReset s).pending = 0 := rfl
@[simp] theorem coreReset_value (s : State) : (coreReset s).value = 0 := rfl
@[simp] theorem coreReset_overrun (s : State) : (coreReset s).overrun = 0 := rfl
@[simp] theorem coreReset_mode (s : State) : (coreReset s).mode = if s.params.valid then .idle else .fault := rfl
@[simp] theorem coreReset_faultCode (s : State) : (coreReset s).faultCode = if s.params.valid then .none else .precisionViolation := rfl
@[simp] theorem coreReset_faultInfo (s : State) : (coreReset s).faultInfo = 0 := rfl
@[simp] theorem coreReset_cmd (s : State) : (coreReset s).cmd = s.cmd := rfl
@[simp] theorem coreReset_rsp (s : State) : (coreReset s).rsp = s.rsp := rfl
@[simp] theorem coreReset_bo (s : State) : (coreReset s).bo = s.bo := rfl
@[simp] theorem coreReset_boErr (s : State) : (coreReset s).boErr = s.boErr := rfl
@[simp] theorem coreReset_bi (s : State) : (coreReset s).bi = s.bi := rfl

@[simp] theorem modelInit_params (s : State) : (modelInit s).params = s.params := rfl
@[simp] theorem modelInit_cum (s : State) : (modelInit s).cum = freshTable := rfl
@[simp] theorem modelInit_frozen (s : State) : (modelInit s).frozen = false := rfl
@[simp] theorem modelInit_low (s : State) : (modelInit s).low = s.low := rfl
@[simp] theorem modelInit_high (s : State) : (modelInit s).high = s.high := rfl
@[simp] theorem modelInit_pending (s : State) : (modelInit s).pending = s.pending := rfl
@[simp] theorem modelInit_value (s : State) : (modelInit s).value = s.value := rfl
@[simp] theorem modelInit_overrun (s : State) : (modelInit s).overrun = s.overrun := rfl
@[simp] theorem modelInit_mode (s : State) : (modelInit s).mode = s.mode := rfl
@[simp] theorem modelInit_faultCode (s : State) : (modelInit s).faultCode = s.faultCode := rfl
@[simp] theorem modelInit_faultInfo (s : State) : (modelInit s).faultInfo = s.faultInfo := rfl
@[simp] theorem modelInit_cmd (s : State) : (modelInit s).cmd = s.cmd := rfl
@[simp] theorem modelInit_rsp (s : State) : (modelInit s).rsp = s.rsp := rfl
@[simp] theorem modelInit_bo (s : State) : (modelInit s).bo = s.bo := rfl
@[simp] theorem modelInit_boErr (s : State) : (modelInit s).boErr = s.boErr := rfl
@[simp] theorem modelInit_bi (s : State) : (modelInit s).bi = s.bi := rfl

@[simp] theorem openSession_params (s : State) : (openSession s).params = s.params := rfl
@[simp] theorem openSession_cum (s : State) : (openSession s).cum = freshTable := rfl
@[simp] theorem openSession_frozen (s : State) : (openSession s).frozen = false := rfl
@[simp] theorem openSession_low (s : State) : (openSession s).low = 0 := rfl
@[simp] theorem openSession_high (s : State) : (openSession s).high = s.params.maxCode := rfl
@[simp] theorem openSession_pending (s : State) : (openSession s).pending = 0 := rfl
@[simp] theorem openSession_value (s : State) : (openSession s).value = 0 := rfl
@[simp] theorem openSession_overrun (s : State) : (openSession s).overrun = 0 := rfl
@[simp] theorem openSession_mode (s : State) : (openSession s).mode = s.mode := rfl
@[simp] theorem openSession_faultCode (s : State) : (openSession s).faultCode = s.faultCode := rfl
@[simp] theorem openSession_faultInfo (s : State) : (openSession s).faultInfo = s.faultInfo := rfl
@[simp] theorem openSession_cmd (s : State) : (openSession s).cmd = s.cmd := rfl
@[simp] theorem openSession_rsp (s : State) : (openSession s).rsp = s.rsp := rfl
@[simp] theorem openSession_bo (s : State) : (openSession s).bo = s.bo := rfl
@[simp] theorem openSession_boErr (s : State) : (openSession s).boErr = s.boErr := rfl
@[simp] theorem openSession_bi (s : State) : (openSession s).bi = s.bi := rfl

@[simp] theorem shiftInterval_params (c : ECase) (s : State) : (shiftInterval c s).params = s.params := rfl
@[simp] theorem shiftInterval_cum (c : ECase) (s : State) : (shiftInterval c s).cum = s.cum := rfl
@[simp] theorem shiftInterval_frozen (c : ECase) (s : State) : (shiftInterval c s).frozen = s.frozen := rfl
@[simp] theorem shiftInterval_low (c : ECase) (s : State) : (shiftInterval c s).low = shl s.params (s.low - offset s.params c) false := rfl
@[simp] theorem shiftInterval_high (c : ECase) (s : State) : (shiftInterval c s).high = shl s.params (s.high - offset s.params c) true := rfl
@[simp] theorem shiftInterval_pending (c : ECase) (s : State) : (shiftInterval c s).pending = s.pending := rfl
@[simp] theorem shiftInterval_value (c : ECase) (s : State) : (shiftInterval c s).value = s.value := rfl
@[simp] theorem shiftInterval_overrun (c : ECase) (s : State) : (shiftInterval c s).overrun = s.overrun := rfl
@[simp] theorem shiftInterval_mode (c : ECase) (s : State) : (shiftInterval c s).mode = s.mode := rfl
@[simp] theorem shiftInterval_faultCode (c : ECase) (s : State) : (shiftInterval c s).faultCode = s.faultCode := rfl
@[simp] theorem shiftInterval_faultInfo (c : ECase) (s : State) : (shiftInterval c s).faultInfo = s.faultInfo := rfl
@[simp] theorem shiftInterval_cmd (c : ECase) (s : State) : (shiftInterval c s).cmd = s.cmd := rfl
@[simp] theorem shiftInterval_rsp (c : ECase) (s : State) : (shiftInterval c s).rsp = s.rsp := rfl
@[simp] theorem shiftInterval_bo (c : ECase) (s : State) : (shiftInterval c s).bo = s.bo := rfl
@[simp] theorem shiftInterval_boErr (c : ECase) (s : State) : (shiftInterval c s).boErr = s.boErr := rfl
@[simp] theorem shiftInterval_bi (c : ECase) (s : State) : (shiftInterval c s).bi = s.bi := rfl

@[simp] theorem shiftWindow_params (c : ECase) (b : Bit) (s : State) : (shiftWindow c b s).params = s.params := rfl
@[simp] theorem shiftWindow_cum (c : ECase) (b : Bit) (s : State) : (shiftWindow c b s).cum = s.cum := rfl
@[simp] theorem shiftWindow_frozen (c : ECase) (b : Bit) (s : State) : (shiftWindow c b s).frozen = s.frozen := rfl
@[simp] theorem shiftWindow_low (c : ECase) (b : Bit) (s : State) : (shiftWindow c b s).low = shl s.params (s.low - offset s.params c) false := rfl
@[simp] theorem shiftWindow_high (c : ECase) (b : Bit) (s : State) : (shiftWindow c b s).high = shl s.params (s.high - offset s.params c) true := rfl
@[simp] theorem shiftWindow_pending (c : ECase) (b : Bit) (s : State) : (shiftWindow c b s).pending = s.pending := rfl
@[simp] theorem shiftWindow_value (c : ECase) (b : Bit) (s : State) : (shiftWindow c b s).value = shl s.params (s.value - offset s.params c) b := rfl
@[simp] theorem shiftWindow_overrun (c : ECase) (b : Bit) (s : State) : (shiftWindow c b s).overrun = s.overrun := rfl
@[simp] theorem shiftWindow_mode (c : ECase) (b : Bit) (s : State) : (shiftWindow c b s).mode = s.mode := rfl
@[simp] theorem shiftWindow_faultCode (c : ECase) (b : Bit) (s : State) : (shiftWindow c b s).faultCode = s.faultCode := rfl
@[simp] theorem shiftWindow_faultInfo (c : ECase) (b : Bit) (s : State) : (shiftWindow c b s).faultInfo = s.faultInfo := rfl
@[simp] theorem shiftWindow_cmd (c : ECase) (b : Bit) (s : State) : (shiftWindow c b s).cmd = s.cmd := rfl
@[simp] theorem shiftWindow_rsp (c : ECase) (b : Bit) (s : State) : (shiftWindow c b s).rsp = s.rsp := rfl
@[simp] theorem shiftWindow_bo (c : ECase) (b : Bit) (s : State) : (shiftWindow c b s).bo = s.bo := rfl
@[simp] theorem shiftWindow_boErr (c : ECase) (b : Bit) (s : State) : (shiftWindow c b s).boErr = s.boErr := rfl
@[simp] theorem shiftWindow_bi (c : ECase) (b : Bit) (s : State) : (shiftWindow c b s).bi = s.bi := rfl

@[simp] theorem deliverWord_params (w : Word) (s : State) : (deliverWord w s).params = s.params := rfl
@[simp] theorem deliverWord_cum (w : Word) (s : State) : (deliverWord w s).cum = s.cum := rfl
@[simp] theorem deliverWord_frozen (w : Word) (s : State) : (deliverWord w s).frozen = s.frozen := rfl
@[simp] theorem deliverWord_low (w : Word) (s : State) : (deliverWord w s).low = s.low := rfl
@[simp] theorem deliverWord_high (w : Word) (s : State) : (deliverWord w s).high = s.high := rfl
@[simp] theorem deliverWord_pending (w : Word) (s : State) : (deliverWord w s).pending = s.pending := rfl
@[simp] theorem deliverWord_value (w : Word) (s : State) : (deliverWord w s).value = s.value := rfl
@[simp] theorem deliverWord_overrun (w : Word) (s : State) : (deliverWord w s).overrun = s.overrun := rfl
@[simp] theorem deliverWord_mode (w : Word) (s : State) : (deliverWord w s).mode = s.mode := rfl
@[simp] theorem deliverWord_faultCode (w : Word) (s : State) : (deliverWord w s).faultCode = s.faultCode := rfl
@[simp] theorem deliverWord_faultInfo (w : Word) (s : State) : (deliverWord w s).faultInfo = s.faultInfo := rfl
@[simp] theorem deliverWord_cmd (w : Word) (s : State) : (deliverWord w s).cmd = .command w :: s.cmd := rfl
@[simp] theorem deliverWord_rsp (w : Word) (s : State) : (deliverWord w s).rsp = s.rsp := rfl
@[simp] theorem deliverWord_bo (w : Word) (s : State) : (deliverWord w s).bo = s.bo := rfl
@[simp] theorem deliverWord_boErr (w : Word) (s : State) : (deliverWord w s).boErr = s.boErr := rfl
@[simp] theorem deliverWord_bi (w : Word) (s : State) : (deliverWord w s).bi = s.bi := rfl

@[simp] theorem ofParams_params (p : Params) : (State.ofParams p).params = p := rfl
@[simp] theorem ofParams_cum (p : Params) : (State.ofParams p).cum = freshTable := rfl
@[simp] theorem ofParams_frozen (p : Params) : (State.ofParams p).frozen = false := rfl
@[simp] theorem ofParams_low (p : Params) : (State.ofParams p).low = 0 := rfl
@[simp] theorem ofParams_high (p : Params) : (State.ofParams p).high = p.maxCode := rfl
@[simp] theorem ofParams_pending (p : Params) : (State.ofParams p).pending = 0 := rfl
@[simp] theorem ofParams_value (p : Params) : (State.ofParams p).value = 0 := rfl
@[simp] theorem ofParams_overrun (p : Params) : (State.ofParams p).overrun = 0 := rfl
@[simp] theorem ofParams_mode (p : Params) : (State.ofParams p).mode = if p.valid then .idle else .fault := rfl
@[simp] theorem ofParams_faultCode (p : Params) : (State.ofParams p).faultCode = if p.valid then .none else .precisionViolation := rfl
@[simp] theorem ofParams_faultInfo (p : Params) : (State.ofParams p).faultInfo = 0 := rfl
@[simp] theorem ofParams_cmd (p : Params) : (State.ofParams p).cmd = [] := rfl
@[simp] theorem ofParams_rsp (p : Params) : (State.ofParams p).rsp = [] := rfl
@[simp] theorem ofParams_bo (p : Params) : (State.ofParams p).bo = [] := rfl
@[simp] theorem ofParams_boErr (p : Params) : (State.ofParams p).boErr = [] := rfl
@[simp] theorem ofParams_bi (p : Params) : (State.ofParams p).bi = [] := rfl

/-- `raise` leaves what R178 lists. -/
theorem takeFault_eq_faulted (c : FaultCode) (w : Word) (s : State) : takeFault c w s = faulted c w s := rfl

end Sys2Proof.Machine
end

