-- ==== Sys2Proof/Laws/Table.lean ====
section
/-! SUPPORT. What each table operation makes of each word, that every one of them keeps the table's form, and what the inverse search finds. -/

namespace Sys2Proof.Machine

/-! ## Form -/

theorem memory_wf_iff (m : Memory) : Memory.wf m = true ↔ m.length = 258 := by simp [Memory.wf]

@[simp] theorem freshTable_length : freshTable.length = 258 := by simp [freshTable]

theorem freshTable_wf : Memory.wf freshTable = true := by simp [memory_wf_iff]

@[simp] theorem bump_length (s : Nat) (m : Memory) : (bump s m).length = m.length := by
  simp only [bump, List.length_append, List.length_take, List.length_map, List.length_drop]; omega

theorem bump_wf (s : Nat) (m : Memory) (h : Memory.wf m = true) : Memory.wf (bump s m) = true := by
  simpa [memory_wf_iff] using h

@[simp] theorem freqs_length (m : Memory) : (freqs m).length = m.length - 1 := by
  simp [freqs]

@[simp] theorem cumulate_length (c : Nat) (f : List Nat) : (cumulate c f).length = f.length + 1 := by
  induction f generalizing c with
  | nil => rfl
  | cons x xs ih => simp [cumulate, ih]

theorem rescale_length (m : Memory) (h : m.length = 258) : (rescale m).length = 258 := by
  simp [rescale, h]

theorem rescale_wf (m : Memory) (h : Memory.wf m = true) : Memory.wf (rescale m) = true := by
  rw [memory_wf_iff] at *; exact rescale_length m h

/-! ## Words -/

theorem cumAt_freshTable (i : Nat) (h : i ≤ 257) : cumAt freshTable i = i := by
  simp only [cumAt, freshTable, List.getD_eq_getElem?_getD]
  rw [List.getElem?_range' (by omega)]; simp

theorem cumAt_bump (s : Nat) (m : Memory) (i : Nat) (h : i < m.length) :
    cumAt (bump s m) i = if s < i then cumAt m i + 1 else cumAt m i := by
  simp only [cumAt, bump, List.getD_eq_getElem?_getD, List.getElem?_append, List.length_take]
  split <;> rename_i hi
  · rw [List.getElem?_take_of_lt (by omega), if_neg (by omega)]
  · rw [if_pos (by omega), List.getElem?_map, List.getElem?_drop,
      show s + 1 + (i - min (s + 1) m.length) = i by omega, List.getElem?_eq_getElem h]
    simp

theorem freqs_getElem (m : Memory) (s : Nat) (h : s < (freqs m).length) :
    (freqs m)[s] = cumAt m (s + 1) - cumAt m s := by
  have hl : s + 1 < m.length := by rw [freqs_length] at h; omega
  simp [freqs, cumAt, List.getD_eq_getElem?_getD, hl,
    show s < m.length by omega]

theorem cumAt_cumulate_zero (c : Nat) (f : List Nat) : cumAt (cumulate c f) 0 = c := by
  cases f <;> rfl

theorem cumAt_cumulate_succ (c : Nat) (f : List Nat) (s : Nat) (h : s < f.length) :
    cumAt (cumulate c f) (s + 1) = cumAt (cumulate c f) s + f[s] := by
  induction f generalizing c s with
  | nil => simp at h
  | cons x xs ih =>
    cases s with
    | zero =>
      show cumAt (cumulate (c + x) xs) 0 = _
      rw [cumAt_cumulate_zero, cumAt_cumulate_zero]; rfl
    | succ s => exact ih (c + x) s (by simpa using h)

theorem cumAt_rescale_zero (m : Memory) : cumAt (rescale m) 0 = 0 := cumAt_cumulate_zero _ _

theorem cumAt_rescale_succ (m : Memory) (h : m.length = 258) (s : Nat) (hs : s ≤ 256) :
    cumAt (rescale m) (s + 1) = cumAt (rescale m) s + (cumAt m (s + 1) - cumAt m s + 1) / 2 := by
  have hf : s < (freqs m).length := by rw [freqs_length]; omega
  rw [rescale, cumAt_cumulate_succ _ _ _ (by simpa using hf)]
  simp [freqs_getElem m s hf]

/-- Between any two words a rescale leaves at most half the distance, and half a count per symbol. -/
theorem rescale_distance (m : Memory) (h : m.length = 258)
    (hi : ∀ s, s ≤ 256 → cumAt m s < cumAt m (s + 1)) (i : Nat) (hle : i ≤ 257) :
    2 * cumAt (rescale m) i + cumAt m 0 ≤ cumAt m i + i := by
  induction i with
  | zero => simp [cumAt_rescale_zero]
  | succ i ih =>
    have := ih (by omega)
    have := hi i (by omega)
    rw [cumAt_rescale_succ m h i (by omega)]; omega

/-! ## The inverse search -/

/-- Whatever the table holds, the search stays in its half-open range. -/
theorem search_range (m : Memory) (v n lo hi : Nat) (h : lo < hi) :
    lo ≤ search m v n lo hi ∧ search m v n lo hi < hi := by
  induction n generalizing lo hi with
  | zero => simp [search, h]
  | succ n ih =>
    simp only [search]
    split
    · split
      · have := ih ((lo + hi) / 2) hi (by omega); omega
      · have := ih lo ((lo + hi) / 2) (by omega); omega
    · omega

/-- The search of R92 keeps `CUM[lo] <= v < CUM[hi]` and ends at one symbol. -/
theorem search_finds (m : Memory) (v n lo hi : Nat) (h : lo < hi) (hn : hi - lo ≤ 2 ^ n)
    (hlo : cumAt m lo ≤ v) (hhi : v < cumAt m hi) :
    cumAt m (search m v n lo hi) ≤ v ∧ v < cumAt m (search m v n lo hi + 1) := by
  induction n generalizing lo hi with
  | zero =>
    obtain rfl : hi = lo + 1 := by simp at hn; omega
    exact ⟨hlo, hhi⟩
  | succ n ih =>
    have h2 : 2 ^ (n + 1) = 2 * 2 ^ n := by ring
    simp only [search]
    split
    · split
      · exact ih _ _ (by omega) (by omega) ‹_› hhi
      · exact ih _ _ (by omega) (by omega) hlo (by omega)
    · obtain rfl : hi = lo + 1 := by omega
      exact ⟨hlo, hhi⟩

theorem locate_symbol_le (v : Nat) (m : Memory) : (locate v m).symbol ≤ 256 := by
  have := (search_range m v 9 0 257 (by omega)).2
  show search m v 9 0 257 ≤ 256
  omega

@[simp] theorem prob_symbol (k : Nat) (m : Memory) : (prob k m).symbol = k := rfl
@[simp] theorem prob_low (k : Nat) (m : Memory) : (prob k m).low = cumAt m k := rfl
@[simp] theorem prob_high (k : Nat) (m : Memory) : (prob k m).high = cumAt m (k + 1) := rfl
@[simp] theorem prob_total (k : Nat) (m : Memory) : (prob k m).total = cumAt m 257 := rfl

/-- What `Locate` returns is what `Prob` returns for its symbol (R91). -/
theorem locate_eq_prob (v : Nat) (m : Memory) : locate v m = prob (locate v m).symbol m := rfl

@[simp] theorem locate_low (v : Nat) (m : Memory) :
    (locate v m).low = cumAt m (locate v m).symbol := by rw [locate_eq_prob v m]; rfl

@[simp] theorem locate_high (v : Nat) (m : Memory) :
    (locate v m).high = cumAt m ((locate v m).symbol + 1) := by rw [locate_eq_prob v m]; rfl

@[simp] theorem locate_total (v : Nat) (m : Memory) : (locate v m).total = cumAt m 257 := by
  rw [locate_eq_prob v m]; rfl

theorem TableInv.mono {p : Params} {m : Memory} {f : Bool} (t : TableInv p m f) {i j : Nat}
    (h : i ≤ j) (hj : j ≤ 257) : cumAt m i ≤ cumAt m j := by
  induction j, h using Nat.le_induction with
  | base => exact le_rfl
  | succ j h ih => have := t.increasing j (by omega); have := ih (by omega); omega

/-- A count below the total has one owner. -/
theorem TableInv.owner_unique {p : Params} {m : Memory} {f : Bool} (t : TableInv p m f)
    {j k v : Nat} (hj : j ≤ 256) (hk : k ≤ 256) (a : cumAt m j ≤ v) (b : v < cumAt m (j + 1))
    (c : cumAt m k ≤ v) (d : v < cumAt m (k + 1)) : j = k := by
  rcases Nat.lt_trichotomy j k with h | h | h
  · have := t.mono (i := j + 1) (j := k) (by omega) (by omega); omega
  · exact h
  · have := t.mono (i := k + 1) (j := j) (by omega) (by omega); omega

/-- The symbol `Locate` finds owns the count (R91). -/
theorem locate_owns {p : Params} {m : Memory} {f : Bool} (t : TableInv p m f) {v : Nat}
    (h : v < cumAt m 257) :
    cumAt m (locate v m).symbol ≤ v ∧ v < cumAt m ((locate v m).symbol + 1) :=
  search_finds m v 9 0 257 (by omega) (by norm_num) (by rw [t.zero]; omega) h

/-! ## Observe -/

/-- Everything `Observe` can do (R93): a frozen model is left alone, an accepted symbol is counted, and
at the ceiling the policy applies. It writes the table and `FROZEN`, nothing else. -/
theorem observe_cases (sym : Nat) (s : State) :
    (s.frozen = true ∧ observe sym s = (false, s))
    ∨ (s.frozen = false ∧ cumAt (bump sym s.cum) 257 < s.params.ceil
        ∧ observe sym s = (true, { s with cum := bump sym s.cum }))
    ∨ (s.frozen = false ∧ s.params.ceil ≤ cumAt (bump sym s.cum) 257 ∧ s.params.policy = .freeze
        ∧ observe sym s = (true, { s with cum := bump sym s.cum, frozen := true }))
    ∨ (s.frozen = false ∧ s.params.ceil ≤ cumAt (bump sym s.cum) 257 ∧ s.params.policy = .renormalize
        ∧ observe sym s = (true, { s with cum := rescale (bump sym s.cum) })) := by
  unfold observe reachesCeiling
  cases hf : s.frozen
  · by_cases hc : s.params.ceil ≤ cumAt (bump sym s.cum) 257
    · cases hp : s.params.policy <;> simp [hc]
    · simp [hc]; omega
  · simp

/-- `Observe` writes the table and `FROZEN` only. -/
theorem observe_frame (sym : Nat) (s : State) :
    (observe sym s).2 = { s with cum := (observe sym s).2.cum, frozen := (observe sym s).2.frozen } := by
  rcases observe_cases sym s with ⟨_, h⟩ | ⟨_, _, h⟩ | ⟨_, _, _, h⟩ | ⟨_, _, _, h⟩ <;> rw [h]

theorem observe_wf (sym : Nat) (s : State) (h : Memory.wf s.cum = true) :
    Memory.wf (observe sym s).2.cum = true := by
  have hb := bump_wf sym s.cum h
  rcases observe_cases sym s with ⟨_, e⟩ | ⟨_, _, e⟩ | ⟨_, _, _, e⟩ | ⟨_, _, _, e⟩ <;> rw [e]
  exacts [h, hb, hb, rescale_wf _ hb]

theorem observe_length (sym : Nat) (s : State) (h : s.cum.length = 258) :
    (observe sym s).2.cum.length = 258 := by
  rw [← memory_wf_iff] at *; exact observe_wf sym s h

/-- `bump` is the count of R93. -/
theorem countedTable_eq_bump (sym : Nat) (m : Memory) (h : m.length = 258) :
    countedTable sym m = bump sym m := by
  apply List.ext_getElem
  · simp [countedTable, h]
  · intro i h1 h2
    have hi : i < 258 := by simpa [countedTable] using h1
    have a : (bump sym m)[i] = cumAt (bump sym m) i := by
      simp [cumAt, List.getD_eq_getElem?_getD, List.getElem?_eq_getElem h2]
    rw [a, cumAt_bump _ _ _ (by omega)]
    simp [countedTable]

/-- `rescale` is the halving of R94. -/
theorem halvedTable_eq_rescale (m : Memory) (h : m.length = 258) : halvedTable m = rescale m := by
  have key : ∀ i, i ≤ 257 →
      ((List.range i).map fun s => (cumAt m (s + 1) - cumAt m s + 1) / 2).sum
        = cumAt (rescale m) i := by
    intro i
    induction i with
    | zero => intro _; simp [cumAt_rescale_zero]
    | succ i ih =>
      intro hi
      rw [List.range_succ, List.map_append, List.sum_append, ih (by omega),
        cumAt_rescale_succ m h i (by omega)]
      simp
  apply List.ext_getElem
  · simp [halvedTable, rescale_length m h]
  · intro i h1 h2
    have hi : i < 258 := by simpa [halvedTable] using h1
    have a : (rescale m)[i] = cumAt (rescale m) i := by
      simp [cumAt, List.getD_eq_getElem?_getD, List.getElem?_eq_getElem h2]
    rw [a, ← key i (by omega)]
    simp [halvedTable]

/-- `Observe` leaves the model of R93 and R94, and is rejected exactly where the model is frozen. -/
theorem observedModel_eq_observe (sym : Nat) (s : State) (h : s.cum.length = 258) (hs : sym ≤ 256) :
    observedModel sym s = ((observe sym s).2.cum, (observe sym s).2.frozen)
    ∧ (observe sym s).1 = !s.frozen := by
  have hb := cumAt_bump sym s.cum 257 (by omega)
  rw [if_pos (by omega)] at hb
  have hl : (bump sym s.cum).length = 258 := by simp [h]
  unfold observedModel
  rw [countedTable_eq_bump sym _ h, halvedTable_eq_rescale _ hl]
  rcases observe_cases sym s with ⟨hf, e⟩ | ⟨hf, hc, e⟩ | ⟨hf, hc, hp, e⟩ | ⟨hf, hc, hp, e⟩ <;>
    rw [e] <;> simp only [hf] <;> simp
  · omega
  · rw [if_neg (by omega)]; simp [hp]
  · rw [if_neg (by omega)]; simp [hp]

end Sys2Proof.Machine
end

