-- ==== Sys2Proof/Laws/Coder.lean ====
section
/-! SUPPORT. What each coder micro-operation can do, said once: the shifter and the three cases as arithmetic, narrowing, the port transactions, and what the two renormalisation loops leave. -/

namespace Sys2Proof.Machine

/-! ## The shifter and the cases -/

theorem bit_toNat_le (b : Bit) : b.toNat ≤ 1 := by cases b <;> decide

/-- Below `HALF` the shift loses no bit and the mask changes nothing (R116). -/
theorem shl_of_lt_half {p : Params} (hc : 2 ≤ p.codeBits) {x : Nat} (b : Bit) (h : x < p.half) :
    shl p x b = 2 * x + b.toNat := by
  have h4 := p.two_pow_codeBits hc
  have hh := p.half_eq hc
  have hm : x <<< 1 &&& p.maxCode = x <<< 1 := by
    rw [Params.maxCode, Nat.and_two_pow_sub_one_eq_mod, Nat.mod_eq_of_lt]
    rw [Nat.shiftLeft_eq]; omega
  have hb : b.toNat < 2 ^ 1 := by have := bit_toNat_le b; omega
  rw [shl, hm, ← Nat.shiftLeft_add_eq_or_of_lt hb, Nat.shiftLeft_eq]
  ring

/-- The condition under which each case is taken, priorities included (R116, R118). -/
def ECase.applies (p : Params) (low high : Nat) : ECase → Prop
  | .e1 => high < p.half
  | .e2 => p.half ≤ low
  | .e3 => p.oneFourth ≤ low ∧ low < p.half ∧ p.half ≤ high ∧ high < p.threeFourths

theorem renormCase_none_iff (p : Params) (low high : Nat) :
    renormCase p low high = none ↔ Settled p low high := by
  unfold renormCase Settled
  split
  · simp; omega
  · split
    · simp; omega
    · split <;> simp <;> omega

theorem renormCase_some {p : Params} {low high : Nat} {c : ECase} (h : renormCase p low high = some c) :
    c.applies p low high := by
  unfold renormCase at h
  split at h
  · cases h; assumption
  · split at h
    · cases h; assumption
    · split at h
      · cases h; simp only [ECase.applies]; omega
      · cases h

/-- In an ordered interval a case whose condition holds is the one taken (R118). -/
theorem renormCase_of_applies {p : Params} {low high : Nat} (ho : low ≤ high)
    {c : ECase} (h : c.applies p low high) : renormCase p low high = some c := by
  unfold renormCase
  cases c <;> simp only [ECase.applies] at h
  · rw [if_pos h]
  · rw [if_neg (by omega), if_pos h]
  · rw [if_neg (by omega), if_neg (by omega), if_pos ⟨h.1, h.2.2.2⟩]

/-- In every case the subtraction does not underflow and leaves both ends below `HALF` (R116). -/
theorem offset_bounds {p : Params} (hc : 2 ≤ p.codeBits) {low high : Nat} {c : ECase}
    (ha : c.applies p low high) (ho : low ≤ high) (hf : high ≤ p.maxCode) :
    offset p c ≤ low ∧ high - offset p c < p.half := by
  have h1 := p.half_eq hc
  have h2 := p.maxCode_eq hc
  have h3 := p.threeFourths_eq
  cases c <;> simp only [ECase.applies, offset] at * <;> omega

/-- One shift as plain arithmetic: the ends double, the order and the width are kept, and the range
doubles (R115, R116). -/
theorem shiftInterval_arith {s : State} {c : ECase} (hc : 2 ≤ s.params.codeBits)
    (ha : c.applies s.params s.low s.high) (ho : s.low ≤ s.high) (hf : s.high ≤ s.params.maxCode) :
    (shiftInterval c s).low = 2 * (s.low - offset s.params c)
    ∧ (shiftInterval c s).high = 2 * (s.high - offset s.params c) + 1
    ∧ (shiftInterval c s).low ≤ (shiftInterval c s).high
    ∧ (shiftInterval c s).high ≤ s.params.maxCode
    ∧ range (shiftInterval c s) = 2 * range s := by
  obtain ⟨hl, hh⟩ := offset_bounds hc ha ho hf
  have h1 := s.params.half_eq hc
  have h2 := s.params.maxCode_eq hc
  have el : shl s.params (s.low - offset s.params c) false = 2 * (s.low - offset s.params c) := by
    rw [shl_of_lt_half hc _ (by omega)]; rfl
  have eh : shl s.params (s.high - offset s.params c) true = 2 * (s.high - offset s.params c) + 1 := by
    rw [shl_of_lt_half hc _ hh]; rfl
  simp only [shiftInterval_low, shiftInterval_high, range, el, eh]
  refine ⟨trivial, trivial, ?_, ?_, ?_⟩ <;> omega

/-- The window's shift as plain arithmetic, `VALUE` staying inside (R117, R120). -/
theorem shiftWindow_arith {s : State} {c : ECase} (b : Bit) (hc : 2 ≤ s.params.codeBits)
    (ha : c.applies s.params s.low s.high) (hv : s.low ≤ s.value) (hw : s.value ≤ s.high)
    (hf : s.high ≤ s.params.maxCode) :
    (shiftWindow c b s).value = 2 * (s.value - offset s.params c) + b.toNat
    ∧ (shiftWindow c b s).low ≤ (shiftWindow c b s).value
    ∧ (shiftWindow c b s).value ≤ (shiftWindow c b s).high := by
  obtain ⟨hl, hh⟩ := offset_bounds hc ha (by omega) hf
  obtain ⟨el, eh, -⟩ := shiftInterval_arith hc ha (by omega) hf
  have ev : shl s.params (s.value - offset s.params c) b
      = 2 * (s.value - offset s.params c) + b.toNat := shl_of_lt_half hc _ (by omega)
  simp only [shiftInterval_low, shiftInterval_high] at el eh
  simp only [shiftWindow_low, shiftWindow_high, shiftWindow_value, el, eh, ev]
  have := bit_toNat_le b
  refine ⟨trivial, ?_, ?_⟩ <;> omega

/-- A range of the whole code space is settled. -/
theorem full_range_settled {p : Params} (hc : 2 ≤ p.codeBits) {low high : Nat}
    (hf : high ≤ p.maxCode) (hr : 2 ^ p.codeBits ≤ high - low + 1) :
    renormCase p low high = none := by
  rw [renormCase_none_iff]
  have h1 := p.half_eq hc
  have h2 := p.maxCode_eq hc
  have h3 := p.two_pow_codeBits hc
  have h4 := p.oneFourth_pos
  have h5 := p.threeFourths_eq
  unfold Settled
  omega

/-! ## Narrowing -/

/-- The two quotients of `Narrow`: the upper exceeds the lower and neither exceeds the range (R111). -/
theorem narrow_quotients {r sl sh t : Nat} (h1 : sl < sh) (h2 : sh ≤ t) (h3 : t ≤ r) :
    r * sl / t < r * sh / t ∧ r * sh / t ≤ r := by
  have ht : 0 < t := by omega
  constructor
  · rw [Nat.lt_iff_add_one_le, Nat.le_div_iff_mul_le ht, Nat.add_mul, Nat.one_mul]
    have a := Nat.div_mul_le_self (r * sl) t
    have b : r * (sl + 1) ≤ r * sh := Nat.mul_le_mul_left r h1
    rw [Nat.mul_add, Nat.mul_one] at b
    generalize r * sl / t * t = q at a ⊢
    omega
  · apply Nat.div_le_of_le_mul
    rw [Nat.mul_comm t r]
    exact Nat.mul_le_mul_left r h2

theorem narrow_of_requires {b : Bounds} {s : State} (h : narrowRequires b s = true) :
    narrow b s = .ok () { s with
      high := s.low + range s * b.high / b.total - 1, low := s.low + range s * b.low / b.total } := by
  rw [narrow, if_pos h]

/-- In a settled interval the bounds of any symbol of a sound table meet `Narrow`'s requirements, and
what it leaves is ordered, fits, and lies inside the old interval (R111, R119). -/
theorem narrow_prob {s : State} {k : Nat} (hv : s.params.valid = true)
    (ht : TableInv s.params s.cum s.frozen) (hs : Settled s.params s.low s.high) (hk : k ≤ 256)
    (t : State) (hp : t.params = s.params) (hl : t.low = s.low) (hh : t.high = s.high) :
    narrow (prob k s.cum) t = .ok () { t with low := narrowedLow s k, high := narrowedHigh s k }
    ∧ s.low ≤ narrowedLow s k ∧ narrowedLow s k ≤ narrowedHigh s k
    ∧ narrowedHigh s k ≤ s.high := by
  have hq := s.params.ceil_lt_oneFourth hv
  have h1 := s.params.half_eq (by have := s.params.codeBits_ge hv; omega)
  have h3 := s.params.threeFourths_eq
  have hi := ht.increasing k hk
  have hm := ht.mono (i := k + 1) (j := 257) (by omega) le_rfl
  have hr : cumAt s.cum 257 ≤ s.high - s.low + 1 := by
    have := ht.total; unfold Settled at hs; omega
  have hn := narrow_quotients hi hm hr
  have hreq : narrowRequires (prob k s.cum) t = true := by
    simp only [narrowRequires, Bool.and_eq_true, decide_eq_true_eq]
    simp only [prob, totalCount, range, hp, hl, hh]
    have := ht.total
    unfold Settled at hs
    exact ⟨⟨⟨⟨hi, hm⟩, this⟩, by omega⟩, hr⟩
  refine ⟨?_, ?_, ?_, ?_⟩
  · rw [narrow_of_requires hreq]
    simp only [prob, totalCount, range, hl, hh, narrowedLow, narrowedHigh]
  all_goals
    unfold Settled at hs
    simp only [narrowedLow, narrowedHigh]
    generalize (s.high - s.low + 1) * cumAt s.cum k / cumAt s.cum 257 = ql at hn ⊢
    generalize (s.high - s.low + 1) * cumAt s.cum (k + 1) / cumAt s.cum 257 = qh at hn ⊢
    omega

/-! ## Port transactions -/

/-- A bit-out port given the transactions `sent`: logged, one answer taken for each (R77). -/
def afterSent (sent : List BoTxn) (s : State) : State :=
  { s with bo := s.bo ++ sent, boErr := s.boErr.drop sent.length }

theorem afterSent_nil (s : State) : afterSent [] s = s := by simp [afterSent]

theorem afterSent_afterSent (a b : List BoTxn) (s : State) :
    afterSent b (afterSent a s) = afterSent (a ++ b) s := by
  simp [afterSent, List.drop_drop]

@[simp] theorem sentBits_length (bits : List Bit) : (sentBits bits).length = bits.length := by
  simp [sentBits]

theorem sentBits_append (a b : List Bit) : sentBits (a ++ b) = sentBits a ++ sentBits b := by
  simp [sentBits]

/-- Bits fetched in two runs are bits fetched in one. -/
theorem afterFetched_afterFetched (m n : Nat) (s : State) :
    afterFetched n (afterFetched m s) = afterFetched (m + n) s := by
  simp [afterFetched, List.drop_drop]; omega

theorem afterFetched_zero (s : State) : afterFetched 0 s = s := by simp [afterFetched]

/-- One transaction is logged; it is accepted, or it raises `IOFailure` (R77, R170). -/
theorem boTransact_cases (item : BoItem) (s : State) :
    (boTransact item s = .ok () (afterSent [⟨item, false⟩] s) ∧ s.boErr.headD false = false)
    ∨ boTransact item s = .raised .ioFailure (afterSent [⟨item, true⟩] s) := by
  unfold boTransact afterSent
  cases h : s.boErr with
  | nil => simp
  | cons e rest => cases e <;> simp

theorem SinkTakes.of_accepts {s : State} (h : SinkAccepts s) (n : Nat) : SinkTakes s n :=
  fun e he => h e (List.mem_of_mem_take he)

/-- After `sent` the sink takes what it had still to take. -/
theorem SinkTakes.rest {s : State} {sent : List BoTxn} {n : Nat} (h : SinkTakes s (sent.length + n)) :
    SinkTakes (afterSent sent s) n := by
  intro e he
  have hd : e ∈ (s.boErr.drop sent.length).take n := he
  rw [List.take_drop] at hd
  exact h e (List.mem_of_mem_drop hd)

theorem SinkTakes.first {s : State} {m n : Nat} (h : SinkTakes s n) (hm : m ≤ n) : SinkTakes s m :=
  fun e he => h e ((List.take_sublist_take_left hm).subset he)

theorem boTransact_takes (item : BoItem) (s : State) (h : SinkTakes s 1) :
    boTransact item s = .ok () (afterSent [⟨item, false⟩] s) := by
  unfold boTransact afterSent
  cases e : s.boErr with
  | nil => simp
  | cons x rest =>
    have : x = false := h x (by simp [e])
    subst this; simp

theorem emitRun_takes (b : Bit) (n : Nat) (s : State) (h : SinkTakes s n) :
    emitRun b n s = .ok () (afterSent (sentBits (List.replicate n b)) s) := by
  induction n generalizing s with
  | zero => simp [emitRun, sentBits, afterSent_nil]
  | succ n ih =>
    have hr := ih (afterSent [⟨.bit b, false⟩] s) (SinkTakes.rest (by simpa [Nat.add_comm] using h))
    rw [afterSent_afterSent] at hr
    simp only [emitRun, emitBit, boTransact_takes (.bit b) s (h.first (by omega)), Run.bind, hr, sentBits,
      List.replicate_succ, List.map_cons, List.singleton_append]

/-- A run of bits is logged as far as it got. -/
theorem emitRun_cases (b : Bit) (n : Nat) (s : State) :
    ∃ sent, emitRun b n s = .ok () (afterSent sent s)
      ∨ emitRun b n s = .raised .ioFailure (afterSent sent s) := by
  induction n generalizing s with
  | zero => exact ⟨[], .inl (by simp [emitRun, afterSent_nil])⟩
  | succ n ih =>
    rcases boTransact_cases (.bit b) s with ⟨h, -⟩ | h
    · obtain ⟨sent, hs⟩ := ih (afterSent [⟨.bit b, false⟩] s)
      refine ⟨[⟨.bit b, false⟩] ++ sent, ?_⟩
      simpa only [emitRun, emitBit, h, Run.bind, afterSent_afterSent] using hs
    · exact ⟨[⟨.bit b, true⟩], .inr (by simp only [emitRun, emitBit, h, Run.bind])⟩

/-- `EmitWithFollow` clears `PENDING` when every bit was accepted, and else keeps it (R113, R179). -/
theorem emitWithFollow_cases (b : Bit) (s : State) :
    ∃ sent, emitWithFollow b s = .ok () { afterSent sent s with pending := 0 }
      ∨ emitWithFollow b s = .raised .ioFailure (afterSent sent s) := by
  rcases boTransact_cases (.bit b) s with ⟨h, -⟩ | h
  · obtain ⟨sent, hs | hs⟩ := emitRun_cases (!b) s.pending (afterSent [⟨.bit b, false⟩] s)
    · exact ⟨[⟨.bit b, false⟩] ++ sent, .inl (by
        simp only [emitWithFollow, emitBit, h, Run.bind, hs, afterSent_afterSent])⟩
    · exact ⟨[⟨.bit b, false⟩] ++ sent, .inr (by
        simp only [emitWithFollow, emitBit, h, Run.bind, hs, afterSent_afterSent])⟩
  · exact ⟨[⟨.bit b, true⟩], .inr (by simp only [emitWithFollow, emitBit, h, Run.bind])⟩

theorem incPending_cases (s : State) :
    (s.pending = s.params.pendMax ∧ incPending s = .raised .pendingOverflow s)
    ∨ (s.pending ≠ s.params.pendMax ∧ incPending s = .ok () { s with pending := s.pending + 1 }) := by
  unfold incPending; split <;> simp [*]

/-- Everything a bit fetch can do (R114). -/
theorem getBit_cases (s : State) :
    (∃ rest, s.bi = .err :: rest ∧ getBit s = .raised .ioFailure { s with bi := rest })
    ∨ (∃ b rest, s.bi = .bit b :: rest ∧ getBit s = .ok b { s with bi := rest })
    ∨ (s.bi = [] ∧ s.overrun = s.params.overrunMax ∧ getBit s = .raised .streamExhausted s)
    ∨ (s.bi = [] ∧ s.overrun ≠ s.params.overrunMax
        ∧ getBit s = .ok false { s with overrun := s.overrun + 1 }) := by
  unfold getBit
  cases h : s.bi with
  | nil => by_cases ho : s.overrun = s.params.overrunMax <;> simp [ho]
  | cons a rest => cases a <;> simp

/-! ## The loops -/

/-- What a renormalisation case does to the output: the sent transactions and a new `PENDING`, or a
fault with `PENDING` kept (R113, R116, R122). -/
theorem resolve_cases (c : ECase) (s : State) (h : s.pending ≤ s.params.pendMax) :
    ∃ sent q, q ≤ s.params.pendMax
      ∧ (resolve c s = .ok () { afterSent sent s with pending := q }
        ∨ ∃ f, (f = .ioFailure ∨ f = .pendingOverflow) ∧ resolve c s = .raised f (afterSent sent s)) := by
  cases c with
  | e1 | e2 =>
    obtain ⟨sent, hs | hs⟩ := emitWithFollow_cases _ s
    · exact ⟨sent, 0, Nat.zero_le _, .inl hs⟩
    · exact ⟨sent, 0, Nat.zero_le _, .inr ⟨_, .inl rfl, hs⟩⟩
  | e3 =>
    rcases incPending_cases s with ⟨h1, h2⟩ | ⟨h1, h2⟩
    · exact ⟨[], 0, Nat.zero_le _, .inr ⟨_, .inr rfl, by rw [afterSent_nil]; exact h2⟩⟩
    · exact ⟨[], s.pending + 1, by omega, .inl (by rw [afterSent_nil]; exact h2)⟩

/-- Everything `RenormEnc` can do from an ordered interval (R116, R119, R179): it ends settled, or a
transaction or `PENDING` raises; in both cases it has written only `LOW`, `HIGH`, `PENDING` and the
bit-out port, and the registers still fit. It is never stuck while `2^n` times the range covers the
code space. -/
theorem renormEnc_cases (n : Nat) (s : State) (hc : 2 ≤ s.params.codeBits) (ho : s.low ≤ s.high)
    (hf : s.high ≤ s.params.maxCode) (hp : s.pending ≤ s.params.pendMax)
    (hr : 2 ^ s.params.codeBits ≤ range s * 2 ^ n) :
    ∃ l h q sent, l ≤ h ∧ h ≤ s.params.maxCode ∧ q ≤ s.params.pendMax
      ∧ ((Settled s.params l h
          ∧ renormEnc n s = .ok () { afterSent sent s with low := l, high := h, pending := q })
        ∨ ∃ f, (f = .ioFailure ∨ f = .pendingOverflow)
          ∧ renormEnc n s = .raised f { afterSent sent s with low := l, high := h, pending := q }) := by
  induction n generalizing s with
  | zero =>
    have hn := full_range_settled hc hf (by simpa [range] using hr)
    refine ⟨s.low, s.high, s.pending, [], ho, hf, hp, .inl ⟨(renormCase_none_iff _ _ _).mp hn, ?_⟩⟩
    simp only [renormEnc, hn, afterSent_nil]
  | succ n ih =>
    cases hcase : renormCase s.params s.low s.high with
    | none =>
      refine ⟨s.low, s.high, s.pending, [], ho, hf, hp,
        .inl ⟨(renormCase_none_iff _ _ _).mp hcase, ?_⟩⟩
      simp only [renormEnc, hcase, afterSent_nil]
    | some c =>
      have ha := renormCase_some hcase
      obtain ⟨sent, q, hq, hs | ⟨f, hf', hs⟩⟩ := resolve_cases c s hp
      · obtain ⟨-, -, h1, h2, h3⟩ :=
          shiftInterval_arith (s := { afterSent sent s with pending := q }) hc ha ho hf
        have h3' : range (shiftInterval c { afterSent sent s with pending := q }) = 2 * range s := h3
        obtain ⟨l, h, q', sent', r1, r2, r3, r4⟩ :=
          ih (shiftInterval c { afterSent sent s with pending := q }) hc h1 h2 hq (by
            rw [h3']; rw [Nat.pow_succ] at hr; show 2 ^ s.params.codeBits ≤ _; nlinarith)
        refine ⟨l, h, q', sent ++ sent', r1, r2, r3, ?_⟩
        have e : renormEnc (n + 1) s
            = renormEnc n (shiftInterval c { afterSent sent s with pending := q }) := by
          simp only [renormEnc, hcase, hs, Run.bind]
        have es : { afterSent sent' (shiftInterval c { afterSent sent s with pending := q }) with
              low := l, high := h, pending := q' }
            = { afterSent (sent ++ sent') s with low := l, high := h, pending := q' } := by
          rw [← afterSent_afterSent]; rfl
        rw [e, ← es]
        exact r4
      · refine ⟨s.low, s.high, s.pending, sent, ho, hf, hp, .inr ⟨f, hf', ?_⟩⟩
        simp only [renormEnc, hcase, hs, Run.bind]; rfl

/-- Everything `RenormDec` can do from an interval that holds `VALUE` (R117, R119, R120, R179): it ends
settled, or a bit fetch raises; in both cases the interval still holds `VALUE`, and only the window
and the bit-in port are written. It is never stuck while `2^n` times the range covers the code
space. -/
theorem renormDec_cases (n : Nat) (s : State) (hc : 2 ≤ s.params.codeBits) (hv : s.low ≤ s.value)
    (hw : s.value ≤ s.high) (hf : s.high ≤ s.params.maxCode) (hm : s.overrun ≤ s.params.overrunMax)
    (hr : 2 ^ s.params.codeBits ≤ range s * 2 ^ n) :
    ∃ l h v o k, l ≤ v ∧ v ≤ h ∧ h ≤ s.params.maxCode ∧ o ≤ s.params.overrunMax ∧ k ≤ s.bi.length
      ∧ ((Settled s.params l h
          ∧ renormDec n s = .ok () { s with low := l, high := h, value := v, overrun := o, bi := s.bi.drop k })
        ∨ ∃ f, (f = .ioFailure ∨ f = .streamExhausted)
          ∧ renormDec n s = .raised f
            { s with low := l, high := h, value := v, overrun := o, bi := s.bi.drop k }) := by
  induction n generalizing s with
  | zero =>
    have hn := full_range_settled hc hf (by simpa [range] using hr)
    exact ⟨s.low, s.high, s.value, s.overrun, 0, hv, hw, hf, hm, Nat.zero_le _,
      .inl ⟨(renormCase_none_iff _ _ _).mp hn, by simp only [renormDec, hn, List.drop_zero]⟩⟩
  | succ n ih =>
    cases hcase : renormCase s.params s.low s.high with
    | none =>
      exact ⟨s.low, s.high, s.value, s.overrun, 0, hv, hw, hf, hm, Nat.zero_le _,
        .inl ⟨(renormCase_none_iff _ _ _).mp hcase, by simp only [renormDec, hcase, List.drop_zero]⟩⟩
    | some c =>
      have ha := renormCase_some hcase
      have next : ∀ (b : Bit) (o j : Nat), o ≤ s.params.overrunMax → j ≤ s.bi.length →
          getBit s = .ok b { s with overrun := o, bi := s.bi.drop j } →
          ∃ l h v o' k, l ≤ v ∧ v ≤ h ∧ h ≤ s.params.maxCode ∧ o' ≤ s.params.overrunMax
            ∧ k ≤ s.bi.length
            ∧ ((Settled s.params l h
                ∧ renormDec (n + 1) s = .ok ()
                  { s with low := l, high := h, value := v, overrun := o', bi := s.bi.drop k })
              ∨ ∃ f, (f = .ioFailure ∨ f = .streamExhausted)
                ∧ renormDec (n + 1) s = .raised f
                  { s with low := l, high := h, value := v, overrun := o', bi := s.bi.drop k }) := by
        intro b o j hoj hj hg
        obtain ⟨-, h1, h2⟩ :=
          shiftWindow_arith (s := { s with overrun := o, bi := s.bi.drop j }) b hc ha hv hw hf
        obtain ⟨-, -, -, h3, h4⟩ := shiftInterval_arith
          (s := { s with overrun := o, bi := s.bi.drop j }) hc ha (Nat.le_trans hv hw) hf
        have h4' : range (shiftWindow c b { s with overrun := o, bi := s.bi.drop j }) = 2 * range s := h4
        obtain ⟨l, h, v, o', k, r1, r2, r3, r4, r5, r6⟩ :=
          ih (shiftWindow c b { s with overrun := o, bi := s.bi.drop j }) hc h1 h2 h3 hoj (by
            rw [h4']; rw [Nat.pow_succ] at hr; show 2 ^ s.params.codeBits ≤ _; nlinarith)
        have e : renormDec (n + 1) s
            = renormDec n (shiftWindow c b { s with overrun := o, bi := s.bi.drop j }) := by
          simp only [renormDec, hcase, hg, Run.bind]
        simp only [shiftWindow_bi, List.drop_drop, List.length_drop] at r5 r6
        refine ⟨l, h, v, o', j + k, r1, r2, r3, r4, by omega, ?_⟩
        rw [e]
        exact r6
      have stop : ∀ (f : FaultCode) (j : Nat), (f = .ioFailure ∨ f = .streamExhausted) →
          j ≤ s.bi.length → getBit s = .raised f { s with bi := s.bi.drop j } →
          ∃ l h v o' k, l ≤ v ∧ v ≤ h ∧ h ≤ s.params.maxCode ∧ o' ≤ s.params.overrunMax
            ∧ k ≤ s.bi.length
            ∧ ((Settled s.params l h
                ∧ renormDec (n + 1) s = .ok ()
                  { s with low := l, high := h, value := v, overrun := o', bi := s.bi.drop k })
              ∨ ∃ f, (f = .ioFailure ∨ f = .streamExhausted)
                ∧ renormDec (n + 1) s = .raised f
                  { s with low := l, high := h, value := v, overrun := o', bi := s.bi.drop k }) := by
        intro f j hfj hj hg
        refine ⟨s.low, s.high, s.value, s.overrun, j, hv, hw, hf, hm, hj, .inr ⟨f, hfj, ?_⟩⟩
        simp only [renormDec, hcase, hg, Run.bind]
      rcases getBit_cases s with ⟨rest, hb, hg⟩ | ⟨b, rest, hb, hg⟩ | ⟨hb, ho, hg⟩ | ⟨hb, ho, hg⟩
      · exact stop _ 1 (.inl rfl) (by simp [hb]) (by rw [hg]; simp [hb])
      · exact next b s.overrun 1 hm (by simp [hb]) (by rw [hg]; simp [hb])
      · exact stop _ 0 (.inr rfl) (Nat.zero_le _) (by rw [hg]; simp)
      · exact next false (s.overrun + 1) 0 (by omega) (Nat.zero_le _) (by rw [hg]; simp)

end Sys2Proof.Machine
end

