-- ==== Sys2Proof/Laws/Commands.lean ====
section
/-! SUPPORT. What the shared frame of every command can do: the prologue, the end of a command, and a step of the host's queue. -/

namespace Sys2Proof.Machine

/-- What runs in `FAULT` mode passes every check of the prologue (R154, R155). -/
theorem runsInFault_passes {i : Instr} (h : runsInFault i = true) (m : Mode) :
    i.wf = true ∧ legalMode i m = true ∧ symbolTooLarge i = false := by
  cases i <;> simp_all [runsInFault, Instr.wf, legalMode, symbolTooLarge, symbolOperand]

/-- Everything the prologue can do (R155): the answer of a faulted core, one of its three faults, or
the command's own pseudocode, reached with every check passed. -/
theorem command_cases (i : Instr) (body : State → Run Response) (s : State) :
    (s.mode = .fault ∧ runsInFault i = false ∧ command i body s = .next (answerFaulted s))
    ∨ (∃ c, (c = .illegalCommand ∨ c = .illegalSequence ∨ c = .symbolRange) ∧ s.mode ≠ .fault
        ∧ command i body s = .next (takeFault c (encode i) s))
    ∨ ((s.mode = .fault → runsInFault i = true) ∧ i.wf = true ∧ legalMode i s.mode = true
        ∧ symbolTooLarge i = false ∧ command i body s = conclude (encode i) (body s)) := by
  unfold command
  by_cases h1 : s.mode = .fault ∧ runsInFault i = false
  · exact .inl ⟨h1.1, h1.2, by rw [if_pos h1]⟩
  · rw [if_neg h1]
    have hf : s.mode = .fault → runsInFault i = true := by
      intro hm; by_contra hr; exact h1 ⟨hm, by simpa using hr⟩
    have pass := fun hm => runsInFault_passes (hf hm) s.mode
    by_cases h2 : i.wf = false
    · refine .inr (.inl ⟨_, .inl rfl, fun hm => ?_, by rw [if_pos h2]⟩)
      simp [(pass hm).1] at h2
    · rw [if_neg h2]
      by_cases h3 : legalMode i s.mode = false
      · refine .inr (.inl ⟨_, .inr (.inl rfl), fun hm => ?_, by rw [if_pos h3]⟩)
        simp [(pass hm).2.1] at h3
      · rw [if_neg h3]
        by_cases h4 : symbolTooLarge i = true
        · refine .inr (.inl ⟨_, .inr (.inr rfl), fun hm => ?_, by rw [if_pos h4]⟩)
          simp [(pass hm).2.2] at h4
        · exact .inr (.inr ⟨hf, by simpa using h2, by simpa using h3, by simpa using h4,
            by rw [if_neg h4]⟩)

/-- A command whose checks pass outside `FAULT` mode runs its pseudocode. -/
theorem command_runs {i : Instr} {body : State → Run Response} {s : State} (h1 : s.mode ≠ .fault)
    (h2 : i.wf = true) (h3 : legalMode i s.mode = true) (h4 : symbolTooLarge i = false) :
    command i body s = conclude (encode i) (body s) := by
  simp [command, h1, h2, h3, h4]

@[simp] theorem conclude_ok (w : Word) (r : Response) (s : State) :
    conclude w (.ok r s) = .next (respond r s) := rfl

@[simp] theorem conclude_raised (w : Word) (c : FaultCode) (s : State) :
    conclude w (.raised c s) = .next (takeFault c w s) := rfl

@[simp] theorem conclude_stuck (w : Word) (f : Fault) : conclude w (.stuck f) = .fault f := rfl

@[simp] theorem bind_ok {α β : Type} (a : α) (s : State) (k : α → State → Run β) :
    (Run.ok a s).bind k = k a s := rfl

@[simp] theorem bind_raised {α β : Type} (c : FaultCode) (s : State) (k : α → State → Run β) :
    (Run.raised c s).bind k = .raised c s := rfl

@[simp] theorem bind_stuck {α β : Type} (f : Fault) (k : α → State → Run β) :
    (Run.stuck f).bind k = .stuck f := rfl

/-- A command that answers a next state delivered a response of its own pseudocode, or a fault. -/
theorem conclude_next {w : Word} {r : Run Response} {t : State} (h : conclude w r = .next t) :
    (∃ a u, r = .ok a u ∧ t = respond a u) ∨ ∃ c u, r = .raised c u ∧ t = takeFault c w u := by
  cases r with
  | ok a u => exact .inl ⟨a, u, rfl, by simpa using h.symm⟩
  | raised c u => exact .inr ⟨c, u, rfl, by simpa using h.symm⟩
  | stuck f => simp at h

/-- Each command's own pseudocode, which `exec` runs after the prologue. -/
def body : Instr → State → Run Response
  | .reset, s => .ok { status := if s.params.valid then .ok else .fault } (coreReset s)
  | .rdreg r, s =>
    match readRegister r.toNat s with
    | some v => .ok { status := .ok, data := v } s
    | none => .raised .illegalCommand s
  | .rdcum idx, s => .ok { status := .ok, data := cumAt s.cum idx.toNat } s
  | .mInit, s => .ok { status := .ok } (modelInit s)
  | .mProb sym, s => .ok (boundsResponse (prob sym.toNat s.cum)) s
  | .mLocate v, s =>
    if totalCount s.cum ≤ v.toNat then .raised .valueRange s
    else .ok (boundsResponse (locate v.toNat s.cum)) s
  | .mObserve sym, s =>
    .ok { status := if (observe sym.toNat s).1 then .ok else .rejected } (observe sym.toNat s).2
  | .mTotal, s => .ok { status := .ok, total := totalCount s.cum } s
  | .eInit, s => .ok { status := .ok } { openSession s with mode := .enc }
  | .eSym sym, s =>
    (narrow (prob sym.toNat s.cum) s).bind fun _ t =>
      (renormEnc t.params.codeBits (observe sym.toNat t).2).bind fun _ u =>
        .ok { status := .ok } (afterSymbol sym.toNat u)
  | .eFinish, s =>
    (incPending s).bind fun _ t =>
      (emitWithFollow (decide (t.params.oneFourth ≤ t.low)) t).bind fun _ u =>
        (flush u).bind fun _ v => .ok { status := .ok } { v with mode := .idle }
  | .dInit, s =>
    (primeValue s.params.codeBits (openSession s)).bind fun _ t =>
      .ok { status := .ok } { t with mode := .dec }
  | .dSym, s =>
    (scale s).bind fun scaled t =>
      if (locate scaled t.cum).symbol = eos then .ok { status := .eos, sym := eos } { t with mode := .decEos }
      else decodeSymbol (locate scaled t.cum) t
  | .dEnd, s => .ok { status := .ok } { s with mode := .idle }

/-- Every command is the common prologue and then its own pseudocode (R155). -/
theorem exec_eq_command (i : Instr) (s : State) : exec i s = command i (body i) s := by
  cases i with
  | reset =>
    simp only [exec, execReset]
    congr 1
    funext t
    simp only [body, coreReset_mode]
    by_cases h : t.params.valid = true <;> simp [h]
  | mObserve sym =>
    simp only [exec, execMObserve]
    congr 1
    funext t
    simp only [body]
    split <;> rename_i h <;> simp [h]
  | rdreg r => simp only [exec, execRdreg]; rfl
  | rdcum r => simp only [exec, execRdcum]; rfl
  | mInit => simp only [exec, execMInit]; rfl
  | mProb r => simp only [exec, execMProb]; rfl
  | mLocate r => simp only [exec, execMLocate]; rfl
  | mTotal => simp only [exec, execMTotal]; rfl
  | eInit => simp only [exec, execEInit]; rfl
  | eSym r => simp only [exec, execESym]; rfl
  | eFinish => simp only [exec, execEFinish]; rfl
  | dInit => simp only [exec, execDInit]; rfl
  | dSym => simp only [exec, execDSym]; rfl
  | dEnd => simp only [exec, execDEnd]; rfl

/-- Everything a step can do: it waits, or it takes the host's next event (R76, R190, R192). -/
theorem step_cases (s : State) :
    (s.cmd = [] ∧ step s = .next s)
    ∨ (∃ w rest, s.cmd = .command w :: rest ∧ step s = runWord w { s with cmd := rest })
    ∨ (∃ rest, s.cmd = .rst :: rest ∧ step s = .next (coreReset { s with cmd := rest }))
    ∨ (∃ w k rest, s.cmd = .rstDuring w k :: rest ∧ step s = resetDuring w k { s with cmd := rest })
    ∨ (∃ a rest, s.cmd = .attachSource a :: rest
        ∧ step s = .next (attachSource a { s with cmd := rest }))
    ∨ ∃ e rest, s.cmd = .attachSink e :: rest
        ∧ step s = .next (attachSink e { s with cmd := rest }) := by
  unfold step takeEvent
  cases h : s.cmd with
  | nil => simp
  | cons e rest => cases e <;> simp

end Sys2Proof.Machine
end

