-- ==== Sys2Proof/Laws/Frames.lean ====
section
/-! SUPPORT. What each loop can write, from any state at all: the frames of the coder's micro-operations. -/

namespace Sys2Proof.Machine

/-- The state a run leaves, by its end or by a fault, meets `P`; a stuck run leaves none. -/
def Run.Leaves {α : Type} (P : State → Prop) : Run α → Prop
  | .ok _ s => P s
  | .raised _ s => P s
  | .stuck _ => True

theorem Run.Leaves.bind {α β : Type} {r : Run α} {k : α → State → Run β} {P Q : State → Prop}
    (h : r.Leaves P) (hPQ : ∀ s, P s → Q s) (hk : ∀ a s, P s → (k a s).Leaves Q) :
    (r.bind k).Leaves Q := by
  cases r with
  | ok a s => exact hk a s h
  | raised c s => exact hPQ s h
  | stuck f => trivial

/-- `t` is `s` after some bit-out transactions, with `LOW`, `HIGH` and `PENDING` rewritten. -/
def WroteBits (s t : State) : Prop :=
  ∃ sent, t = { afterSent sent s with low := t.low, high := t.high, pending := t.pending }

theorem WroteBits.refl (s : State) : WroteBits s s := ⟨[], by rw [afterSent_nil]⟩

theorem WroteBits.trans {s t u : State} (h : WroteBits s t) (k : WroteBits t u) : WroteBits s u := by
  obtain ⟨a, ha⟩ := h
  obtain ⟨b, hb⟩ := k
  refine ⟨a ++ b, ?_⟩
  rw [hb, ha]; simp [afterSent, List.drop_drop]

theorem boTransact_wrote (item : BoItem) (s : State) : (boTransact item s).Leaves (WroteBits s) := by
  rcases boTransact_cases item s with ⟨h, -⟩ | h <;> rw [h] <;> exact ⟨_, rfl⟩

theorem emitWithFollow_wrote (b : Bit) (s : State) : (emitWithFollow b s).Leaves (WroteBits s) := by
  obtain ⟨sent, h | h⟩ := emitWithFollow_cases b s <;> rw [h] <;> exact ⟨sent, rfl⟩

theorem incPending_wrote (s : State) : (incPending s).Leaves (WroteBits s) := by
  rcases incPending_cases s with ⟨-, h⟩ | ⟨-, h⟩ <;> rw [h] <;> exact ⟨[], by simp [afterSent_nil]⟩

theorem resolve_wrote (c : ECase) (s : State) : (resolve c s).Leaves (WroteBits s) := by
  cases c
  exacts [emitWithFollow_wrote _ s, emitWithFollow_wrote _ s, incPending_wrote s]

/-- From any state, `RenormEnc` writes `LOW`, `HIGH`, `PENDING` and the bit-out port only. -/
theorem renormEnc_wrote (n : Nat) (s : State) : (renormEnc n s).Leaves (WroteBits s) := by
  induction n generalizing s with
  | zero => simp only [renormEnc]; split; exacts [.refl s, trivial]
  | succ n ih =>
    simp only [renormEnc]
    split
    · exact .refl s
    · rename_i c _
      refine (resolve_wrote c s).bind (fun _ h => h) fun _ t ht => ?_
      have hs : WroteBits s (shiftInterval c t) := ht.trans ⟨[], by simp [afterSent_nil]; rfl⟩
      have := ih (shiftInterval c t)
      revert this
      cases renormEnc n (shiftInterval c t) <;> simp only [Run.Leaves] <;> intro h <;> first | exact hs.trans h | trivial

/-- `t` is `s` after some bit-in transactions, with the window's registers rewritten. -/
def ReadBits (s t : State) : Prop :=
  ∃ n, n ≤ s.bi.length
    ∧ t = { s with low := t.low, high := t.high, value := t.value, overrun := t.overrun, bi := s.bi.drop n }

theorem ReadBits.refl (s : State) : ReadBits s s := ⟨0, Nat.zero_le _, rfl⟩

theorem ReadBits.trans {s t u : State} (h : ReadBits s t) (k : ReadBits t u) : ReadBits s u := by
  obtain ⟨a, la, ha⟩ := h
  obtain ⟨b, lb, hb⟩ := k
  have lb' : b ≤ (s.bi.drop a).length := by rw [ha] at lb; exact lb
  refine ⟨a + b, by rw [List.length_drop] at lb'; omega, ?_⟩
  rw [hb, ha]; simp [List.drop_drop]

theorem getBit_read (s : State) : (getBit s).Leaves (ReadBits s) := by
  rcases getBit_cases s with ⟨rest, hb, e⟩ | ⟨b', rest, hb, e⟩ | ⟨hb, ho, e⟩ | ⟨hb, ho, e⟩ <;> rw [e]
  · exact ⟨1, by simp [hb], by simp [hb]⟩
  · exact ⟨1, by simp [hb], by simp [hb]⟩
  · exact .refl s
  · exact ⟨0, Nat.zero_le _, rfl⟩

theorem Run.Leaves.mono {α : Type} {r : Run α} {P Q : State → Prop} (h : r.Leaves P)
    (hPQ : ∀ s, P s → Q s) : r.Leaves Q := by
  cases r with
  | ok a s => exact hPQ s h
  | raised c s => exact hPQ s h
  | stuck f => trivial

/-- From any state, `RenormDec` writes the window's registers and reads the bit-in port only. -/
theorem renormDec_read (n : Nat) (s : State) : (renormDec n s).Leaves (ReadBits s) := by
  induction n generalizing s with
  | zero => simp only [renormDec]; split; exacts [.refl s, trivial]
  | succ n ih =>
    simp only [renormDec]
    split
    · exact .refl s
    · rename_i c _
      refine (getBit_read s).bind (fun _ h => h) fun b t ht => ?_
      exact (ih (shiftWindow c b t)).mono fun u hu =>
        (ht.trans ⟨0, Nat.zero_le _, rfl⟩).trans hu

/-- From any state, reading `VALUE` in writes the window's registers and reads the bit-in port only. -/
theorem primeValue_read (n : Nat) (s : State) : (primeValue n s).Leaves (ReadBits s) := by
  induction n generalizing s with
  | zero => exact .refl s
  | succ n ih =>
    simp only [primeValue]
    refine (getBit_read s).bind (fun _ h => h) fun b t ht => ?_
    exact (ih _).mono fun u hu => (ht.trans ⟨0, Nat.zero_le _, rfl⟩).trans hu
end Sys2Proof.Machine
end

