-- ==== Sys2Proof/Laws/PerInstr.lean ====
section
/-! SUPPORT. Per-instruction lemmas: what the encoding of each command carries in its opcode field. -/

namespace Sys2Proof.Laws.OpcodeField

/-- The word of a command has the command's opcode in bits 31:28, and it is neither of the reserved
opcodes 0x0 and 0xF (R70, R72, R152). -/
def Statement (i : Instr) : Prop :=
  opField (encode i) = opcode i ∧ opcode i ≠ 0x0 ∧ opcode i ≠ 0xF

theorem field_of_assemble (op : BitVec 4) (arg : BitVec 28) : opField (assemble op arg) = op := by
  simp only [opField, assemble]
  ext k hk
  simp only [BitVec.getElem_extractLsb', BitVec.getLsbD_append]
  simp [show ¬ (28 + k < 28) by omega, BitVec.getLsbD_eq_getElem hk]

theorem statement_of_opcode {i : Instr} (op : BitVec 4) (h : opcode i = op) (h0 : op ≠ 0x0)
    (hF : op ≠ 0xF) : Statement i := by
  subst h; exact ⟨field_of_assemble _ _, h0, hF⟩

theorem reset : Statement .reset := statement_of_opcode 0x1 rfl (by decide) (by decide)
theorem rdreg (r : BitVec 4) : Statement (.rdreg r) := statement_of_opcode 0x2 rfl (by decide) (by decide)
theorem rdcum (idx : BitVec 9) : Statement (.rdcum idx) := statement_of_opcode 0x3 rfl (by decide) (by decide)
theorem mInit : Statement .mInit := statement_of_opcode 0x4 rfl (by decide) (by decide)
theorem mProb (sym : BitVec 9) : Statement (.mProb sym) := statement_of_opcode 0x5 rfl (by decide) (by decide)
theorem mLocate (v : BitVec 28) : Statement (.mLocate v) := statement_of_opcode 0x6 rfl (by decide) (by decide)
theorem mObserve (sym : BitVec 9) : Statement (.mObserve sym) := statement_of_opcode 0x7 rfl (by decide) (by decide)
theorem mTotal : Statement .mTotal := statement_of_opcode 0x8 rfl (by decide) (by decide)
theorem eInit : Statement .eInit := statement_of_opcode 0x9 rfl (by decide) (by decide)
theorem eSym (sym : BitVec 9) : Statement (.eSym sym) := statement_of_opcode 0xA rfl (by decide) (by decide)
theorem eFinish : Statement .eFinish := statement_of_opcode 0xB rfl (by decide) (by decide)
theorem dInit : Statement .dInit := statement_of_opcode 0xC rfl (by decide) (by decide)
theorem dSym : Statement .dSym := statement_of_opcode 0xD rfl (by decide) (by decide)
theorem dEnd : Statement .dEnd := statement_of_opcode 0xE rfl (by decide) (by decide)

end Sys2Proof.Laws.OpcodeField
end

