-- ==== Sys2Proof/Tests/Slice0.lean ====
section
/-! SUPPORT. Our own tests: ill-formed terms, hand-written command words, one step of each command with results taken from spec/95_test_vectors.md, and a witness for every obligation that has hypotheses. -/

namespace Sys2Proof.Tests

open Sys2Proof Sys2Proof.Machine

set_option Elab.async false

/-! ## Ill-formed terms (R73 (c), (d)) -/

theorem test_wf_rdreg_8 : (Instr.rdreg 8).wf = false := by decide
theorem test_wf_rdreg_15 : (Instr.rdreg 15).wf = false := by decide
theorem test_wf_rdreg_7 : (Instr.rdreg 7).wf = true := by decide
theorem test_wf_rdcum_258 : (Instr.rdcum 258).wf = false := by decide
theorem test_wf_rdcum_511 : (Instr.rdcum 511).wf = false := by decide
theorem test_wf_rdcum_257 : (Instr.rdcum 257).wf = true := by decide
/-- A symbol above 256 is no reserved encoding (R73, last paragraph). -/
theorem test_wf_mprob_511 : (Instr.mProb 511).wf = true := by decide

/-! ## Words written out bit by bit: op 31:28, arg 27:0 (R70 to R72, R81; V1, V2) -/

theorem test_decode_reset :
    decode 0b0001_0000000000000000000000000000 = .ok .reset := by decide
theorem test_decode_rdreg :
    decode 0b0010_000000000000000000000000_0110 = .ok (.rdreg 6) := by decide
theorem test_decode_rdcum :
    decode 0b0011_0000000000000000000_100000001 = .ok (.rdcum 257) := by decide
theorem test_decode_mInit :
    decode 0b0100_0000000000000000000000000000 = .ok .mInit := by decide
theorem test_decode_mProb :
    decode 0b0101_0000000000000000000_001000001 = .ok (.mProb 65) := by decide
theorem test_decode_mLocate :
    decode 0b0110_1111111111111111111111111111 = .ok (.mLocate 0x0FFFFFFF) := by decide
theorem test_decode_mObserve :
    decode 0b0111_0000000000000000000_100000000 = .ok (.mObserve 256) := by decide
theorem test_decode_mTotal :
    decode 0b1000_0000000000000000000000000000 = .ok .mTotal := by decide
theorem test_decode_eInit :
    decode 0b1001_0000000000000000000000000000 = .ok .eInit := by decide
theorem test_decode_eSym :
    decode 0b1010_0000000000000000000_100000000 = .ok (.eSym 256) := by decide
theorem test_decode_eFinish :
    decode 0b1011_0000000000000000000000000000 = .ok .eFinish := by decide
theorem test_decode_dInit :
    decode 0b1100_0000000000000000000000000000 = .ok .dInit := by decide
theorem test_decode_dSym :
    decode 0b1101_0000000000000000000000000000 = .ok .dSym := by decide
theorem test_decode_dEnd :
    decode 0b1110_0000000000000000000000000000 = .ok .dEnd := by decide
/-- The lowest must-be-zero bit of each format (R71, R73 (b)). -/
theorem test_decode_mustBeZero :
    [0x10000001, 0x20000010, 0x30000200, 0x50000200].map decode
      = [.error .mustBeZero, .error .mustBeZero, .error .mustBeZero, .error .mustBeZero] := by decide

/-! ## One step of each command (expected results from spec/95_test_vectors.md) -/

/-- `s` after the word `w`. -/
def after (w : Nat) (s : State) : State :=
  match step (s.withFetchWord 32 w) with
  | .next t => t
  | .fault _ | .refused _ => { s with mode := .fault, rsp := [] }

/-- The last response. -/
def answer (s : State) : Option Response := s.rsp.getLast?

/-- A session state of the default instance with a fresh model. -/
def at_ (m : Mode) : State := { State.reset with mode := m }

/-- The table after one `M.OBSERVE 65` from fresh (V9). -/
def counted65 : Memory := List.range' 0 66 ++ List.range' 67 192

/-- R150: out of a fault. -/
theorem test_reset_leaves_fault :
    let t := after 0x10000000 { at_ .fault with faultCode := .symbolRange, faultInfo := 5, low := 9 }
    (t.mode, t.faultCode, t.faultInfo, t.low, answer t) = (.idle, .none, 0, 0, some ⟨.ok, 0, 0, 0, 0, 0⟩) := by
  decide +kernel
/-- R169, V57: an invalid set answers `FAULT`. -/
theorem test_reset_invalid :
    let t := after 0x10000000 (State.ofParams ⟨16, 15, 8, .freeze⟩)
    ((statusWord t).toNat, answer t) = (0x27, some ⟨.fault, 0, 0, 0, 0, 0⟩) := by decide +kernel
/-- V46. -/
theorem test_rdreg_config :
    answer (after 0x20000000 State.reset) = some ⟨.ok, 0, 0, 0, 0, 0x01201020⟩ := by decide +kernel
/-- V5: `STATUS` in `ENC_EOS`. -/
theorem test_rdreg_status :
    answer (after 0x20000001 (at_ .encEos)) = some ⟨.ok, 0, 0, 0, 0, 2⟩ := by decide +kernel
/-- V8: the top of the table. -/
theorem test_rdcum_top :
    answer (after 0x30000101 State.reset) = some ⟨.ok, 0, 0, 0, 0, 0x101⟩ := by decide +kernel
/-- V3: an index past the top. -/
theorem test_rdcum_reserved :
    (after 0x30000102 State.reset).faultCode = .illegalCommand := by decide +kernel
/-- V17: the frozen flag is cleared. -/
theorem test_mInit_unfreezes :
    let t := after 0x40000000 { State.reset with frozen := true, cum := counted65 }
    (t.frozen, cumAt t.cum 257) = (false, 257) := by decide +kernel
/-- V9. -/
theorem test_mProb_counted :
    answer (after 0x50000041 { State.reset with cum := counted65 })
      = some ⟨.ok, 65, 65, 67, 258, 0⟩ := by decide +kernel
/-- V9: the second count of symbol 65. -/
theorem test_mLocate_counted :
    answer (after 0x60000042 { State.reset with cum := counted65 })
      = some ⟨.ok, 65, 65, 67, 258, 0⟩ := by decide +kernel
/-- V51. -/
theorem test_mLocate_range :
    ((statusWord (after 0x60000101 State.reset)).toNat, (after 0x60000101 State.reset).faultInfo)
      = (0x87, 0x60000101) := by decide +kernel
/-- V9. -/
theorem test_mObserve_counts : (after 0x70000041 State.reset).cum = counted65 := by decide +kernel
/-- V59: a frozen model rejects, and that is no fault. -/
theorem test_mObserve_rejected :
    let t := after 0x70000005 { State.reset with frozen := true }
    (t.mode, t.cum, answer t) = (.idle, freshTable, some ⟨.rejected, 0, 0, 0, 0, 0⟩) := by
  decide +kernel
/-- V6. -/
theorem test_mTotal : answer (after 0x80000000 State.reset) = some ⟨.ok, 0, 0, 0, 257, 0⟩ := by
  decide +kernel
/-- R130. -/
theorem test_eInit_opens :
    let t := after 0x90000000 { State.reset with low := 7, pending := 3, overrun := 1 }
    (t.mode, t.low, t.high, t.pending, t.overrun) = (.enc, 0, 0xFFFFFFFF, 0, 0) := by decide +kernel
/-- V31: `E.SYM 65` on the fresh model. -/
theorem test_eSym_65 :
    let t := after 0xA0000041 (at_ .enc)
    (t.low, t.high, t.pending, streamBits t.bo)
      = (0x5FA05F80, 0xDF20DEFF, 0, [false, true, false, false, false, false, false]) := by
  decide +kernel
/-- V30: `E.SYM 256`, and only termination remains. -/
theorem test_eSym_eos :
    let t := after 0xA0000100 (at_ .enc)
    (t.mode, streamBits t.bo) = (.encEos, [true, true, true, true, true, true, true, true]) := by
  decide +kernel
/-- V36: the two termination bits and the flush. -/
theorem test_eFinish_terminates :
    let t := after 0xB0000000 (at_ .encEos)
    (t.mode, t.bo) = (.idle, [⟨.bit false, false⟩, ⟨.bit true, false⟩, ⟨.flush, false⟩]) := by
  decide +kernel
/-- V56. -/
theorem test_eFinish_overflow :
    let t := after 0xB0000000 { State.ofParams ⟨32, 16, 2, .renormalize⟩ with mode := .encEos, pending := 3 }
    (t.faultCode, t.pending, t.bo) = (.pendingOverflow, 3, []) := by decide +kernel
/-- V38. -/
theorem test_dInit_primes :
    let t := after 0xC0000000 { State.reset with bi := sourceOfBytes [0x41, 0xBD, 0x80] }
    (t.mode, t.value, t.overrun) = (.dec, 0x41BD8000, 8) := by decide +kernel
/-- V53. -/
theorem test_dInit_exhausted :
    let t := after 0xC0000000 State.reset
    (t.faultCode, t.value, t.overrun) = (.streamExhausted, 0, 30) := by decide +kernel
/-- V40: the first symbol of `41 BD 80`. -/
theorem test_dSym_65 :
    let t := after 0xD0000000 { at_ .dec with value := 0x41BD8000, overrun := 8 }
    (answer t, t.low, t.high, t.value, t.overrun)
      = (some ⟨.ok, 65, 0, 0, 0, 0⟩, 0x5FA05F80, 0xDF20DEFF, 0xDEC00000, 15) := by decide +kernel
/-- V39. -/
theorem test_dSym_eos :
    let t := after 0xD0000000 { at_ .dec with value := 0xFF400000 }
    (answer t, t.mode) = (some ⟨.eos, 256, 0, 0, 0, 0⟩, .decEos) := by decide +kernel
/-- R142. -/
theorem test_dEnd_closes : (after 0xE0000000 (at_ .decEos)).mode = .idle := by decide +kernel
/-- V50: the mode is checked before the symbol. -/
theorem test_order_mode_first :
    (after 0xA0000101 State.reset).faultCode = .illegalSequence := by decide +kernel
/-- V3: a reserved opcode. -/
theorem test_reserved_opcode :
    ((statusWord (after 0xF0000000 State.reset)).toNat, (after 0xF0000000 State.reset).faultInfo)
      = (0x57, 0xF0000000) := by decide +kernel

/-! ## Witnesses: for each obligation with hypotheses, a state and operands that meet them -/

/-- An outcome is this next state, by evaluation. -/
theorem next_of {o : Host.Outcome State Fault Refusal} {t : State}
    (h : (match o with | .next u => decide (u = t) | .fault _ => false | .refused _ => false) = true) :
    o = .next t := by
  split at h
  · rw [of_decide_eq_true h]
  · cases h
  · cases h

/-- An outcome is a next state of which `p` holds, by evaluation. -/
theorem next_with {o : Host.Outcome State Fault Refusal} (p : State → Bool)
    (h : (match o with | .next u => p u | .fault _ => false | .refused _ => false) = true) :
    ∃ t, o = .next t ∧ p t = true := by
  split at h
  · exact ⟨_, rfl, h⟩
  · cases h
  · cases h

theorem witness_DecodeOfEncode : (Instr.rdcum 257).wf = true ∧ (Instr.mLocate 0x0FFFFFFF).wf = true := by
  decide
theorem witness_EncodeOfDecode : decode 0x20000007 = .ok (.rdreg 7) := by decide

theorem witness_StepRunsDecodedCommand :
    (State.reset.withFetchWord 32 0x50000041).cmd = .command 0x50000041 :: []
    ∧ decode 0x50000041 = .ok (.mProb 65) := by decide

/-- One word for each kind of reserved encoding, both modes, and words next to them that decode, one of
which raises another fault. -/
theorem witness_ReservedWordsFault :
    (at_ .enc).mode ≠ .fault ∧ (at_ .fault).mode = .fault
    ∧ [0x00000000, 0xF0000000, 0x10000001, 0x50000200, 0x20000010, 0x20000008, 0x30000102].map decode
      = [.error .opcode, .error .opcode, .error .mustBeZero, .error .mustBeZero, .error .mustBeZero,
        .error .registerNumber, .error .tableIndex]
    ∧ decode 0x30000101 = .ok (.rdcum 257)
    ∧ (let s := { at_ .enc with cmd := .command 0xA0000101 :: [] }
      let t := { at_ .fault with
        faultCode := .symbolRange, faultInfo := 0xA0000101, rsp := [⟨.fault, 0, 0, 0, 0, 0⟩] }
      s.cmd = .command 0xA0000101 :: [] ∧ decode 0xA0000101 = .ok (.eSym 257) ∧ s.mode ≠ .fault
      ∧ step s = .next t ∧ t.mode = .fault) :=
  ⟨by decide, rfl, by decide, by decide, rfl, by decide, by decide, next_of (by decide +kernel), rfl⟩

theorem witness_RstAtAnyTime_between : { at_ .dec with cmd := [.rst] }.cmd = .rst :: [] := rfl

/-- `rst` after the first of the three transactions of `E.FINISH`. -/
theorem witness_RstAtAnyTime_during :
    let s := { at_ .enc with cmd := [.rstDuring 0xB0000000 1] }
    let u := { at_ .idle with
      bo := [⟨.bit false, false⟩, ⟨.bit true, false⟩, ⟨.flush, false⟩], rsp := [⟨.ok, 0, 0, 0, 0, 0⟩] }
    s.cmd = .rstDuring 0xB0000000 1 :: []
    ∧ step { s with cmd := .command 0xB0000000 :: [] } = .next u
    ∧ u.bo = s.bo ++ [⟨.bit false, false⟩, ⟨.bit true, false⟩, ⟨.flush, false⟩]
    ∧ u.boErr = s.boErr.drop 3 ∧ 0 ≤ s.bi.length ∧ u.bi = s.bi.drop 0 :=
  ⟨rfl, next_of (by decide +kernel), rfl, rfl, Nat.zero_le _, rfl⟩

/-- The words next to the two ranges that are executed in `FAULT` mode. -/
theorem witness_FaultModeAnswersFault :
    (at_ .fault).mode = .fault
    ∧ ∀ w ∈ ([0x0FFFFFFF, 0x10000001, 0x1FFFFFFF, 0x20000008] : List Word),
      w ≠ 0x10000000 ∧ ¬ (0x20000000 ≤ w.toNat ∧ w.toNat ≤ 0x20000007) := by
  refine ⟨rfl, fun w hw => ?_⟩
  simp only [List.mem_cons, List.not_mem_nil, or_false] at hw
  rcases hw with rfl | rfl | rfl | rfl <;> simp

theorem witness_FaultIsSticky :
    let s := { at_ .fault with cmd := .command 0x90000000 :: [] }
    s.cmd = .command 0x90000000 :: [] ∧ s.mode = .fault ∧ (0x90000000 : Word) ≠ 0x10000000
    ∧ step s = .next { at_ .fault with rsp := [⟨.fault, 0, 0, 0, 0, 0⟩] } :=
  ⟨rfl, rfl, by decide, next_of (by decide +kernel)⟩

/-- Each clause in the modes next to those where its commands are legal. -/
theorem witness_IllegalSequenceFaults :
    ((at_ .enc).mode ≠ .fault ∧ (at_ .enc).mode ≠ .idle ∧ (at_ .enc).mode ≠ .dec
      ∧ (at_ .enc).mode ≠ .decEos)
    ∧ ((at_ .encEos).mode ≠ .fault ∧ (at_ .encEos).mode ≠ .enc)
    ∧ ((at_ .dec).mode ≠ .fault ∧ (at_ .dec).mode ≠ .enc ∧ (at_ .dec).mode ≠ .encEos)
    ∧ ((at_ .decEos).mode ≠ .fault ∧ (at_ .decEos).mode ≠ .dec) := by decide

theorem witness_SymbolRangeFaults :
    257 ≤ (257 : BitVec 9).toNat ∧ 257 ≤ (511 : BitVec 9).toNat ∧ (at_ .dec).mode ≠ .fault
    ∧ (at_ .idle).mode = .idle ∧ (at_ .enc).mode = .enc := by decide

theorem witness_ModeChangesOnlyAsListed :
    exec .dEnd (at_ .decEos) = .next { at_ .idle with rsp := [⟨.ok, 0, 0, 0, 0, 0⟩] } :=
  next_of (by decide +kernel)
theorem witness_OneResponsePerCommand :
    exec .mInit State.reset = .next { State.reset with rsp := [⟨.ok, 0, 0, 0, 0, 0⟩] } :=
  next_of (by decide +kernel)
theorem witness_CommandsChangeOnlyWhatIsListed :
    exec .dEnd (at_ .dec) = .next { at_ .idle with rsp := [⟨.ok, 0, 0, 0, 0, 0⟩] }
    ∧ writesTable .dEnd = false ∧ writesInterval .dEnd = false ∧ writesPending .dEnd = false
    ∧ writesWindow .dEnd = false ∧ writesStream .dEnd = false ∧ readsStream .dEnd = false
    ∧ (at_ .idle).mode ≠ .fault ∧ Instr.dEnd ≠ .reset :=
  ⟨next_of (by decide +kernel), rfl, rfl, rfl, rfl, rfl, rfl, by decide, by decide⟩

/-- Both clauses at the bounds of R7: `CODE_BITS` at `FREQ_BITS + 2` and one below. -/
theorem witness_ResetValues :
    (30 = 28 + 2 ∧ (⟨30, 28, 1, .freeze⟩ : Params).valid = true
      ∧ (⟨29, 28, 1, .freeze⟩ : Params).valid = false)
    ∧ (28 + 2 ≤ 30 ∧ 9 ≤ 28 ∧ 28 ≤ 28 ∧ 30 ≤ 255 ∧ 1 ≤ 1 ∧ 1 ≤ 255) ∧ ¬ (28 + 2 ≤ 29) := by decide

theorem witness_RdregReadsRegister :
    [(configWord State.reset.params).toNat, (statusWord State.reset).toNat, State.reset.low,
      State.reset.high, State.reset.value, State.reset.pending, State.reset.overrun,
      State.reset.faultInfo.toNat][(0 : BitVec 4).toNat]? = some 0x01201020
    ∧ [(configWord State.reset.params).toNat, (statusWord State.reset).toNat, State.reset.low,
      State.reset.high, State.reset.value, State.reset.pending, State.reset.overrun,
      State.reset.faultInfo.toNat][(7 : BitVec 4).toNat]? = some 0 := by decide +kernel

theorem witness_ConfigLayout :
    (⟨255, 255, 255, .freeze⟩ : Params).codeBits ≤ 255 ∧ (⟨255, 255, 255, .freeze⟩ : Params).freqBits ≤ 255
    ∧ (⟨255, 255, 255, .freeze⟩ : Params).pendBits ≤ 255 := by decide
theorem witness_StatusLayout : (⟨11, 9, 1, .renormalize⟩ : Params).valid = true := by decide

theorem witness_RdcumReadsWord :
    (at_ .decEos).mode ≠ .fault ∧ (0 : BitVec 9).toNat ≤ 257 ∧ (257 : BitVec 9).toNat ≤ 257 := by decide
theorem witness_MInitFreshModel : State.reset.mode = .idle := rfl
theorem witness_MProbAnswersBounds :
    (at_ .enc).mode ≠ .fault ∧ (0 : BitVec 9).toNat ≤ 256 ∧ (256 : BitVec 9).toNat ≤ 256 := by decide

/-- The fresh table meets the table invariants. -/
theorem fresh_table : TableInv Params.default freshTable false where
  length := by decide +kernel
  zero := by decide +kernel
  increasing := by decide +kernel
  total := by decide +kernel
  live := by decide +kernel
  stopped := by decide +kernel

/-- The frozen table of V14: symbol 0 counted up to the ceiling 511. -/
def frozenTable : Memory := 0 :: List.range' 255 257

theorem frozen_table : TableInv ⟨16, 9, 8, .freeze⟩ frozenTable true where
  length := by decide +kernel
  zero := by decide +kernel
  increasing := by decide +kernel
  total := by decide +kernel
  live := by decide +kernel
  stopped := by decide +kernel

theorem witness_MLocateFindsOwner :
    (at_ .enc).mode ≠ .fault ∧ TableInv (at_ .enc).params (at_ .enc).cum (at_ .enc).frozen
    ∧ (0 : BitVec 28).toNat < cumAt (at_ .enc).cum 257
    ∧ (256 : BitVec 28).toNat < cumAt (at_ .enc).cum 257 :=
  ⟨by decide, fresh_table, by decide +kernel, by decide +kernel⟩
theorem witness_MLocateValueRange :
    (at_ .dec).mode ≠ .fault ∧ cumAt (at_ .dec).cum 257 ≤ (257 : BitVec 28).toNat
    ∧ cumAt (at_ .dec).cum 257 ≤ (0x0FFFFFFF : BitVec 28).toNat := by decide +kernel
/-- A live and a frozen model, at both ends of the alphabet. -/
theorem witness_MObserveCounts :
    State.reset.mode = .idle ∧ State.reset.cum.length = 258 ∧ (0 : BitVec 9).toNat ≤ 256
    ∧ (256 : BitVec 9).toNat ≤ 256 ∧ State.reset.frozen = false
    ∧ { State.reset with frozen := true }.frozen = true := by decide +kernel
theorem witness_MTotalAnswersLiveTotal : (at_ .encEos).mode ≠ .fault := by decide
theorem witness_LocateInvertsProb :
    TableInv Params.default freshTable false ∧ 256 ≤ 256 ∧ cumAt freshTable 256 ≤ 256
    ∧ 256 < cumAt freshTable (256 + 1) :=
  ⟨fresh_table, le_rfl, by decide +kernel, by decide +kernel⟩
/-- A total at the ceiling. -/
theorem witness_RescaleHalvesFrequencies :
    (⟨16, 9, 8, .renormalize⟩ : Params).valid = true ∧ frozenTable.length = 258
    ∧ (∀ s, s ≤ 256 → cumAt frozenTable s < cumAt frozenTable (s + 1)) ∧ cumAt frozenTable 0 = 0
    ∧ cumAt frozenTable 257 ≤ (⟨16, 9, 8, .renormalize⟩ : Params).ceil :=
  ⟨by decide, frozen_table.length, frozen_table.increasing, frozen_table.zero, by decide +kernel⟩
/-- A frozen model and a live one. -/
theorem witness_TableInvariantKept :
    (⟨16, 9, 8, .freeze⟩ : Params).valid = true ∧ TableInv ⟨16, 9, 8, .freeze⟩ frozenTable true
    ∧ Params.default.valid = true ∧ TableInv Params.default freshTable false ∧ 256 ≤ 256 :=
  ⟨by decide, frozen_table, by decide, fresh_table, le_rfl⟩

theorem witness_ShlShiftsOneBit :
    1 ≤ Params.default.codeBits ∧ 0xFFFFFFFF ≤ Params.default.maxCode := by decide
/-- The top symbol of the fresh model in the full interval (V19). -/
theorem witness_NarrowStaysInside :
    256 < 257 ∧ 257 ≤ 257 ∧ 257 ≤ State.reset.params.ceil ∧ State.reset.low ≤ State.reset.high
    ∧ 257 ≤ State.reset.high - State.reset.low + 1 := by decide +kernel

theorem accepts_nil {s : State} (h : s.boErr = []) : SinkAccepts s := by simp [SinkAccepts, h]
/-- A sink that accepts `n` transactions and fails the next. -/
theorem takes_exactly {s : State} {n : Nat} {later : List Bool}
    (h : s.boErr = List.replicate n false ++ true :: later) : SinkTakes s n := by
  intro e he
  rw [h, List.take_left' (List.length_replicate ..)] at he
  exact List.eq_of_mem_replicate he
theorem sound_bits {s : State} (bits : List Bit) (h : s.bi = bits.map .bit) : SourceSound s := by
  intro a ha
  rw [h, List.mem_map] at ha
  obtain ⟨b, -, rfl⟩ := ha
  exact fun e => by cases e

/-- The sink fails only after the four bits. -/
theorem witness_EmitWithFollowRules_emits :
    let s := { at_ .enc with pending := 3, boErr := [false, false, false, false, true] }
    SinkTakes s (1 + s.pending) := takes_exactly (n := 4) (later := []) rfl
/-- The failure on the bit itself, and on the last of the inverted bits. -/
theorem witness_EmitWithFollowRules_fails :
    (let s := { at_ .enc with pending := 2, boErr := [true] };
      0 ≤ s.pending ∧ s.boErr = List.replicate 0 false ++ true :: [])
    ∧ (let s := { at_ .enc with pending := 2, boErr := [false, false, true] };
      2 ≤ s.pending ∧ s.boErr = List.replicate 2 false ++ true :: []) := by decide
theorem witness_GetBitRules :
    { at_ .dec with bi := [.err] }.bi = .err :: []
    ∧ { at_ .dec with bi := [.bit true] }.bi = .bit true :: []
    ∧ { at_ .dec with overrun := 30 }.bi = [] ∧ { at_ .dec with overrun := 30 }.overrun = 32 - 2
    ∧ { at_ .dec with overrun := 29 }.overrun ≠ 32 - 2 := by decide

/-! ### Completed iterations, worked out by hand from R116 and R117 (V25, V30, V31, V40, V54, V58) -/

/-- The instance of V55 and V56. -/
def small : Params := ⟨32, 16, 2, .renormalize⟩

/-- V25: E3 twice, up to the last count that `PENDING` can hold. -/
theorem encSteps_middle : EncSteps Params.default 0x60000000 0x9FFFFFFF (2 ^ 32 - 3) [] 0 0xFFFFFFFF
    (2 ^ 32 - 1) :=
  .e3 (by unfold Underflow; decide) (by decide) (.e3 (by unfold Underflow; decide) (by decide) .done)
/-- V58 (a): E1 and E2 of `E.SYM 65` on the fresh model. -/
theorem encSteps_65_two : EncSteps Params.default 0x40BF40BF 0x41BE41BD 0 [false, true]
    0x02FD02FC 0x06F906F7 0 :=
  .e1 (by decide) (.e2 (out := []) (by decide) .done)
/-- V31 with `PENDING = q` before: E1, E2, then E1 five times. -/
theorem encSteps_65 (q : Nat) : EncSteps small 0x40BF40BF 0x41BE41BD q
    (false :: (List.replicate q true ++ [true, false, false, false, false, false]))
    0x5FA05F80 0xDF20DEFF 0 :=
  .e1 (by decide) (.e2 (out := List.replicate 5 false) (by decide)
    (.e1 (out := List.replicate 4 false) (by decide) (.e1 (out := List.replicate 3 false) (by decide)
      (.e1 (out := List.replicate 2 false) (by decide) (.e1 (out := [false]) (by decide)
        (.e1 (out := []) (by decide) .done))))))
/-- V31 on the default instance. -/
theorem encSteps_65_default : EncSteps Params.default 0x40BF40BF 0x41BE41BD 0
    [false, true, false, false, false, false, false] 0x5FA05F80 0xDF20DEFF 0 :=
  .e1 (by decide) (.e2 (out := List.replicate 5 false) (by decide)
    (.e1 (out := List.replicate 4 false) (by decide) (.e1 (out := List.replicate 3 false) (by decide)
      (.e1 (out := List.replicate 2 false) (by decide) (.e1 (out := [false]) (by decide)
        (.e1 (out := []) (by decide) .done))))))
/-- V30: E2 eight times. -/
theorem encSteps_256 : EncSteps Params.default 0xFF00FF00 0xFFFFFFFF 0 (List.replicate 8 true)
    0x00FF0000 0xFFFFFFFF 0 :=
  .e2 (out := List.replicate 7 true) (by decide) (.e2 (out := List.replicate 6 true) (by decide)
    (.e2 (out := List.replicate 5 true) (by decide) (.e2 (out := List.replicate 4 true) (by decide)
      (.e2 (out := List.replicate 3 true) (by decide) (.e2 (out := List.replicate 2 true) (by decide)
        (.e2 (out := [true]) (by decide) (.e2 (out := []) (by decide) .done)))))))
/-- The interval of symbol 128 on the fresh model, `7F807F80 / 807F807E` (V54): one E3. -/
theorem encSteps_128 : EncSteps Params.default 0x7F807F80 0x807F807E (2 ^ 32 - 2) [] 0x7F00FF00
    0x80FF00FD (2 ^ 32 - 1) :=
  .e3 (by unfold Underflow; decide) (by decide) .done
/-- V40: the seven iterations of the first `D.SYM`. -/
theorem decSteps_65 : DecSteps Params.default 0x40BF40BF 0x41BE41BD 0x41BD8000 (List.replicate 7 false)
    0x5FA05F80 0xDF20DEFF 0xDEC00000 :=
  .e1 (by decide) (.e2 (by decide) (.e1 (by decide) (.e1 (by decide) (.e1 (by decide) (.e1 (by decide)
    (.e1 (by decide) .done))))))
/-- V54: the six iterations before the fetch that raises. -/
theorem decSteps_65_six : DecSteps Params.default 0x40BF40BF 0x41BE41BD 0x41000000
    (List.replicate 6 false) 0x2FD02FC0 0x6F906F7F 0x40000000 :=
  .e1 (by decide) (.e2 (by decide) (.e1 (by decide) (.e1 (by decide) (.e1 (by decide) (.e1 (by decide)
    .done)))))
theorem settled_65 (p : Params) (h : p = Params.default ∨ p = small) : Settled p 0x5FA05F80 0xDF20DEFF := by
  rcases h with rfl | rfl <;> (unfold Settled; decide)

/-- Iterations from an interval given by its value. -/
theorem encSteps_from {p : Params} {l h l0 h0 q l' h' q' : Nat} {bits : List Bit}
    (steps : EncSteps p l0 h0 q bits l' h' q') (hl : l = l0) (hh : h = h0) :
    EncSteps p l h q bits l' h' q' := hl ▸ hh ▸ steps
theorem decSteps_from {p : Params} {l h l0 h0 v l' h' v' : Nat} {bits : List Bit}
    (steps : DecSteps p l0 h0 v bits l' h' v') (hl : l = l0) (hh : h = h0) :
    DecSteps p l h v bits l' h' v' := hl ▸ hh ▸ steps

/-- The source is at its end, `OVERRUN` after `n` zeros at most its maximum. -/
theorem gives_zeros {s : State} {n : Nat} (h : s.bi = []) (ho : s.overrun + n ≤ s.params.overrunMax) :
    SourceGives s (List.replicate n false) := by
  simp [SourceGives, sourceBits, h, ho]

/-- An interval in which E3 applies (V25), up to the last count, on a sink whose next answer is an error;
and room in `PENDING` for exactly `CODE_BITS` counts. -/
theorem witness_RenormEncFollowsCases :
    (let s := { at_ .enc with
        low := 0x60000000, high := 0x9FFFFFFF, pending := 2 ^ 32 - 3, boErr := [true] };
      s.params.valid = true ∧ s.low ≤ s.high ∧ s.high ≤ s.params.maxCode
      ∧ EncTrace s.params s.low s.high s.pending [] 0 0xFFFFFFFF (2 ^ 32 - 1) ∧ SinkTakes s 0)
    ∧ (let s := { at_ .enc with pending := 2 ^ 32 - 1 - 32 };
      s.pending + s.params.codeBits ≤ s.params.pendMax) :=
  ⟨⟨by decide, by decide, by decide, ⟨encSteps_middle, by unfold Settled; decide⟩,
    takes_exactly (n := 0) rfl⟩, by decide⟩
/-- The interval of V40 on a source at its end, `OVERRUN` ending at its maximum; and the fewest bits
that are always enough. -/
theorem witness_RenormDecFollowsCases :
    (let s := { at_ .dec with
        low := 0x40BF40BF, high := 0x41BE41BD, value := 0x41BD8000, overrun := 23 };
      s.params.valid = true ∧ s.low ≤ s.value ∧ s.value ≤ s.high ∧ s.high ≤ s.params.maxCode
      ∧ DecTrace s.params s.low s.high s.value (List.replicate 7 false) 0x5FA05F80 0xDF20DEFF 0xDEC00000
      ∧ SourceGives s (List.replicate 7 false) ∧ s.overrun ≤ s.params.overrunMax)
    ∧ (let s := { at_ .dec with
        low := 0x60000000, high := 0x9FFFFFFF, value := 0x7ABCDEF0, bi := [true, false].map .bit };
      s.low ≤ s.value ∧ s.value ≤ s.high ∧ SourceSound s
      ∧ s.params.codeBits + s.overrun ≤ s.bi.length + s.params.overrunMax) :=
  ⟨⟨by decide, by decide, by decide, by decide, ⟨decSteps_65, settled_65 _ (.inl rfl)⟩,
    gives_zeros rfl (by decide), by decide⟩, by decide, by decide, sound_bits _ rfl, by decide⟩
/-- The narrowest settled interval (V24). -/
theorem witness_SettledRangeExceedsTotal :
    Params.default.valid = true ∧ Settled Params.default 0x3FFFFFFF 0x80000000 := by
  unfold Settled; decide
/-- `VALUE` at both ends of the interval. -/
theorem witness_ScaleFindsTheSymbol :
    TableInv (at_ .dec).params (at_ .dec).cum (at_ .dec).frozen
    ∧ (let s := { at_ .dec with value := 0xFFFFFFFF }; s.low ≤ s.value ∧ s.value ≤ s.high)
    ∧ (let s := { at_ .dec with value := 0 }; s.low ≤ s.value ∧ s.value ≤ s.high)
    ∧ 256 ≤ 256 ∧ cumAt (at_ .dec).cum 256 ≤ scaledValue { at_ .dec with value := 0xFFFFFFFF }
    ∧ scaledValue { at_ .dec with value := 0xFFFFFFFF } < cumAt (at_ .dec).cum (256 + 1) :=
  ⟨fresh_table, by decide, by decide, le_rfl, by decide +kernel, by decide +kernel⟩
/-- A session state of an instance with a fresh model and the full interval meets the invariant,
whatever is attached to the ports and pending from the host. -/
theorem session_invariant_of (p : Params) (hp : p.valid = true) (ht : TableInv p freshTable false)
    (hs : Settled p 0 p.maxCode) (m : Mode) (h : m ≠ .fault) (v q o : Nat) (hv : v ≤ p.maxCode)
    (hq : q ≤ p.pendMax) (ho : o ≤ p.overrunMax) (cmd : List HostEvent) (boErr : List Bool)
    (bi : List BiAnswer) :
    Invariant { State.ofParams p with
      mode := m, value := v, pending := q, overrun := o, cmd := cmd, boErr := boErr, bi := bi } where
  form := by show Memory.wf freshTable = true; decide +kernel
  table := fun _ => ht
  ordered := Nat.zero_le _
  highFits := le_rfl
  valueFits := hv
  pendingFits := hq
  overrunFits := ho
  faultIff := by simp [State.ofParams, hp, h]
  infoZero := fun _ => rfl
  precision := by simp [State.ofParams, hp]
  settled := fun _ => hs
  window := fun _ => ⟨Nat.zero_le _, hv⟩

theorem full_settled (p : Params) (h : p = Params.default ∨ p = small) : Settled p 0 p.maxCode := by
  rcases h with rfl | rfl <;> (unfold Settled; decide)

theorem session_invariant (m : Mode) (h : m ≠ .fault) (v : Nat) (hv : v ≤ 0xFFFFFFFF)
    (cmd : List HostEvent) (boErr : List Bool) (bi : List BiAnswer) :
    Invariant { at_ m with value := v, cmd := cmd, boErr := boErr, bi := bi } :=
  session_invariant_of Params.default (by decide) fresh_table (full_settled _ (.inl rfl)) m h v 0 0 hv
    (Nat.zero_le _) (Nat.zero_le _) cmd boErr bi

/-- The same with a count in `PENDING`. -/
theorem pending_invariant (q : Nat) (hq : q ≤ 2 ^ 32 - 1) (boErr : List Bool) :
    Invariant { at_ .enc with pending := q, boErr := boErr } :=
  session_invariant_of Params.default (by decide) fresh_table (full_settled _ (.inl rfl)) .enc
    (by decide) 0 q 0 (Nat.zero_le _) hq (Nat.zero_le _) [] boErr []

/-- The same with a count in `OVERRUN`. -/
theorem overrun_invariant (v o : Nat) (hv : v ≤ 0xFFFFFFFF) (ho : o ≤ 30) (bi : List BiAnswer) :
    Invariant { at_ .dec with value := v, overrun := o, bi := bi } :=
  session_invariant_of Params.default (by decide) fresh_table (full_settled _ (.inl rfl)) .dec
    (by decide) v 0 o hv (Nat.zero_le _) ho [] [] bi

theorem small_table : TableInv small freshTable false :=
  ⟨fresh_table.length, fresh_table.zero, fresh_table.increasing, fresh_table.total, fresh_table.live,
    fun h => nomatch h⟩

/-- V55 and V56: `PEND_BITS = 2`. -/
theorem witness_PendingOverflowFaults :
    let s := { State.ofParams ⟨32, 16, 2, .renormalize⟩ with
      mode := .encEos, pending := 3, low := 0x7FFFFFF8, high := 0x80000007 }
    (s.mode = .enc ∨ s.mode = .encEos) ∧ s.pending = 2 ^ s.params.pendBits - 1
    ∧ 1 ≤ s.params.codeBits ∧ s.params.oneFourth ≤ s.low ∧ s.low < s.params.half
    ∧ s.params.half ≤ s.high ∧ s.high < s.params.threeFourths := by decide
/-- `E.SYM 128` on the fresh model: E3 at once with `PENDING` at its maximum, and one E3 below it. -/
theorem witness_PendingOverflowFaults_eSym :
    (let s := { at_ .enc with pending := 2 ^ 32 - 1, boErr := [true] };
      Invariant s ∧ s.mode = .enc ∧ (128 : BitVec 9).toNat ≤ 256
      ∧ EncSteps s.params (narrowedLow s 128) (narrowedHigh s 128) s.pending [] 0x7F807F80 0x807F807E
        (2 ^ s.params.pendBits - 1)
      ∧ Underflow s.params 0x7F807F80 0x807F807E ∧ SinkTakes s 0)
    ∧ (let s := { at_ .enc with pending := 2 ^ 32 - 2, boErr := [true] };
      Invariant s
      ∧ EncSteps s.params (narrowedLow s 128) (narrowedHigh s 128) s.pending [] 0x7F00FF00 0x80FF00FD
        (2 ^ s.params.pendBits - 1)
      ∧ Underflow s.params 0x7F00FF00 0x80FF00FD ∧ SinkTakes s 0) :=
  ⟨⟨pending_invariant _ le_rfl _, rfl, by decide, encSteps_from .done (by decide +kernel) (by decide +kernel),
      by unfold Underflow; decide, takes_exactly (n := 0) rfl⟩,
    pending_invariant _ (by decide) _, encSteps_from encSteps_128 (by decide +kernel) (by decide +kernel),
    by unfold Underflow; decide, takes_exactly (n := 0) rfl⟩

theorem witness_EInitOpensSession : State.reset.mode = .idle := rfl
/-- An instance with fewer counts than `CODE_BITS` and `PENDING` at its maximum, on a sink that fails
after the ten bits; and both ends of the alphabet under the second clause. -/
theorem witness_ESymEncodesSymbol :
    (let s := { State.ofParams small with
        mode := .enc, value := 0, pending := 3, overrun := 0, cmd := []
        boErr := List.replicate 10 false ++ [true], bi := [] };
      Invariant s ∧ s.mode = .enc ∧ (65 : BitVec 9).toNat ≤ 256
      ∧ EncTrace s.params (narrowedLow s 65) (narrowedHigh s 65) s.pending
        [false, true, true, true, true, false, false, false, false, false] 0x5FA05F80 0xDF20DEFF 0
      ∧ SinkTakes s 10)
    ∧ (Invariant (at_ .enc) ∧ (0 : BitVec 9).toNat ≤ 256 ∧ (256 : BitVec 9).toNat ≤ 256
      ∧ SinkAccepts (at_ .enc)
      ∧ (at_ .enc).pending + (at_ .enc).params.codeBits ≤ (at_ .enc).params.pendMax) :=
  ⟨⟨session_invariant_of small (by decide) small_table (full_settled _ (.inr rfl)) .enc
    (by decide) 0 3 0 (by decide) (by decide) (by decide) [] _ [], rfl, by decide,
    ⟨encSteps_from (encSteps_65 3) (by decide +kernel) (by decide +kernel),
      settled_65 _ (.inr rfl)⟩, takes_exactly rfl⟩,
    session_invariant .enc (by decide) 0 (by decide) [] [] [], by decide, by decide, accepts_nil rfl,
    by decide⟩

/-- Both modes, `PENDING` one below its maximum, and a sink that fails after the flush. -/
theorem witness_EFinishTerminates :
    (let s := { at_ .enc with pending := 2 ^ 32 - 2 };
      (s.mode = .enc ∨ s.mode = .encEos) ∧ s.pending ≠ 2 ^ s.params.pendBits - 1
      ∧ SinkTakes s (s.pending + 3))
    ∧ (let s := { at_ .encEos with boErr := [false, false, false, true] };
      (s.mode = .enc ∨ s.mode = .encEos) ∧ s.pending ≠ 2 ^ s.params.pendBits - 1
      ∧ SinkTakes s (s.pending + 3)) :=
  ⟨⟨by decide, by decide, fun e he => by simp [at_, State.reset, State.ofParams] at he⟩, by decide,
    by decide, takes_exactly (n := 3) (later := []) rfl⟩
/-- The first bit of an E1 and of an E2, a follow bit, and the third transaction of V58 (a), after two
completed iterations. -/
theorem witness_ESymFailsPrecisely :
    (let s := { at_ .enc with pending := 0, boErr := [true] };
      Invariant s ∧ s.mode = .enc ∧ (0 : BitVec 9).toNat ≤ 256
      ∧ EncSteps s.params (narrowedLow s 0) (narrowedHigh s 0) s.pending [] (narrowedLow s 0)
        (narrowedHigh s 0) 0
      ∧ narrowedHigh s 0 < s.params.half ∧ s.boErr = List.replicate (0 + 0) false ++ true :: []
      ∧ EncSteps s.params (narrowedLow s 256) (narrowedHigh s 256) s.pending [] (narrowedLow s 256)
        (narrowedHigh s 256) 0
      ∧ s.params.half ≤ narrowedLow s 256)
    ∧ (let s := { at_ .enc with pending := 3, boErr := [false, false, true] };
      Invariant s
      ∧ EncSteps s.params (narrowedLow s 0) (narrowedHigh s 0) s.pending [] (narrowedLow s 0)
        (narrowedHigh s 0) 3
      ∧ 2 ≤ 3 ∧ s.boErr = List.replicate (0 + 2) false ++ true :: [])
    ∧ (let s := { at_ .enc with pending := 0, boErr := [false, false, true] };
      Invariant s ∧ (65 : BitVec 9).toNat ≤ 256
      ∧ EncSteps s.params (narrowedLow s 65) (narrowedHigh s 65) s.pending [false, true] 0x02FD02FC
        0x06F906F7 0
      ∧ 0x06F906F7 < s.params.half ∧ s.boErr = List.replicate (2 + 0) false ++ true :: []) :=
  ⟨⟨pending_invariant _ (by decide) _, rfl, by decide, .done, by decide +kernel, rfl, .done,
    by decide +kernel⟩, ⟨pending_invariant _ (by decide) _, .done, by decide, rfl⟩,
    pending_invariant _ (by decide) _, by decide,
    encSteps_from encSteps_65_two (by decide +kernel) (by decide +kernel), by decide, rfl⟩

/-- The flush, the first termination bit and the last one. -/
theorem witness_EFinishFlushFails :
    let s := fun errs => { at_ .encEos with pending := 1, boErr := errs }
    ((s []).mode = .enc ∨ (s []).mode = .encEos) ∧ (s []).pending ≠ 2 ^ (s []).params.pendBits - 1
    ∧ (s [false, false, false, true]).boErr = List.replicate ((s []).pending + 2) false ++ true :: []
    ∧ (0 ≤ (s []).pending + 1 ∧ (s [true]).boErr = List.replicate 0 false ++ true :: [])
    ∧ (2 ≤ (s []).pending + 1
      ∧ (s [false, false, true]).boErr = List.replicate 2 false ++ true :: []) := by decide

/-- The unpadded two bits of V38, and a source that fails only after the `CODE_BITS` reads. -/
theorem witness_DInitPrimesValue :
    State.reset.mode = .idle
    ∧ (let s := { State.reset with bi := [true, false].map .bit };
      (∀ a ∈ s.bi.take s.params.codeBits, a ≠ .err) ∧ 2 ≤ s.bi.length)
    ∧ (let s := { State.reset with bi := List.replicate 32 (BiAnswer.bit false) ++ [BiAnswer.err] };
      (∀ a ∈ s.bi.take s.params.codeBits, a ≠ .err) ∧ 2 ≤ s.bi.length) := by decide
/-- The empty input and the one bit of V53. -/
theorem witness_DInitStreamExhausted :
    State.reset.mode = .idle ∧ State.reset.params.valid = true ∧ SourceSound State.reset
    ∧ State.reset.bi.length < 2
    ∧ (let s := { State.reset with bi := [true].map .bit }; SourceSound s ∧ s.bi.length < 2) :=
  ⟨rfl, by decide, sound_bits [] rfl, by decide, sound_bits [true] rfl, by decide⟩
/-- The largest `VALUE`. -/
theorem witness_DSymMeetsEos :
    let s := { at_ .dec with value := 0xFFFFFFFF, cmd := [], boErr := [], bi := [] }
    Invariant s ∧ s.mode = .dec ∧ cumAt s.cum 256 ≤ scaledValue s :=
  ⟨session_invariant .dec (by decide) _ (by decide) [] [] [], rfl, by decide +kernel⟩
/-- The narrowed interval of symbol 65 on the fresh model (V31). -/
theorem narrowed_65 :
    narrowedLow (at_ .dec) 65 = 0x40BF40BF ∧ narrowedHigh (at_ .dec) 65 = 0x41BE41BD := by
  decide +kernel
/-- `Scale` finds symbol 65 (V40). -/
theorem scaled_65 :
    cumAt (at_ .dec).cum 65 ≤ scaledValue { at_ .dec with value := 0x41BD8000 }
    ∧ scaledValue { at_ .dec with value := 0x41BD8000 } < cumAt (at_ .dec).cum (65 + 1) := by
  decide +kernel
/-- V40: symbol 65 on a source at its end, with `OVERRUN` ending below its maximum and at it; and the
first symbol and the last byte (V29) with the fewest bits that are always enough. -/
theorem witness_DSymDecodesByte :
    (∀ o ∈ [8, 23],
      let s := { at_ .dec with value := 0x41BD8000, overrun := o, bi := [] };
      Invariant s ∧ s.mode = .dec ∧ 65 ≤ 255 ∧ cumAt s.cum 65 ≤ scaledValue s
      ∧ scaledValue s < cumAt s.cum (65 + 1)
      ∧ DecTrace s.params (narrowedLow s 65) (narrowedHigh s 65) s.value (List.replicate 7 false)
        0x5FA05F80 0xDF20DEFF 0xDEC00000
      ∧ SourceGives s (List.replicate 7 false))
    ∧ (let s := { at_ .dec with value := 0, cmd := [], boErr := [], bi := [true, false].map .bit };
      Invariant s ∧ s.mode = .dec ∧ 0 ≤ 255 ∧ cumAt s.cum 0 ≤ scaledValue s
      ∧ scaledValue s < cumAt s.cum (0 + 1) ∧ SourceSound s
      ∧ s.params.codeBits + s.overrun ≤ s.bi.length + s.params.overrunMax)
    ∧ (let s := { at_ .dec with
        value := 0xFF00FEFF, cmd := [], boErr := [], bi := [true, false].map .bit };
      Invariant s ∧ s.mode = .dec ∧ 255 ≤ 255 ∧ cumAt s.cum 255 ≤ scaledValue s
      ∧ scaledValue s < cumAt s.cum (255 + 1) ∧ SourceSound s
      ∧ s.params.codeBits + s.overrun ≤ s.bi.length + s.params.overrunMax) := by
  refine ⟨fun o ho => ?_,
    ⟨session_invariant .dec (by decide) _ (by decide) [] [] _, rfl, by decide, by decide +kernel,
      by decide +kernel, sound_bits _ rfl, by decide⟩,
    session_invariant .dec (by decide) _ (by decide) [] [] _, rfl, le_rfl, by decide +kernel,
      by decide +kernel, sound_bits _ rfl, by decide⟩
  have h23 : o ≤ 23 := by simp only [List.mem_cons, List.not_mem_nil, or_false] at ho; omega
  refine ⟨overrun_invariant _ o (by decide) (by omega) [], rfl, by decide, scaled_65.1, scaled_65.2,
    ⟨decSteps_from decSteps_65 narrowed_65.1 narrowed_65.2, settled_65 _ (.inl rfl)⟩,
    gives_zeros rfl (by show o + 7 ≤ 30; omega)⟩
/-- The failure on the first read and on the last of the 32. -/
theorem witness_DInitFailsPrecisely :
    State.reset.mode = .idle ∧ State.reset.params.valid = true
    ∧ (([] : List Bit).length < 32 ∧ [BiAnswer.err] = ([] : List Bit).map .bit ++ .err :: [])
    ∧ ((List.replicate 31 true).length < 32
      ∧ List.replicate 31 (BiAnswer.bit true) ++ [.err]
        = (List.replicate 31 true).map .bit ++ .err :: []) := by decide
/-- V54's second input: the first fetch raises in both ways. -/
theorem witness_DSymFailsPrecisely :
    let d := fun bi => { at_ .dec with value := 0x80000000, overrun := 30, bi := bi }
    (Invariant (d []) ∧ Invariant (d [.err])) ∧ (d []).mode = .dec ∧ 128 ≤ 255
    ∧ cumAt (d []).cum 128 ≤ scaledValue (d []) ∧ scaledValue (d []) < cumAt (d []).cum (128 + 1)
    ∧ DecSteps (d []).params (narrowedLow (d []) 128) (narrowedHigh (d []) 128) (d []).value []
      (narrowedLow (d []) 128) (narrowedHigh (d []) 128) (d []).value
    ∧ (SourceGives (d []) [] ∧ SourceGives (d [.err]) [])
    ∧ ¬ Settled (d []).params (narrowedLow (d []) 128) (narrowedHigh (d []) 128)
    ∧ ((d []).bi.length ≤ 0 ∧ (d []).overrun + (0 - (d []).bi.length) = (d []).params.overrunMax)
    ∧ (d [.err]).bi.drop 0 = .err :: [] :=
  ⟨⟨overrun_invariant _ _ (by decide) (by decide) _, overrun_invariant _ _ (by decide) (by decide) _⟩,
    rfl, by decide, by decide +kernel, by decide +kernel, .done,
    ⟨by simp [SourceGives, sourceBits], by simp [SourceGives, sourceBits]⟩,
    by unfold Settled; decide +kernel, by decide, rfl⟩
/-- V54's first input: the seventh fetch raises after six completed iterations, at the source's end and
on `bi_err`. -/
theorem witness_DSymFailsPrecisely_later :
    let d := fun (o : Nat) (bi : List BiAnswer) => { at_ .dec with value := 0x41000000, overrun := o, bi := bi }
    let e := d 0 (List.replicate 6 (.bit false) ++ [.err])
    (Invariant (d 24 []) ∧ Invariant e) ∧ 65 ≤ 255
    ∧ cumAt e.cum 65 ≤ scaledValue e ∧ scaledValue e < cumAt e.cum (65 + 1)
    ∧ DecSteps e.params (narrowedLow e 65) (narrowedHigh e 65) e.value (List.replicate 6 false)
      0x2FD02FC0 0x6F906F7F 0x40000000
    ∧ (SourceGives (d 24 []) (List.replicate 6 false) ∧ SourceGives e (List.replicate 6 false))
    ∧ ¬ Settled e.params 0x2FD02FC0 0x6F906F7F
    ∧ ((d 24 []).bi.length ≤ 6
      ∧ (d 24 []).overrun + (6 - (d 24 []).bi.length) = (d 24 []).params.overrunMax)
    ∧ e.bi.drop 6 = .err :: [] :=
  ⟨⟨overrun_invariant _ _ (by decide) (by decide) _,
    overrun_invariant _ _ (by decide) (by decide) _⟩, by decide, by decide +kernel, by decide +kernel,
    decSteps_from decSteps_65_six (by decide +kernel) (by decide +kernel),
    ⟨gives_zeros rfl (by decide), by unfold SourceGives; decide⟩, by unfold Settled; decide, by decide,
    rfl⟩
theorem witness_DEndCloses :
    ((at_ .dec).mode = .dec ∨ (at_ .dec).mode = .decEos)
    ∧ ((at_ .decEos).mode = .dec ∨ (at_ .decEos).mode = .decEos) := by decide

/-- `E.SYM 65` and V40's decoder on a source at its end; `E.SYM 256` and V39's decoder. -/
theorem witness_DecodeReplaysEncode :
    let e := { at_ .enc with pending := 0, boErr := [] }
    let d := fun v => { at_ .dec with value := v, overrun := 8, bi := [] }
    Invariant e ∧ (Invariant (d 0x41BD8000) ∧ Invariant (d 0xFF400000)) ∧ e.mode = .enc
    ∧ (d 0).mode = .dec ∧ ((65 : BitVec 9).toNat ≤ 255 ∧ (256 : BitVec 9).toNat = 256)
    ∧ e.params = (d 0).params ∧ e.cum = (d 0).cum ∧ e.frozen = (d 0).frozen
    ∧ e.low = (d 0).low ∧ e.high = (d 0).high
    ∧ (narrowedLow e 65 ≤ 0x41BD8000 ∧ 0x41BD8000 ≤ narrowedHigh e 65)
    ∧ (narrowedLow e 256 ≤ 0xFF400000 ∧ 0xFF400000 ≤ narrowedHigh e 256)
    ∧ EncTrace e.params (narrowedLow e 65) (narrowedHigh e 65) e.pending
      [false, true, false, false, false, false, false] 0x5FA05F80 0xDF20DEFF 0
    ∧ EncTrace e.params (narrowedLow e 256) (narrowedHigh e 256) e.pending (List.replicate 8 true)
      0x00FF0000 0xFFFFFFFF 0
    ∧ (SinkTakes e 7 ∧ SinkTakes e 8)
    ∧ DecTrace (d 0x41BD8000).params (narrowedLow (d 0x41BD8000) 65) (narrowedHigh (d 0x41BD8000) 65)
      (d 0x41BD8000).value (List.replicate 7 false) 0x5FA05F80 0xDF20DEFF 0xDEC00000
    ∧ SourceGives (d 0x41BD8000) (List.replicate 7 false) :=
  ⟨pending_invariant 0 (by decide) [], ⟨overrun_invariant _ _ (by decide) (by decide) _,
    overrun_invariant _ _ (by decide) (by decide) _⟩, rfl, rfl, by decide, rfl, rfl, rfl, rfl, rfl,
    by decide +kernel, by decide +kernel, 
    ⟨encSteps_from encSteps_65_default (by decide +kernel) (by decide +kernel), settled_65 _ (.inl rfl)⟩,
    ⟨encSteps_from encSteps_256 (by decide +kernel) (by decide +kernel), by unfold Settled; decide⟩, ⟨.of_accepts (accepts_nil rfl) _, .of_accepts (accepts_nil rfl) _⟩,
    ⟨decSteps_from decSteps_65 (by decide +kernel) (by decide +kernel), settled_65 _ (.inl rfl)⟩, gives_zeros rfl (by decide)⟩

/-- The empty input (V30). -/
theorem witness_DecodeOfEncodedStream :
    State.reset.params.valid = true ∧ State.reset.mode = .idle ∧ SinkAccepts State.reset
    ∧ State.reset.bo = []
    ∧ (∃ e', issue (expand (.encode [])) State.reset = .next e'
      ∧ (decide (e'.mode = .idle) && decide ((streamBits e'.bo).length = 10)) = true)
    ∧ ∀ e' : State, { State.reset with bi := (streamBits e'.bo ++ [true]).map .bit }.mode = .idle :=
  ⟨by decide, rfl, accepts_nil rfl, rfl, next_with _ (by decide +kernel), fun _ => rfl⟩

theorem witness_ResponseFieldsFit :
    Invariant (at_ .decEos)
    ∧ exec .dEnd (at_ .decEos) = .next { at_ .idle with rsp := [⟨.ok, 0, 0, 0, 0, 0⟩] } :=
  ⟨session_invariant .decEos (by decide) 0 (by decide) [] [] [], next_of (by decide +kernel)⟩

theorem witness_EveryStepKeepsInvariant :
    let s := { at_ .enc with value := 0, cmd := [.command 0xE0000000], boErr := [], bi := [] }
    Invariant s ∧ step s = .next { at_ .enc with
      mode := .fault, faultCode := .illegalSequence, faultInfo := 0xE0000000
      rsp := [⟨.fault, 0, 0, 0, 0, 0⟩] } :=
  ⟨session_invariant .enc (by decide) 0 (by decide) _ [] [], next_of (by decide +kernel)⟩
theorem witness_EveryStepCompletes :
    Invariant { at_ .idle with
      value := 7, cmd := [.rstDuring 0xC0000000 3], boErr := [true], bi := [.err] } :=
  session_invariant .idle (by decide) 7 (by decide) _ _ _

end Sys2Proof.Tests
end

section
/-! PROOFS. The scope family: a step runs the decoded command (O5), one response per command (O13), the
settled range (O36), and the completeness of every step (O58). -/

namespace Sys2Proof.Machine

/-! ## A word on the command port -/

/-- A command word at the head of the queue is taken and run (R12, R76). -/
theorem step_of_command {s : State} {w : Word} {rest : List HostEvent} (h : s.cmd = .command w :: rest) :
    step s = runWord w { s with cmd := rest } := by
  simp only [step, takeEvent, h]

/-- A word that decodes is run as its command (R33, R58). -/
theorem runWord_of_decode {w : Word} {i : Instr} (h : decode w = .ok i) (s : State) :
    runWord w s = exec i s := by
  simp only [runWord, h]

/-! ## Frames of the micro-operations that can be stuck, and of the table update -/

theorem narrow_frame (b : Bounds) (s : State) :
    (narrow b s).Leaves fun t => t = { s with low := t.low, high := t.high } := by
  unfold narrow
  split
  exacts [rfl, trivial]

theorem scale_frame (s : State) : (scale s).Leaves (· = s) := by
  unfold scale
  split
  exacts [rfl, trivial]

@[simp] theorem observe_params (sym : Nat) (s : State) : (observe sym s).2.params = s.params := by
  rw [observe_frame]

@[simp] theorem observe_low (sym : Nat) (s : State) : (observe sym s).2.low = s.low := by
  rw [observe_frame]

@[simp] theorem observe_high (sym : Nat) (s : State) : (observe sym s).2.high = s.high := by
  rw [observe_frame]

@[simp] theorem observe_pending (sym : Nat) (s : State) : (observe sym s).2.pending = s.pending := by
  rw [observe_frame]

@[simp] theorem observe_rsp (sym : Nat) (s : State) : (observe sym s).2.rsp = s.rsp := by
  rw [observe_frame]

@[simp] theorem afterSymbol_rsp (sym : Nat) (s : State) : (afterSymbol sym s).rsp = s.rsp := by
  unfold afterSymbol
  split <;> rfl

/-! ## No pseudocode responds by itself -/

/-- The run leaves the responses `l` as they were, whether it ends or raises. -/
def Run.KeepsRsp {α : Type} (l : List Response) (r : Run α) : Prop := r.Leaves (·.rsp = l)

theorem Run.KeepsRsp.bind {α β : Type} {l : List Response} {r : Run α} {k : α → State → Run β}
    (h : r.KeepsRsp l) (hk : ∀ a t, t.rsp = l → (k a t).KeepsRsp l) : (r.bind k).KeepsRsp l :=
  Run.Leaves.bind h (fun _ ht => ht) hk

theorem narrow_keepsRsp (b : Bounds) (s : State) : (narrow b s).KeepsRsp s.rsp :=
  (narrow_frame b s).mono fun _ h => by rw [h]

theorem scale_keepsRsp (s : State) : (scale s).KeepsRsp s.rsp :=
  (scale_frame s).mono fun _ h => by rw [h]

theorem WroteBits.rsp_eq {s t : State} (h : WroteBits s t) : t.rsp = s.rsp := by
  obtain ⟨sent, ht⟩ := h
  rw [ht]
  rfl

theorem ReadBits.rsp_eq {s t : State} (h : ReadBits s t) : t.rsp = s.rsp := by
  obtain ⟨n, -, ht⟩ := h
  rw [ht]

/-- A command's own pseudocode delivers nothing: the response is the end of the command (R15, R74). -/
theorem body_keepsRsp (i : Instr) (s : State) : (body i s).KeepsRsp s.rsp := by
  cases i with
  | reset | rdcum | mInit | mProb | mTotal | eInit | dEnd => exact rfl
  | rdreg r =>
    simp only [body]
    split <;> exact rfl
  | mLocate v =>
    simp only [body]
    split <;> exact rfl
  | mObserve sym => exact observe_rsp sym.toNat s
  | eSym sym =>
    refine (narrow_keepsRsp _ s).bind fun _ t ht => ?_
    refine Run.KeepsRsp.bind ((renormEnc_wrote _ _).mono fun u hu => ?_) fun _ u hu => ?_
    · rw [hu.rsp_eq, observe_rsp, ht]
    · exact (afterSymbol_rsp _ u).trans hu
  | eFinish =>
    refine Run.KeepsRsp.bind ((incPending_wrote s).mono fun _ h => h.rsp_eq) fun _ t ht => ?_
    refine Run.KeepsRsp.bind ((emitWithFollow_wrote _ t).mono fun _ h => h.rsp_eq.trans ht) fun _ u hu => ?_
    exact Run.KeepsRsp.bind ((boTransact_wrote .flush u).mono fun _ h => h.rsp_eq.trans hu) fun _ _ hv => hv
  | dInit =>
    exact Run.KeepsRsp.bind ((primeValue_read _ (openSession s)).mono fun _ h => h.rsp_eq) fun _ _ ht => ht
  | dSym =>
    refine (scale_keepsRsp s).bind fun scaled t ht => ?_
    split
    · exact ht
    · refine Run.KeepsRsp.bind ((narrow_keepsRsp _ _).mono fun u hu => ?_) fun _ u hu => ?_
      · rw [hu, observe_rsp, ht]
      · exact Run.KeepsRsp.bind ((renormDec_read _ u).mono fun _ h => h.rsp_eq.trans hu) fun _ _ hv => hv

/-- The end of a command delivers one response after those its pseudocode left (R74, R178). -/
theorem conclude_rsp {w : Word} {r : Run Response} {l : List Response} (hr : r.KeepsRsp l) {t : State}
    (h : conclude w r = .next t) : ∃ a, t.rsp = l ++ [a] := by
  rcases conclude_next h with ⟨a, u, rfl, rfl⟩ | ⟨c, u, rfl, rfl⟩
  · exact ⟨a, congrArg (· ++ [a]) hr⟩
  · exact ⟨⟨.fault, 0, 0, 0, 0, 0⟩, congrArg (· ++ [_]) hr⟩

/-! ## Runs that are never stuck -/

/-- The run is not stuck, and where it ends without a fault its state meets `P`. -/
def Run.Completes {α : Type} (P : State → Prop) : Run α → Prop
  | .ok _ s => P s
  | .raised _ _ => True
  | .stuck _ => False

/-- The run is not stuck. -/
abbrev Run.Answers {α : Type} (r : Run α) : Prop := r.Completes fun _ => True

theorem Run.Completes.bind {α β : Type} {r : Run α} {k : α → State → Run β} {P Q : State → Prop}
    (h : r.Completes P) (hk : ∀ a t, P t → (k a t).Completes Q) : (r.bind k).Completes Q := by
  cases r with
  | ok a t => exact hk a t h
  | raised c t => trivial
  | stuck f => exact h

theorem conclude_answers (w : Word) {r : Run Response} (h : r.Answers) : ∃ t, conclude w r = .next t := by
  cases r with
  | ok a s => exact ⟨_, conclude_ok w a s⟩
  | raised c s => exact ⟨_, conclude_raised w c s⟩
  | stuck f => exact h.elim

theorem boTransact_answers (item : BoItem) (s : State) : (boTransact item s).Answers := by
  rcases boTransact_cases item s with ⟨h, -⟩ | h <;> rw [h] <;> trivial

theorem emitWithFollow_answers (b : Bit) (s : State) : (emitWithFollow b s).Answers := by
  obtain ⟨sent, h | h⟩ := emitWithFollow_cases b s <;> rw [h] <;> trivial

theorem incPending_answers (s : State) : (incPending s).Answers := by
  rcases incPending_cases s with ⟨-, h⟩ | ⟨-, h⟩ <;> rw [h] <;> trivial

/-- A bit fetch is never stuck and does not touch the interval (R114). -/
theorem getBit_completes (s : State) :
    (getBit s).Completes fun t => t.params = s.params ∧ t.low = s.low ∧ t.high = s.high := by
  rcases getBit_cases s with ⟨_, _, h⟩ | ⟨_, _, _, h⟩ | ⟨_, _, h⟩ | ⟨_, _, h⟩ <;> rw [h]
  exacts [trivial, ⟨rfl, rfl, rfl⟩, trivial, ⟨rfl, rfl, rfl⟩]

theorem primeValue_answers (n : Nat) (s : State) : (primeValue n s).Answers := by
  induction n generalizing s with
  | zero => trivial
  | succ n ih => exact (getBit_completes s).bind fun _ _ _ => ih _

/-- `CODE_BITS` doublings take any range to the whole code space (R116). -/
theorem codeSpace_le_range (s : State) : 2 ^ s.params.codeBits ≤ range s * 2 ^ s.params.codeBits :=
  Nat.le_mul_of_pos_left _ (Nat.succ_pos _)

theorem renormEnc_answers (s : State) (hc : 2 ≤ s.params.codeBits) (ho : s.low ≤ s.high)
    (hf : s.high ≤ s.params.maxCode) (hp : s.pending ≤ s.params.pendMax) :
    (renormEnc s.params.codeBits s).Answers := by
  obtain ⟨_, _, _, _, -, -, -, ⟨-, h⟩ | ⟨_, -, h⟩⟩ :=
    renormEnc_cases _ s hc ho hf hp (codeSpace_le_range s) <;> rw [h] <;> trivial

/-- The decode loop ends wherever `VALUE` is: each iteration doubles the range (R116, R117), so `n` of
them settle the interval once `2^n` times the range covers the code space. -/
theorem renormDec_answers (n : Nat) (s : State) (hc : 2 ≤ s.params.codeBits) (ho : s.low ≤ s.high)
    (hf : s.high ≤ s.params.maxCode) (hr : 2 ^ s.params.codeBits ≤ range s * 2 ^ n) :
    (renormDec n s).Answers := by
  induction n generalizing s with
  | zero =>
    have hn := full_range_settled hc hf (by simpa [range] using hr)
    simp only [renormDec, hn]
    trivial
  | succ n ih =>
    cases hcase : renormCase s.params s.low s.high with
    | none =>
      simp only [renormDec, hcase]
      trivial
    | some c =>
      simp only [renormDec, hcase]
      refine (getBit_completes s).bind fun b t ⟨hp, hl, hh⟩ => ?_
      have ha : c.applies t.params t.low t.high := by
        rw [hp, hl, hh]
        exact renormCase_some hcase
      rw [← hp] at hc hf hr
      rw [← hh] at hf
      have ho' : t.low ≤ t.high := by rwa [hl, hh]
      have hrange : range s = range t := by simp only [range, hl, hh]
      obtain ⟨-, -, h1, h2, h3⟩ := shiftInterval_arith hc ha ho' hf
      have h3' : range (shiftWindow c b t) = 2 * range t := h3
      refine ih (shiftWindow c b t) hc h1 h2 ?_
      calc 2 ^ t.params.codeBits ≤ range s * 2 ^ (n + 1) := hr
        _ = range (shiftWindow c b t) * 2 ^ n := by rw [h3', hrange]; ring

/-! ## What the invariant gives a session -/

/-- Outside `FAULT` mode the parameter set is valid (R29, R169). -/
theorem Invariant.valid {s : State} (h : Invariant s) (hm : s.mode ≠ .fault) : s.params.valid = true := by
  by_contra hv
  have hp : s.faultCode = .precisionViolation := h.precision.mpr (by simpa using hv)
  exact hm (h.faultIff.mpr (by simp [hp]))

/-- In a session `Narrow` with the bounds of any symbol meets its requirements, whatever was done to the
rest of the state, and leaves an ordered interval that fits (R111, R119). -/
theorem narrow_completes {s : State} (h : Invariant s) (hm : s.mode ≠ .fault) {k : Nat} (hk : k ≤ 256)
    (t : State) (hp : t.params = s.params) (hl : t.low = s.low) (hh : t.high = s.high)
    (hq : t.pending = s.pending) :
    (narrow (prob k s.cum) t).Completes fun u =>
      2 ≤ u.params.codeBits ∧ u.low ≤ u.high ∧ u.high ≤ u.params.maxCode
        ∧ u.pending ≤ u.params.pendMax := by
  have hv := h.valid hm
  obtain ⟨hn, -, h1, h2⟩ := narrow_prob hv (h.table hv) (h.settled hm) hk t hp hl hh
  have hc := s.params.codeBits_ge hv
  rw [hn]
  refine ⟨?_, h1, ?_, ?_⟩
  · rw [hp]; omega
  · rw [hp]; exact h2.trans h.highFits
  · rw [hp]; exact hq.trans_le h.pendingFits

/-- In a decode session `Scale` meets its requirements (R120, R121). -/
theorem scale_completes {s : State} (h : Invariant s) (hm : s.mode = .dec) :
    (scale s).Completes (· = s) := by
  obtain ⟨hlo, hhi⟩ := h.window (.inl hm)
  have ht := h.table (h.valid (by simp [hm]))
  have hpos : 0 < totalCount s.cum :=
    Nat.lt_of_le_of_lt (Nat.zero_le _) (ht.increasing 256 le_rfl)
  rw [scale, if_pos ⟨hlo, hhi, hpos⟩]
  exact rfl

theorem eSym_answers {s : State} (h : Invariant s) (hm : s.mode = .enc) {sym : BitVec 9}
    (hs : sym.toNat ≤ 256) : (body (.eSym sym) s).Answers := by
  refine (narrow_completes h (by simp [hm]) hs s rfl rfl rfl rfl).bind fun _ t ⟨hc, ho, hf, hq⟩ => ?_
  have hr := renormEnc_answers (observe sym.toNat t).2
    (by simpa using hc) (by simpa using ho) (by simpa using hf) (by simpa using hq)
  rw [observe_params] at hr
  exact hr.bind fun _ _ _ => trivial

theorem decodeSymbol_answers {s : State} (h : Invariant s) (hm : s.mode ≠ .fault) {k : Nat}
    (hk : k ≤ 256) : (decodeSymbol (prob k s.cum) s).Answers := by
  refine (narrow_completes h hm hk _ (observe_params _ s) (observe_low _ s) (observe_high _ s)
    (observe_pending _ s)).bind fun _ t ⟨hc, ho, hf, _⟩ => ?_
  exact (renormDec_answers _ t hc ho hf (codeSpace_le_range t)).bind fun _ _ _ => trivial

theorem dSym_answers {s : State} (h : Invariant s) (hm : s.mode = .dec) : (body .dSym s).Answers := by
  refine (scale_completes h hm).bind fun scaled t ht => ?_
  subst ht
  split
  · trivial
  · rw [locate_eq_prob]
    exact decodeSymbol_answers h (by simp [hm]) (locate_symbol_le scaled t.cum)

/-- Under the invariant the pseudocode of a command that passed the prologue is never stuck. -/
theorem body_answers {i : Instr} {s : State} (h : Invariant s) (hl : legalMode i s.mode = true)
    (hs : symbolTooLarge i = false) : (body i s).Answers := by
  cases i with
  | reset | rdcum | mInit | mProb | mObserve | mTotal | eInit | dEnd => trivial
  | rdreg r =>
    simp only [body]
    split <;> trivial
  | mLocate v =>
    simp only [body]
    split <;> trivial
  | eSym sym =>
    exact eSym_answers h (by simpa [legalMode] using hl)
      (by simpa [symbolTooLarge, symbolOperand] using hs)
  | eFinish =>
    exact (incPending_answers s).bind fun _ t _ =>
      (emitWithFollow_answers _ t).bind fun _ u _ =>
        (boTransact_answers .flush u).bind fun _ _ _ => trivial
  | dInit => exact (primeValue_answers _ _).bind fun _ _ _ => trivial
  | dSym => exact dSym_answers h (by simpa [legalMode] using hl)

/-- Under the invariant every command answers a next state: no rule's requirement fails. -/
theorem exec_answers (i : Instr) {s : State} (h : Invariant s) : ∃ t, exec i s = .next t := by
  rw [exec_eq_command]
  rcases command_cases i (body i) s with ⟨-, -, e⟩ | ⟨_, -, -, e⟩ | ⟨-, -, hl, hs, e⟩
  · exact ⟨_, e⟩
  · exact ⟨_, e⟩
  · rw [e]
    exact conclude_answers _ (body_answers h hl hs)

theorem runReserved_answers (w : Word) (s : State) : ∃ t, runReserved w s = .next t := by
  unfold runReserved
  split <;> exact ⟨_, rfl⟩

theorem runWord_answers (w : Word) {s : State} (h : Invariant s) : ∃ t, runWord w s = .next t := by
  cases hd : decode w with
  | ok i =>
    rw [runWord_of_decode hd]
    exact exec_answers i h
  | error e =>
    simp only [runWord, hd]
    exact runReserved_answers w s

theorem resetDuring_answers (w : Word) (k : Nat) {s : State} (h : Invariant s) :
    ∃ t, resetDuring w k s = .next t := by
  obtain ⟨t, ht⟩ := runWord_answers w h
  exact ⟨coreReset (cutStreams k s t), by simp only [resetDuring, ht]⟩

/-- The invariant says nothing of the host's queue (log 2). -/
theorem Invariant.withCmd {s : State} (h : Invariant s) (q : List HostEvent) :
    Invariant { s with cmd := q } :=
  { h with }

/-! ## The statements -/

/-- Settles O58: outside the sessions' commands nothing can be stuck; `E.SYM` and `D.SYM` narrow a
settled interval, and their loops double the range, so they end within `CODE_BITS` iterations. -/
theorem everyStepCompletes : Obligations.EveryStepCompletes := by
  intro s h
  rcases step_cases s with ⟨-, e⟩ | ⟨w, rest, -, e⟩ | ⟨rest, -, e⟩ | ⟨w, k, rest, -, e⟩
    | ⟨a, rest, -, e⟩ | ⟨a, rest, -, e⟩
  · exact ⟨_, e⟩
  · rw [e]
    exact runWord_answers w (h.withCmd rest)
  · exact ⟨_, e⟩
  · rw [e]
    exact resetDuring_answers w k (h.withCmd rest)
  · exact ⟨_, e⟩
  · exact ⟨_, e⟩

/-- Settles O13: the prologue's answers and the end of a command each append one response, and the
pseudocode between them appends none. -/
theorem oneResponsePerCommand : Obligations.OneResponsePerCommand := by
  intro i s t h
  rw [exec_eq_command] at h
  rcases command_cases i (body i) s with ⟨-, -, e⟩ | ⟨c, -, -, e⟩ | ⟨-, -, -, -, e⟩ <;> rw [e] at h
  · cases h
    exact ⟨_, answerFaulted_rsp s⟩
  · cases h
    exact ⟨_, takeFault_rsp c (encode i) s⟩
  · exact conclude_rsp (body_keepsRsp i s) h

/-- Settles O36: a settled interval straddles `HALF` and reaches beyond one of the middle quarters, and
two bits of headroom keep the ceiling below a quarter (R7 (a)). -/
theorem settledRangeExceedsTotal : Obligations.SettledRangeExceedsTotal := by
  intro p l h hv hs
  have hceil : 2 ^ p.freqBits - 1 < 2 ^ (p.codeBits - 2) := p.ceil_lt_oneFourth hv
  have hhalf := p.half_eq (by have := p.codeBits_ge hv; omega)
  have hthree := p.threeFourths_eq
  have hrange : 2 ^ (p.codeBits - 2) + 2 ≤ h - l + 1 := by
    change p.oneFourth + 2 ≤ h - l + 1
    obtain ⟨hl, hh, hside | hside⟩ := hs <;> omega
  exact ⟨hrange, by omega⟩

/-- Settles O5, by the two equations of the command port. -/
theorem stepRunsDecodedCommand : Obligations.StepRunsDecodedCommand := by
  intro s w rest i hcmd hdec
  rw [step_of_command hcmd, runWord_of_decode hdec]

end Sys2Proof.Machine
end

section
/-! PROOFS. The state family, first part: the invariant of the whole state at reset (O56) and over every
step (O57). -/

namespace Sys2Proof.Machine

/-! ## The table -/

theorem freshTable_inv {p : Params} (hv : p.valid = true) : TableInv p freshTable false := by
  have hceil := p.ceil_ge hv
  have htop : cumAt freshTable 257 = 257 := cumAt_freshTable 257 le_rfl
  refine ⟨freshTable_length, cumAt_freshTable 0 (by omega), fun k hk => ?_, ?_, fun _ => ?_, nofun⟩
  · rw [cumAt_freshTable k (by omega), cumAt_freshTable (k + 1) (by omega)]
    exact Nat.lt_succ_self k
  · omega
  · omega

/-- A counted table is still increasing from 0, and its total is one more (R93). -/
theorem bump_increasing {m : Memory} (hlen : m.length = 258) {sym : Nat} (hs : sym ≤ 256)
    (hzero : cumAt m 0 = 0) (hinc : ∀ k, k ≤ 256 → cumAt m k < cumAt m (k + 1)) :
    cumAt (bump sym m) 0 = 0 ∧ (∀ k, k ≤ 256 → cumAt (bump sym m) k < cumAt (bump sym m) (k + 1))
      ∧ cumAt (bump sym m) 257 = cumAt m 257 + 1 := by
  refine ⟨?_, fun k hk => ?_, ?_⟩
  · rw [cumAt_bump _ _ _ (by omega), if_neg (by omega), hzero]
  · have := hinc k hk
    rw [cumAt_bump _ _ _ (by omega), cumAt_bump _ _ _ (by omega)]
    split <;> split <;> omega
  · rw [cumAt_bump _ _ _ (by omega), if_pos (by omega)]

/-- A rescaled table is increasing from 0, and its total is below a ceiling that the old total did not
exceed: halving leaves half the total and half a count for each symbol (R94). -/
theorem rescale_inv {p : Params} (hv : p.valid = true) {m : Memory} (hlen : m.length = 258)
    (hinc : ∀ k, k ≤ 256 → cumAt m k < cumAt m (k + 1)) (htotal : cumAt m 257 ≤ p.ceil) :
    TableInv p (rescale m) false := by
  have hceil := p.ceil_ge hv
  have hdist := rescale_distance m hlen hinc 257 le_rfl
  refine ⟨rescale_length m hlen, cumAt_rescale_zero m, fun k hk => ?_, ?_, fun _ => ?_, nofun⟩
  · have := hinc k hk
    rw [cumAt_rescale_succ m hlen k hk]
    omega
  · omega
  · omega

/-- `Observe` keeps the table's invariants: a live total is below the ceiling, so that counting reaches
it at most, where the policy freezes the table or halves it (R93, R94, R103). -/
theorem observe_tableInv {s : State} (hv : s.params.valid = true)
    (ht : TableInv s.params s.cum s.frozen) {sym : Nat} (hs : sym ≤ 256) :
    TableInv s.params (observe sym s).2.cum (observe sym s).2.frozen := by
  have hlen : (bump sym s.cum).length = 258 := by rw [bump_length, ht.length]
  obtain ⟨hzero, hinc, htop⟩ := bump_increasing ht.length hs ht.zero ht.increasing
  rcases observe_cases sym s with ⟨-, e⟩ | ⟨hf, hc, e⟩ | ⟨hf, hc, hp, e⟩ | ⟨hf, hc, hp, e⟩ <;> rw [e]
  · exact ht
  · exact ⟨hlen, hzero, hinc, hc.le, fun _ => hc, fun hfrozen => by simp [hf] at hfrozen⟩
  · have hlive := ht.live hf
    have hle : cumAt (bump sym s.cum) 257 ≤ s.params.ceil := by omega
    exact ⟨hlen, hzero, hinc, hle, nofun, fun _ => ⟨hp, hle.antisymm hc⟩⟩
  · have hlive := ht.live hf
    rw [hf]
    exact rescale_inv hv hlen hinc (by omega)

/-! ## What holds while a command runs -/

/-- What holds of the registers after every micro-step of a command that passed the prologue outside
`FAULT` mode: the part of the invariant that a fault needs, which says neither that the interval is
settled nor that it holds `VALUE` (R178, R179). -/
structure Running (m : Mode) (s : State) : Prop where
  mode : s.mode = m
  active : m ≠ .fault
  valid : s.params.valid = true
  table : TableInv s.params s.cum s.frozen
  ordered : s.low ≤ s.high
  highFits : s.high ≤ s.params.maxCode
  valueFits : s.value ≤ s.params.maxCode
  pendingFits : s.pending ≤ s.params.pendMax
  overrunFits : s.overrun ≤ s.params.overrunMax
  noFault : s.faultCode = .none
  noInfo : s.faultInfo = 0

theorem Invariant.running {s : State} (h : Invariant s) {m : Mode} (hm : s.mode = m)
    (ha : m ≠ .fault) : Running m s :=
  have hcode : s.faultCode = .none := not_not.mp fun hne => ha (hm ▸ h.faultIff.mpr hne)
  have hv := h.valid (hm ▸ ha)
  { h with
    mode := hm, active := ha, valid := hv, table := h.table hv, noFault := hcode
    noInfo := h.infoZero (.inl hcode) }

/-- Outside `FAULT` mode the invariant is `Running`, with the interval settled and the window holding
`VALUE` in a decode session. -/
theorem Running.invariant {m : Mode} {s : State} (h : Running m s)
    (hs : Settled s.params s.low s.high)
    (hw : m = .dec ∨ m = .decEos → s.low ≤ s.value ∧ s.value ≤ s.high) : Invariant s :=
  { h with
    form := (memory_wf_iff s.cum).mpr h.table.length
    table := fun _ => h.table
    faultIff := by simp [h.mode, h.active, h.noFault]
    infoZero := fun _ => h.noInfo
    precision := by simp [h.noFault, h.valid]
    settled := fun _ => hs
    window := h.mode ▸ hw }

/-- A fault taken while a command runs leaves a state of the invariant (R178). -/
theorem Running.takeFault {m : Mode} {s : State} (h : Running m s) {c : FaultCode} (w : Word)
    (hc : c ≠ .none) (hp : c ≠ .precisionViolation) : Invariant (takeFault c w s) :=
  { h with
    form := (memory_wf_iff s.cum).mpr h.table.length
    table := fun _ => h.table
    faultIff := by simp [hc]
    infoZero := by simp [hc, hp]
    precision := by simp [hp, h.valid]
    settled := by simp
    window := by simp }

section
variable {m : Mode} {s : State} (h : Running m s)
include h

theorem Running.withMode {m' : Mode} (ha : m' ≠ .fault) : Running m' { s with mode := m' } :=
  { h with mode := rfl, active := ha }

theorem Running.withInterval {l u : Nat} (hlu : l ≤ u) (hu : u ≤ s.params.maxCode) :
    Running m { s with low := l, high := u } :=
  { h with ordered := hlu, highFits := hu }

theorem Running.withValue {v : Nat} (hv : v ≤ s.params.maxCode) : Running m { s with value := v } :=
  { h with valueFits := hv }

theorem Running.withFetched {o : Nat} (ho : o ≤ s.params.overrunMax) (bi : List BiAnswer) :
    Running m { s with overrun := o, bi := bi } :=
  { h with overrunFits := ho }

theorem Running.withSent {q : Nat} (hq : q ≤ s.params.pendMax) (sent : List BoTxn) :
    Running m { afterSent sent s with pending := q } :=
  { h with pendingFits := hq }

theorem Running.observe {sym : Nat} (hs : sym ≤ 256) : Running m (observe sym s).2 := by
  have ht := observe_tableInv h.valid h.table hs
  rw [observe_frame]
  exact { h with table := ht }

/-- A session opens with the fresh model and the whole code space (R130, R140). -/
theorem Running.openSession : Running m (openSession s) :=
  { h with
    table := freshTable_inv h.valid, ordered := Nat.zero_le _, highFits := le_rfl
    valueFits := Nat.zero_le _, pendingFits := Nat.zero_le _, overrunFits := Nat.zero_le _ }

end

/-! ## Runs that keep the invariant -/

/-- The run ends in a state of `P`, or raises a fault in a state from which taking it keeps the
invariant. -/
def Run.Keeps {α : Type} (P : State → Prop) : Run α → Prop
  | .ok _ t => P t
  | .raised c t => (∃ m, Running m t) ∧ c ≠ .none ∧ c ≠ .precisionViolation
  | .stuck _ => True

theorem Run.Keeps.bind {α β : Type} {r : Run α} {k : α → State → Run β} {P Q : State → Prop}
    (h : r.Keeps P) (hk : ∀ a t, P t → (k a t).Keeps Q) : (r.bind k).Keeps Q := by
  cases r with
  | ok a t => exact hk a t h
  | raised c t => exact h
  | stuck f => trivial

/-- The responses are no part of the invariant (log 5). -/
theorem Invariant.respond {s : State} (h : Invariant s) (r : Response) : Invariant (respond r s) :=
  { h with }

theorem conclude_invariant {w : Word} {r : Run Response} (hr : r.Keeps Invariant) {t : State}
    (h : conclude w r = .next t) : Invariant t := by
  rcases conclude_next h with ⟨a, u, rfl, rfl⟩ | ⟨c, u, rfl, rfl⟩
  · exact Invariant.respond hr a
  · obtain ⟨⟨m, hu⟩, hc, hp⟩ := hr
    exact hu.takeFault w hc hp

/-! ### The encoder -/

/-- A running command in an interval where no renormalisation case applies. -/
def RunningSettled (m : Mode) (s : State) : Prop := Running m s ∧ Settled s.params s.low s.high

theorem Invariant.runningSettled {s : State} (h : Invariant s) {m : Mode} (hm : s.mode = m)
    (ha : m ≠ .fault) : RunningSettled m s :=
  ⟨h.running hm ha, h.settled (hm ▸ ha)⟩

/-- Outside a decode session nothing is asked of `VALUE` but its width. -/
theorem RunningSettled.invariant {m : Mode} {s : State} (h : RunningSettled m s) (h1 : m ≠ .dec)
    (h2 : m ≠ .decEos) : Invariant s :=
  h.1.invariant h.2 fun hm => (hm.elim h1 h2).elim

theorem boTransact_keeps (item : BoItem) {m : Mode} {s : State} (h : RunningSettled m s) :
    (boTransact item s).Keeps (RunningSettled m) := by
  rcases boTransact_cases item s with ⟨e, -⟩ | e <;> rw [e]
  · exact ⟨h.1.withSent h.1.pendingFits _, h.2⟩
  · exact ⟨⟨m, h.1.withSent h.1.pendingFits _⟩, by decide, by decide⟩

theorem emitWithFollow_keeps (b : Bit) {m : Mode} {s : State} (h : RunningSettled m s) :
    (emitWithFollow b s).Keeps (RunningSettled m) := by
  obtain ⟨sent, e | e⟩ := emitWithFollow_cases b s <;> rw [e]
  · exact ⟨h.1.withSent (Nat.zero_le _) sent, h.2⟩
  · exact ⟨⟨m, h.1.withSent h.1.pendingFits sent⟩, by decide, by decide⟩

theorem incPending_keeps {m : Mode} {s : State} (h : RunningSettled m s) :
    (incPending s).Keeps (RunningSettled m) := by
  rcases incPending_cases s with ⟨-, e⟩ | ⟨hne, e⟩ <;> rw [e]
  · exact ⟨⟨m, h.1⟩, by decide, by decide⟩
  · have hq : s.pending + 1 ≤ s.params.pendMax := Nat.lt_of_le_of_ne h.1.pendingFits hne
    exact ⟨{ h.1 with pendingFits := hq }, h.2⟩

/-- `RenormEnc` settles an interval, however narrow, or raises with the registers in range (R116, R119). -/
theorem renormEnc_keeps {m : Mode} {s : State} (h : Running m s) :
    (renormEnc s.params.codeBits s).Keeps (RunningSettled m) := by
  have hc := s.params.codeBits_ge h.valid
  obtain ⟨l, u, q, sent, hlu, hu, hq, ⟨hs, e⟩ | ⟨f, hf, e⟩⟩ :=
    renormEnc_cases _ s (by omega) h.ordered h.highFits h.pendingFits (codeSpace_le_range s) <;> rw [e]
  · exact ⟨(h.withSent hq sent).withInterval hlu hu, hs⟩
  · have hr := (h.withSent hq sent).withInterval hlu hu
    rcases hf with rfl | rfl <;> exact ⟨⟨m, hr⟩, by decide, by decide⟩

/-- `Narrow` with a symbol's bounds leaves an ordered interval inside the old one (R111). -/
theorem narrow_keeps {m : Mode} {s : State} (h : RunningSettled m s) {k : Nat} (hk : k ≤ 256) :
    (narrow (prob k s.cum) s).Keeps (Running m) := by
  obtain ⟨e, -, hlu, hu⟩ := narrow_prob h.1.valid h.1.table h.2 hk s rfl rfl rfl
  rw [e]
  exact h.1.withInterval hlu (hu.trans h.1.highFits)

theorem RunningSettled.afterSymbol {s : State} (h : RunningSettled .enc s) (sym : Nat) :
    Invariant (afterSymbol sym s) := by
  unfold Machine.afterSymbol
  split
  · exact RunningSettled.invariant ⟨h.1.withMode (m' := .encEos) (by decide), h.2⟩ (by decide) (by decide)
  · exact h.invariant (by decide) (by decide)

/-- `E.SYM` (R131). -/
theorem eSym_keeps {s : State} (h : Invariant s) (hm : s.mode = .enc) {sym : BitVec 9}
    (hs : sym.toNat ≤ 256) : (body (.eSym sym) s).Keeps Invariant := by
  refine (narrow_keeps (h.runningSettled hm (by decide)) hs).bind fun _ t ht => ?_
  have hr := renormEnc_keeps (ht.observe hs)
  rw [observe_params] at hr
  exact hr.bind fun _ u hu => hu.afterSymbol sym.toNat

/-- `E.FINISH` (R132). -/
theorem eFinish_keeps {s : State} (h : Invariant s) (ha : s.mode ≠ .fault) :
    (body .eFinish s).Keeps Invariant :=
  (incPending_keeps (h.runningSettled rfl ha)).bind fun _ _ ht =>
    (emitWithFollow_keeps _ ht).bind fun _ _ hu =>
      (boTransact_keeps .flush hu).bind fun _ _ hv =>
        RunningSettled.invariant ⟨hv.1.withMode (m' := .idle) (by decide), hv.2⟩ (by decide) (by decide)

/-! ### The decoder -/

/-- A running command whose interval is the whole code space, as it is from the start of a session to
its first symbol (R130, R140). -/
def RunningFull (m : Mode) (s : State) : Prop :=
  Running m s ∧ s.low = 0 ∧ s.high = s.params.maxCode

/-- The whole code space is settled and holds any `VALUE` (R119, R120). -/
theorem RunningFull.invariant {m : Mode} {s : State} (h : RunningFull m s) : Invariant s := by
  obtain ⟨hr, hlow, hhigh⟩ := h
  have hc := s.params.codeBits_ge hr.valid
  have hsettled : Settled s.params 0 s.params.maxCode :=
    (renormCase_none_iff _ _ _).mp
      (full_range_settled (by omega) le_rfl (by simp only [Params.maxCode]; omega))
  refine hr.invariant (by rwa [hlow, hhigh]) fun _ => ⟨?_, ?_⟩
  · rw [hlow]
    exact Nat.zero_le _
  · rw [hhigh]
    exact hr.valueFits

theorem RunningFull.withMode {m m' : Mode} {s : State} (h : RunningFull m s) (ha : m' ≠ .fault) :
    RunningFull m' { s with mode := m' } :=
  ⟨h.1.withMode ha, h.2⟩

theorem Running.openSession_full {m : Mode} {s : State} (h : Running m s) :
    RunningFull m (Machine.openSession s) :=
  ⟨h.openSession, rfl, rfl⟩

/-- What the shifter makes fits the coder registers, whatever it is given (R115). -/
theorem shl_le_maxCode {p : Params} (hc : 1 ≤ p.codeBits) (x : Nat) (b : Bit) :
    shl p x b ≤ p.maxCode := by
  have hmask : x <<< 1 &&& p.maxCode < 2 ^ p.codeBits := by
    rw [Params.maxCode, Nat.and_two_pow_sub_one_eq_mod]
    exact Nat.mod_lt _ (by positivity)
  have hbit : b.toNat < 2 ^ p.codeBits :=
    (Nat.lt_succ_of_le (bit_toNat_le b)).trans_le (Nat.pow_le_pow_right (n := 2) (by omega) hc)
  exact Nat.le_sub_one_of_lt (Nat.or_lt_two_pow hmask hbit)

theorem getBit_keeps {m : Mode} {s : State} (h : RunningFull m s) :
    (getBit s).Keeps (RunningFull m) := by
  obtain ⟨hr, hi⟩ := h
  rcases getBit_cases s with ⟨rest, -, e⟩ | ⟨b, rest, -, e⟩ | ⟨-, -, e⟩ | ⟨-, ho, e⟩ <;> rw [e]
  · exact ⟨⟨m, hr.withFetched hr.overrunFits rest⟩, by decide, by decide⟩
  · exact ⟨hr.withFetched hr.overrunFits rest, hi⟩
  · exact ⟨⟨m, hr⟩, by decide, by decide⟩
  · exact ⟨hr.withFetched (Nat.lt_of_le_of_ne hr.overrunFits ho) s.bi, hi⟩

theorem primeValue_keeps (n : Nat) {m : Mode} {s : State} (h : RunningFull m s) :
    (primeValue n s).Keeps (RunningFull m) := by
  induction n generalizing s with
  | zero => exact h
  | succ n ih =>
    refine (getBit_keeps h).bind fun b t ⟨ht, hi⟩ => ih ⟨ht.withValue (shl_le_maxCode ?_ _ _), hi⟩
    have := t.params.codeBits_ge ht.valid
    omega

/-- `D.INIT` (R140). -/
theorem dInit_keeps {s : State} (h : Invariant s) (ha : s.mode ≠ .fault) :
    (body .dInit s).Keeps Invariant :=
  (primeValue_keeps _ (h.running rfl ha).openSession_full).bind fun _ _ ht =>
    (ht.withMode (m' := .dec) (by decide)).invariant

/-- `Scale` answers `scaledValue`, a count below the total, when the interval holds `VALUE` (R121). -/
theorem scale_eq {s : State} (hl : s.low ≤ s.value) (hu : s.value ≤ s.high)
    (ht : 0 < cumAt s.cum 257) :
    scale s = .ok (scaledValue s) s ∧ scaledValue s < cumAt s.cum 257 := by
  refine ⟨by rw [scale, if_pos ⟨hl, hu, ht⟩]; rfl, ?_⟩
  have hmul : (s.value - s.low + 1) * cumAt s.cum 257 ≤ (s.high - s.low + 1) * cumAt s.cum 257 :=
    Nat.mul_le_mul_right _ (by omega)
  have hpos : 0 < (s.value - s.low + 1) * cumAt s.cum 257 := by positivity
  rw [scaledValue, Nat.div_lt_iff_lt_mul (by omega), Nat.mul_comm (cumAt s.cum 257)]
  omega

/-- The interval narrowed to the symbol that owns `scaledValue` still holds `VALUE` (R120). -/
theorem narrowed_holds_value {s : State} {k : Nat} (hl : s.low ≤ s.value) (ht : 0 < cumAt s.cum 257)
    (hk : cumAt s.cum k ≤ scaledValue s) (hk' : scaledValue s < cumAt s.cum (k + 1)) :
    narrowedLow s k ≤ s.value ∧ s.value ≤ narrowedHigh s k := by
  have hpos : 0 < (s.value - s.low + 1) * cumAt s.cum 257 := by positivity
  rw [scaledValue, Nat.le_div_iff_mul_le (by omega), Nat.mul_comm] at hk
  rw [scaledValue, Nat.div_lt_iff_lt_mul (by omega), Nat.mul_comm (cumAt s.cum (k + 1))] at hk'
  have hlow : (s.high - s.low + 1) * cumAt s.cum k / cumAt s.cum 257 < s.value - s.low + 1 :=
    (Nat.div_lt_iff_lt_mul ht).mpr (by omega)
  have hhigh : s.value - s.low + 1 ≤ (s.high - s.low + 1) * cumAt s.cum (k + 1) / cumAt s.cum 257 :=
    (Nat.le_div_iff_mul_le ht).mpr (by omega)
  unfold narrowedLow narrowedHigh
  omega

/-- A running command whose interval holds `VALUE` (R120). -/
def RunningWindow (m : Mode) (s : State) : Prop := Running m s ∧ s.low ≤ s.value ∧ s.value ≤ s.high

theorem renormDec_keeps {m : Mode} {s : State} (h : RunningWindow m s) :
    (renormDec s.params.codeBits s).Keeps Invariant := by
  obtain ⟨hr, hl, hu⟩ := h
  have hc := s.params.codeBits_ge hr.valid
  obtain ⟨l, u, v, o, k, hlv, hvu, hfit, ho, -, hend⟩ :=
    renormDec_cases _ s (by omega) hl hu hr.highFits hr.overrunFits (codeSpace_le_range s)
  have hr' := ((hr.withFetched ho (s.bi.drop k)).withValue (hvu.trans hfit)).withInterval
    (hlv.trans hvu) hfit
  rcases hend with ⟨hs, e⟩ | ⟨f, hf, e⟩ <;> rw [e]
  · exact hr'.invariant hs fun _ => ⟨hlv, hvu⟩
  · rcases hf with rfl | rfl <;> exact ⟨⟨m, hr'⟩, by decide, by decide⟩

@[simp] theorem observe_value (sym : Nat) (s : State) : (observe sym s).2.value = s.value := by
  rw [observe_frame]

/-- Steps 2d to 2f of the decode procedure, for the symbol that owns the scaled count (R141). -/
theorem decodeSymbol_keeps {s : State} (h : Invariant s) (hm : s.mode = .dec) {k : Nat} (hk : k ≤ 256)
    (hlo : cumAt s.cum k ≤ scaledValue s) (hhi : scaledValue s < cumAt s.cum (k + 1)) :
    (decodeSymbol (prob k s.cum) s).Keeps Invariant := by
  have hr := h.running hm (by decide)
  have ht : 0 < cumAt s.cum 257 := (Nat.zero_le _).trans_lt (hr.table.increasing 256 le_rfl)
  obtain ⟨e, -, hlu, hu⟩ := narrow_prob hr.valid hr.table (h.settled (by simp [hm])) hk
    (observe k s).2 (observe_params k s) (observe_low k s) (observe_high k s)
  have hin := narrowed_holds_value (h.window (.inl hm)).1 ht hlo hhi
  have hnarrow : (narrow (prob k s.cum) (observe k s).2).Keeps (RunningWindow .dec) := by
    rw [e]
    refine ⟨(hr.observe hk).withInterval hlu ?_, ?_⟩
    · rw [observe_params]
      exact hu.trans h.highFits
    · rw [observe_value]
      exact hin
  exact hnarrow.bind fun _ _ hw => (renormDec_keeps hw).bind fun _ _ hi => hi

/-- `D.SYM` (R141). -/
theorem dSym_keeps {s : State} (h : Invariant s) (hm : s.mode = .dec) :
    (body .dSym s).Keeps Invariant := by
  obtain ⟨hl, hu⟩ := h.window (.inl hm)
  have hr := h.running hm (by decide)
  obtain ⟨e, hlt⟩ := scale_eq hl hu ((Nat.zero_le _).trans_lt (hr.table.increasing 256 le_rfl))
  obtain ⟨hlo, hhi⟩ := locate_owns hr.table hlt
  simp only [body, e, bind_ok]
  split
  · exact (hr.withMode (m' := .decEos) (by decide)).invariant (h.settled (by simp [hm])) fun _ => ⟨hl, hu⟩
  · rw [locate_eq_prob]
    exact decodeSymbol_keeps h hm (locate_symbol_le _ _) hlo hhi

/-! ### `RDREG` -/

/-- The registers in the order of their numbers (R32). -/
def registerFile (s : State) : List Nat :=
  [(configWord s.params).toNat, (statusWord s).toNat, s.low, s.high, s.value, s.pending, s.overrun,
    s.faultInfo.toNat]

theorem readRegister_eq (n : Nat) (s : State) : readRegister n s = (registerFile s)[n]? := by
  match n with
  | 0 | 1 | 2 | 3 | 4 | 5 | 6 | 7 | _ + 8 => rfl

theorem rdreg_wf_iff (r : BitVec 4) (s : State) :
    (Instr.rdreg r).wf = true ↔ r.toNat < (registerFile s).length := by
  simp [Instr.wf, registerFile, Nat.lt_succ_iff]

/-- `RDREG`'s pseudocode answers the register its number names (R151). -/
theorem body_rdreg {r : BitVec 4} {s : State} {v : Nat} (h : (registerFile s)[r.toNat]? = some v) :
    body (.rdreg r) s = .ok { status := .ok, data := v } s := by
  rw [← readRegister_eq] at h
  simp only [body, h]

/-! ### Every command -/

/-- The reset state meets the invariant, for every parameter set (R36, R169). -/
theorem ofParams_invariant (p : Params) : Invariant (State.ofParams p) := by
  cases hv : p.valid with
  | true =>
    have hr : Running .idle (State.ofParams p) :=
      ⟨by simp [hv], by decide, hv, freshTable_inv hv, Nat.zero_le _, le_rfl, Nat.zero_le _,
        Nat.zero_le _, Nat.zero_le _, by simp [hv], rfl⟩
    exact RunningFull.invariant ⟨hr, rfl, rfl⟩
  | false =>
    exact {
      form := freshTable_wf
      table := by simp [hv]
      ordered := Nat.zero_le _
      highFits := le_rfl
      valueFits := Nat.zero_le _
      pendingFits := Nat.zero_le _
      overrunFits := Nat.zero_le _
      faultIff := by simp [hv]
      infoZero := fun _ => rfl
      precision := by simp [hv]
      settled := by simp [hv]
      window := by simp [hv] }

/-- Reset restores the invariant from any state (R36, R180). -/
theorem coreReset_invariant (s : State) : Invariant (coreReset s) :=
  { ofParams_invariant s.params with }

/-- A command that writes the table alone keeps the invariant, if the table it leaves is sound. -/
theorem Invariant.withTable {s : State} (h : Invariant s) {m : Memory} {f : Bool}
    (ht : TableInv s.params m f) : Invariant { s with cum := m, frozen := f } :=
  { h with form := (memory_wf_iff m).mpr ht.length, table := fun _ => ht }

/-- Every command's pseudocode keeps the invariant, once the prologue has let it pass. -/
theorem body_keeps {i : Instr} {s : State} (h : Invariant s) (hf : s.mode = .fault → runsInFault i = true)
    (hw : i.wf = true) (hl : legalMode i s.mode = true) (hs : symbolTooLarge i = false) :
    (body i s).Keeps Invariant := by
  have active (hr : runsInFault i = false) : s.mode ≠ .fault := fun hm => by simp [hf hm] at hr
  cases i with
  | reset => exact coreReset_invariant s
  | rdreg r =>
    rw [body_rdreg (List.getElem?_eq_getElem ((rdreg_wf_iff r s).mp hw))]
    exact h
  | rdcum | mProb | mTotal => exact h
  | mInit => exact h.withTable (freshTable_inv (h.valid (active rfl)))
  | mLocate v =>
    simp only [body]
    split
    · exact ⟨⟨_, h.running rfl (active rfl)⟩, by decide, by decide⟩
    · exact h
  | mObserve sym =>
    have hsym : sym.toNat ≤ 256 := by simpa [symbolTooLarge, symbolOperand] using hs
    have hv := h.valid (active rfl)
    show Invariant (observe sym.toNat s).2
    rw [observe_frame]
    exact h.withTable (observe_tableInv hv (h.table hv) hsym)
  | eInit => exact ((h.running rfl (active rfl)).openSession_full.withMode (m' := .enc) (by decide)).invariant
  | eSym sym =>
    exact eSym_keeps h (by simpa [legalMode] using hl)
      (by simpa [symbolTooLarge, symbolOperand] using hs)
  | eFinish => exact eFinish_keeps h (active rfl)
  | dInit => exact dInit_keeps h (active rfl)
  | dSym => exact dSym_keeps h (by simpa [legalMode] using hl)
  | dEnd =>
    have hr := h.runningSettled rfl (active rfl)
    exact RunningSettled.invariant ⟨hr.1.withMode (m' := .idle) (by decide), hr.2⟩ (by decide) (by decide)

theorem exec_invariant {i : Instr} {s t : State} (h : Invariant s) (he : exec i s = .next t) :
    Invariant t := by
  rw [exec_eq_command] at he
  rcases command_cases i (body i) s with ⟨-, -, e⟩ | ⟨c, hc, hm, e⟩ | ⟨hf, hw, hl, hs, e⟩ <;> rw [e] at he
  · cases he
    exact h.respond _
  · cases he
    have hr := h.running rfl hm
    rcases hc with rfl | rfl | rfl <;> exact hr.takeFault _ (by decide) (by decide)
  · exact conclude_invariant (body_keeps h hf hw hl hs) he

theorem runReserved_invariant {w : Word} {s t : State} (h : Invariant s)
    (he : runReserved w s = .next t) : Invariant t := by
  unfold runReserved at he
  split at he <;> cases he
  · exact h.respond _
  · exact (h.running rfl ‹_›).takeFault w (by decide) (by decide)

theorem runWord_invariant {w : Word} {s t : State} (h : Invariant s) (he : runWord w s = .next t) :
    Invariant t := by
  cases hd : decode w with
  | ok i => exact exec_invariant h (runWord_of_decode hd s ▸ he)
  | error e => exact runReserved_invariant h (by simpa only [runWord, hd] using he)

/-- `rst` while a word runs leaves the reset state, its completed port transactions aside (R190). -/
theorem resetDuring_next {w : Word} {k : Nat} {s t : State} (h : resetDuring w k s = .next t) :
    ∃ u, runWord w s = .next u ∧ t = coreReset (cutStreams k s u) := by
  unfold resetDuring at h
  split at h
  · exact ⟨_, ‹_›, (Host.Outcome.next.inj h).symm⟩
  · cases h
  · cases h

/-! ## The statements about the invariant -/

/-- Settles O56: a valid set starts in `IDLE` with the fresh table and the whole code space, which is
settled; an invalid one starts faulted, where nothing is asked of table and interval. -/
theorem invariantAtReset : Obligations.InvariantAtReset :=
  ⟨ofParams_invariant Params.default, ofParams_invariant⟩

/-- Settles O57: the pseudocode of every command keeps the invariant or raises in a state from which
the fault restores it, reset establishes it, and the host's queue and streams are no part of it. -/
theorem everyStepKeepsInvariant : Obligations.EveryStepKeepsInvariant := by
  intro s t h hstep
  rcases step_cases s with ⟨-, e⟩ | ⟨w, rest, -, e⟩ | ⟨rest, -, e⟩ | ⟨w, k, rest, -, e⟩
    | ⟨a, rest, -, e⟩ | ⟨errs, rest, -, e⟩ <;> rw [e] at hstep
  · cases hstep
    exact h
  · exact runWord_invariant (h.withCmd rest) hstep
  · cases hstep
    exact coreReset_invariant _
  · obtain ⟨u, -, rfl⟩ := resetDuring_next hstep
    exact coreReset_invariant _
  · cases hstep
    exact { h with }
  · cases hstep
    exact { h with }

end Sys2Proof.Machine
end

section
/-! PROOFS. The state family, second part: what each command may change (O14), and `rst` between and during
commands (O7). -/

namespace Sys2Proof.Machine

/-! ## The frame of each command -/

/-- What a run of the command `i` may do from `s` to `t`, before its response or fault is delivered:
what the write lists do not name is unchanged, and the streams only move on (R21, R24 to R27, R50, R64). -/
structure Framed (i : Instr) (s t : State) : Prop where
  params : t.params = s.params
  cmd : t.cmd = s.cmd
  table : writesTable i = false → t.cum = s.cum ∧ t.frozen = s.frozen
  interval : writesInterval i = false → t.low = s.low ∧ t.high = s.high
  pending : writesPending i = false → t.pending = s.pending
  window : writesWindow i = false → t.value = s.value ∧ t.overrun = s.overrun
  bitOut : writesStream i = false → t.bo = s.bo ∧ t.boErr = s.boErr
  bitIn : readsStream i = false → t.bi = s.bi
  faultRegs : i ≠ .reset → t.faultCode = s.faultCode ∧ t.faultInfo = s.faultInfo
  sent : ∃ sent : List BoTxn, t.bo = s.bo ++ sent ∧ t.boErr = s.boErr.drop sent.length
  read : ∃ n, n ≤ s.bi.length ∧ t.bi = s.bi.drop n

theorem Framed.refl (i : Instr) (s : State) : Framed i s s where
  params := rfl
  cmd := rfl
  table := fun _ => ⟨rfl, rfl⟩
  interval := fun _ => ⟨rfl, rfl⟩
  pending := fun _ => rfl
  window := fun _ => ⟨rfl, rfl⟩
  bitOut := fun _ => ⟨rfl, rfl⟩
  bitIn := fun _ => rfl
  faultRegs := fun _ => ⟨rfl, rfl⟩
  sent := ⟨[], by simp⟩
  read := ⟨0, Nat.zero_le _, rfl⟩

theorem Framed.trans {i : Instr} {s t u : State} (h : Framed i s t) (k : Framed i t u) :
    Framed i s u where
  params := k.params.trans h.params
  cmd := k.cmd.trans h.cmd
  table hi := ⟨(k.table hi).1.trans (h.table hi).1, (k.table hi).2.trans (h.table hi).2⟩
  interval hi := ⟨(k.interval hi).1.trans (h.interval hi).1, (k.interval hi).2.trans (h.interval hi).2⟩
  pending hi := (k.pending hi).trans (h.pending hi)
  window hi := ⟨(k.window hi).1.trans (h.window hi).1, (k.window hi).2.trans (h.window hi).2⟩
  bitOut hi := ⟨(k.bitOut hi).1.trans (h.bitOut hi).1, (k.bitOut hi).2.trans (h.bitOut hi).2⟩
  bitIn hi := (k.bitIn hi).trans (h.bitIn hi)
  faultRegs hi := ⟨(k.faultRegs hi).1.trans (h.faultRegs hi).1, (k.faultRegs hi).2.trans (h.faultRegs hi).2⟩
  sent := by
    obtain ⟨a, ha, ha'⟩ := h.sent
    obtain ⟨b, hb, hb'⟩ := k.sent
    exact ⟨a ++ b, by simp [hb, ha], by simp [hb', ha']⟩
  read := by
    obtain ⟨m, hm, hm'⟩ := h.read
    obtain ⟨n, hn, hn'⟩ := k.read
    rw [hm', List.length_drop] at hn
    exact ⟨m + n, by omega, by rw [hn', hm', List.drop_drop]⟩

/-- Runs compose: each piece is framed from wherever it starts. -/
theorem Framed.bind {i : Instr} {α β : Type} {r : Run α} {k : α → State → Run β} {s : State}
    (h : r.Leaves (Framed i s)) (hk : ∀ a t, (k a t).Leaves (Framed i t)) :
    (r.bind k).Leaves (Framed i s) :=
  Run.Leaves.bind h (fun _ ht => ht) fun a t ht => (hk a t).mono fun _ hu => ht.trans hu

theorem framed_withMode (i : Instr) (s : State) (m : Mode) : Framed i s { s with mode := m } :=
  { Framed.refl i s with }

theorem observe_framed {i : Instr} (hi : writesTable i = true) (sym : Nat) (s : State) :
    Framed i s (observe sym s).2 := by
  rw [observe_frame]
  exact { Framed.refl i s with table := by simp [hi] }

theorem narrow_framed {i : Instr} (hi : writesInterval i = true) (b : Bounds) (s : State) :
    (narrow b s).Leaves (Framed i s) :=
  (narrow_frame b s).mono fun t ht => by
    rw [ht]
    exact { Framed.refl i s with interval := by simp [hi] }

theorem boTransact_framed {i : Instr} (hi : writesStream i = true) (item : BoItem) (s : State) :
    (boTransact item s).Leaves (Framed i s) := by
  rcases boTransact_cases item s with ⟨e, -⟩ | e <;> rw [e] <;>
    exact { Framed.refl i s with bitOut := by simp [hi], sent := ⟨_, rfl, rfl⟩ }

theorem emitWithFollow_framed {i : Instr} (hi : writesStream i = true) (hp : writesPending i = true)
    (b : Bit) (s : State) : (emitWithFollow b s).Leaves (Framed i s) := by
  obtain ⟨sent, e | e⟩ := emitWithFollow_cases b s <;> rw [e] <;>
    exact { Framed.refl i s with
      pending := by simp [hp], bitOut := by simp [hi], sent := ⟨sent, rfl, rfl⟩ }

theorem incPending_framed {i : Instr} (hp : writesPending i = true) (s : State) :
    (incPending s).Leaves (Framed i s) := by
  rcases incPending_cases s with ⟨-, e⟩ | ⟨-, e⟩ <;> rw [e]
  · exact Framed.refl i s
  · exact { Framed.refl i s with pending := by simp [hp] }

theorem renormEnc_framed {i : Instr} (hi : writesStream i = true) (hp : writesPending i = true)
    (hn : writesInterval i = true) (n : Nat) (s : State) : (renormEnc n s).Leaves (Framed i s) :=
  (renormEnc_wrote n s).mono fun t ⟨sent, ht⟩ => by
    rw [ht]
    exact { Framed.refl i s with
      interval := by simp [hn], pending := by simp [hp], bitOut := by simp [hi]
      sent := ⟨sent, rfl, rfl⟩ }

theorem ReadBits.framed {i : Instr} (hi : readsStream i = true) (hw : writesWindow i = true)
    (hn : writesInterval i = true) {s t : State} (h : ReadBits s t) : Framed i s t := by
  obtain ⟨n, hle, ht⟩ := h
  rw [ht]
  exact { Framed.refl i s with
    interval := by simp [hn], window := by simp [hw], bitIn := by simp [hi], read := ⟨n, hle, rfl⟩ }

/-- Opening a session writes the model and every coder register, and reaches no stream. -/
theorem openSession_framed {i : Instr} (ht : writesTable i = true) (hn : writesInterval i = true)
    (hp : writesPending i = true) (hw : writesWindow i = true) (s : State) :
    Framed i s (openSession s) :=
  { Framed.refl i s with
    table := by simp [ht], interval := by simp [hn], pending := by simp [hp], window := by simp [hw] }

theorem afterSymbol_framed (i : Instr) (sym : Nat) (s : State) : Framed i s (afterSymbol sym s) := by
  unfold afterSymbol
  split
  · exact framed_withMode i s .encEos
  · exact Framed.refl i s

/-- A command's pseudocode changes only what its lists name, whether it ends or raises. -/
theorem body_framed (i : Instr) (s : State) : (body i s).Leaves (Framed i s) := by
  cases i with
  | reset =>
    exact { Framed.refl .reset s with
      table := nofun, interval := nofun, pending := nofun, window := nofun
      faultRegs := fun h => absurd rfl h }
  | rdcum | mProb | mTotal => exact Framed.refl _ s
  | rdreg r =>
    simp only [body]
    split <;> exact Framed.refl _ s
  | mLocate v =>
    simp only [body]
    split <;> exact Framed.refl _ s
  | mInit => exact { Framed.refl .mInit s with table := nofun }
  | mObserve sym => exact observe_framed rfl sym.toNat s
  | eInit => exact (openSession_framed rfl rfl rfl rfl s).trans (framed_withMode _ _ .enc)
  | eSym sym =>
    refine Framed.bind (narrow_framed rfl _ s) fun _ t => ?_
    refine Framed.bind ?_ fun _ u => afterSymbol_framed _ sym.toNat u
    exact (renormEnc_framed rfl rfl rfl _ _).mono fun _ h => (observe_framed rfl sym.toNat t).trans h
  | eFinish =>
    exact Framed.bind (incPending_framed rfl s) fun _ t =>
      Framed.bind (emitWithFollow_framed rfl rfl _ t) fun _ u =>
        Framed.bind (boTransact_framed rfl .flush u) fun _ v => framed_withMode _ v .idle
  | dInit =>
    refine Framed.bind ((primeValue_read _ _).mono fun _ h => ?_) fun _ t => framed_withMode _ t .dec
    exact (openSession_framed rfl rfl rfl rfl s).trans (h.framed rfl rfl rfl)
  | dSym =>
    refine Framed.bind ((scale_frame s).mono fun t ht => ht.symm ▸ Framed.refl _ s) fun scaled t => ?_
    split
    · exact framed_withMode _ t .decEos
    · refine Framed.bind ((narrow_framed rfl _ _).mono fun _ h => (observe_framed rfl _ t).trans h) fun _ u => ?_
      exact Framed.bind ((renormDec_read _ u).mono fun _ h => h.framed rfl rfl rfl) fun _ v => Framed.refl _ v
  | dEnd => exact framed_withMode _ s .idle

/-- A command that answers a next state kept its frame, and then delivered a response or took a fault. -/
theorem exec_framed {i : Instr} {s t : State} (h : exec i s = .next t) :
    ∃ u, Framed i s u ∧ ((∃ r, t = respond r u) ∨ ∃ c, t = takeFault c (encode i) u) := by
  rw [exec_eq_command] at h
  rcases command_cases i (body i) s with ⟨-, -, e⟩ | ⟨c, -, -, e⟩ | ⟨-, -, -, -, e⟩ <;> rw [e] at h
  · cases h
    exact ⟨s, Framed.refl i s, .inl ⟨_, rfl⟩⟩
  · cases h
    exact ⟨s, Framed.refl i s, .inr ⟨c, rfl⟩⟩
  · have hbody := body_framed i s
    rcases conclude_next h with ⟨a, u, hu, rfl⟩ | ⟨c, u, hu, rfl⟩ <;> rw [hu] at hbody
    · exact ⟨u, hbody, .inl ⟨a, rfl⟩⟩
    · exact ⟨u, hbody, .inr ⟨c, rfl⟩⟩

/-! ## The statements about frames and `rst` -/

/-- Settles O14: the pseudocode is composed of pieces that write what the lists name, and the prologue
and the end of a command write the response and, with a fault, the fault registers and `MODE`. -/
theorem commandsChangeOnlyWhatIsListed : Obligations.CommandsChangeOnlyWhatIsListed := by
  intro i s t h
  obtain ⟨u, f, ⟨r, rfl⟩ | ⟨c, rfl⟩⟩ := exec_framed h
  · exact ⟨f.params, f.cmd, f.table, f.interval, f.pending, f.window, f.bitOut, f.bitIn,
      fun _ => f.faultRegs, f.sent, f.read⟩
  · exact ⟨f.params, f.cmd, f.table, f.interval, f.pending, f.window, f.bitOut, f.bitIn,
      fun hm => absurd (takeFault_mode c _ u) hm, f.sent, f.read⟩

/-- Where the uncut command appended `sent` to the sink's log and took `taken` answers of the source, the
cut after `k` transactions leaves the first `k` of each (R190). -/
theorem cutStreams_eq {s u : State} {sent : List BoTxn} {taken : Nat} (k : Nat)
    (hsent : u.bo = s.bo ++ sent) (hle : taken ≤ s.bi.length) (htaken : u.bi = s.bi.drop taken) :
    cutStreams k s u = { s with
      bo := s.bo ++ sent.take k
      boErr := s.boErr.drop (min k sent.length)
      bi := s.bi.drop (min k taken) } := by
  have hread : s.bi.length - (s.bi.length - taken) = taken := by omega
  simp only [cutStreams, hsent, htaken, List.drop_left, List.length_append, List.length_drop,
    Nat.add_sub_cancel_left, hread]

/-- Settles O7: the two cases of `rst` in the host's queue; during a command, the streams of the uncut
step fix where the cut falls. -/
theorem rstAtAnyTime : Obligations.RstAtAnyTime := by
  refine ⟨fun s rest hcmd => ?_, fun s u w k rest sent taken hcmd hstep hsent _ hle htaken => ?_⟩
  · simp only [step, takeEvent, hcmd]
    rfl
  · rw [step_of_command rfl] at hstep
    simp only [step, takeEvent, hcmd, resetDuring, hstep]
    rw [cutStreams_eq (s := { s with cmd := rest }) k hsent hle htaken]
    rfl

end Sys2Proof.Machine
end

section
/-! PROOFS. The state family, third part: the reset values (O15), `RESET` and `rst` (O16), `RDREG` (O17), and the
layouts of `CONFIG` (O18) and `STATUS` (O19). -/

namespace Sys2Proof.Machine

/-! ## Reset -/

/-- Settles O15, by the reset table and R7 written out. -/
theorem resetValues : Obligations.ResetValues := by
  refine ⟨rfl, ?_⟩
  rintro p s rfl
  refine ⟨cumAt_freshTable, freshTable_length, rfl, rfl, rfl, rfl, rfl, rfl, rfl, fun hv => ?_, fun hv => ?_⟩
  all_goals
    rw [← p.valid_iff] at hv
    simp [hv]

/-- What passes the prologue in every mode runs its pseudocode in every mode (R155, R180). -/
theorem exec_of_runsInFault {i : Instr} (h : runsInFault i = true) (s : State) :
    exec i s = conclude (encode i) (body i s) := by
  obtain ⟨hw, hl, hs⟩ := runsInFault_passes h s.mode
  rw [exec_eq_command]
  simp [command, h, hw, hl, hs]

/-- Settles O16: `RESET` passes the prologue in every mode, and both it and `rst` are `coreReset`. -/
theorem resetCommand : Obligations.ResetCommand := by
  intro s
  refine ⟨coreReset s, rfl, ?_, rfl⟩
  rw [exec_of_runsInFault rfl]
  rfl

/-! ## The registers -/

/-- Settles O17: `RDREG` of a register number passes the prologue in every mode. -/
theorem rdregReadsRegister : Obligations.RdregReadsRegister := by
  intro s r v h
  have hr : (registerFile s)[r.toNat]? = some v := h
  have hw : (Instr.rdreg r).wf = true :=
    (rdreg_wf_iff r s).mpr (List.getElem?_eq_some_iff.mp hr).1
  rw [exec_of_runsInFault (i := .rdreg r) hw, body_rdreg hr]
  rfl

/-- Fields of a word, as a sum: the left one weighs `2` to the width of the right one (R14). -/
theorem toNat_append_eq_add {m n : Nat} (x : BitVec m) (y : BitVec n) :
    (x ++ y).toNat = x.toNat * 2 ^ n + y.toNat := by
  rw [BitVec.toNat_append, ← Nat.shiftLeft_add_eq_or_of_lt y.isLt, Nat.shiftLeft_eq]

theorem configField_toNat {n : Nat} (pos : Nat) (h : n ≤ 255) : (configField pos n).toNat = n := by
  rw [configField, if_pos (by omega), BitVec.toNat_ofNat]
  omega

theorem policyBit_toNat (q : Policy) :
    (policyBit q).toNat = if q = .renormalize then 1 else 0 := by
  cases q <;> rfl

/-- Settles O18: the fields of `CONFIG` as a sum, each parameter below 256 being its own field. -/
theorem configLayout : Obligations.ConfigLayout := by
  refine ⟨fun p hc hf hp => ?_, by decide⟩
  simp only [configWord, toNat_append_eq_add, configField_toNat _ hc, configField_toNat _ hf,
    configField_toNat _ hp, policyBit_toNat, BitVec.toNat_ofNat]
  ring

theorem statusWord_toNat (s : State) :
    (statusWord s).toNat =
      (modeBits s.mode).toNat + 8 * s.frozen.toNat + 16 * (faultBits s.faultCode).toNat := by
  simp only [statusWord, toNat_append_eq_add, BitVec.toNat_ofNat, BitVec.toNat_ofBool]
  ring

/-- Settles O19: the fields of `STATUS` as a sum, and each code of R28 and R166. -/
theorem statusLayout : Obligations.StatusLayout := by
  refine ⟨fun s => ⟨rfl, ?_⟩, fun p hv => ?_⟩
  · rw [statusWord_toNat]
    congr 2
    · cases s.mode <;> rfl
    · cases s.frozen <;> rfl
    · cases s.faultCode <;> rfl
  · simp only [statusWord, ofParams_mode, ofParams_faultCode, ofParams_frozen, hv]
    rfl

end Sys2Proof.Machine
end

section
/-! PROOFS. The memory family: the bytes that carry a stream (R54, R55), and what a source that holds them
gives back (O53). -/

namespace Sys2Proof.Machine

/-! ## One byte -/

theorem bitsToNat_concat (bs : List Bit) (b : Bit) :
    bitsToNat (bs ++ [b]) = Nat.bit b (bitsToNat bs) := by
  simp [bitsToNat, Nat.bit_val]

/-- R53: the last bit of a sequence is bit 0 of the number it spells. -/
theorem testBit_bitsToNat (bs : List Bit) (k : Nat) :
    (bitsToNat bs).testBit k = bs.reverse.getD k false := by
  induction bs using List.reverseRecOn generalizing k with
  | nil => simp [bitsToNat]
  | append_singleton bs b ih =>
    rw [bitsToNat_concat, List.reverse_concat]
    cases k with
    | zero => simp
    | succ k => rw [Nat.testBit_bit_succ, ih, List.getD_cons_succ]

/-- R54: a source gives the eight bits of a packed byte back in the order the sink took them. -/
theorem byteBits_ofNat_bitsToNat (b7 b6 b5 b4 b3 b2 b1 b0 : Bit) :
    byteBits (BitVec.ofNat 8 (bitsToNat [b7, b6, b5, b4, b3, b2, b1, b0]))
      = [b7, b6, b5, b4, b3, b2, b1, b0] := by
  simp only [byteBits, BitVec.getLsbD_ofNat, testBit_bitsToNat]
  rfl

@[simp] theorem length_byteBits (b : Byte) : (byteBits b).length = 8 := rfl

/-- R54: the bit read after `k` others is bit `7 - k` of the byte. -/
theorem getD_byteBits (b : Byte) {k : Nat} (hk : k < 8) :
    (byteBits b).getD k false = b.getLsbD (7 - k) := by
  interval_cases k <;> rfl

/-! ## A list of bytes -/

/-- R54: bit `k` of a byte list's bits is bit `7 - k % 8` of byte `k / 8`; past the end both
defaults are zero. -/
theorem getD_flatMap_byteBits (bytes : List Byte) (k : Nat) :
    (bytes.flatMap byteBits).getD k false = (bytes.getD (k / 8) 0).getLsbD (7 - k % 8) := by
  induction bytes generalizing k with
  | nil => simp
  | cons b bytes ih =>
    rw [List.flatMap_cons]
    by_cases hk : k < 8
    · rw [List.getD_append _ _ _ _ hk, getD_byteBits b hk, Nat.div_eq_of_lt hk,
        Nat.mod_eq_of_lt hk, List.getD_cons_zero]
    · have hdiv : k / 8 = (k - 8) / 8 + 1 := by omega
      have hmod : k % 8 = (k - 8) % 8 := by omega
      rw [List.getD_append_right _ _ _ _ (Nat.not_lt.mp hk), length_byteBits, ih, hdiv, hmod,
        List.getD_cons_succ]

theorem length_flatMap_byteBits (bytes : List Byte) :
    (bytes.flatMap byteBits).length = 8 * bytes.length := by
  simp [List.length_flatMap, Nat.mul_comm]

/-- Packing whole bytes loses no bit: it drops only a last group of fewer than eight. -/
theorem flatMap_byteBits_packBytes {bits : List Bit} (h : bits.length % 8 = 0) :
    (packBytes bits).flatMap byteBits = bits := by
  induction bits using packBytes.induct with
  | case1 b7 b6 b5 b4 b3 b2 b1 b0 rest ih =>
    have hrest : rest.length % 8 = 0 := by
      simp only [List.length_cons] at h
      omega
    rw [packBytes, List.flatMap_cons, byteBits_ofNat_bitsToNat, ih hrest]
    rfl
  | case2 bits hshort =>
    match bits with
    | [] => rfl
    | [_] | [_, _] | [_, _, _] | [_, _, _, _] | [_, _, _, _, _] | [_, _, _, _, _, _]
    | [_, _, _, _, _, _, _] => simp at h
    | b7 :: b6 :: b5 :: b4 :: b3 :: b2 :: b1 :: b0 :: rest =>
      exact (hshort b7 b6 b5 b4 b3 b2 b1 b0 rest rfl).elim

/-! ## The flush -/

theorem padLength_le (n : Nat) : padLength n ≤ 7 := by
  unfold padLength
  omega

theorem add_padLength_mod (n : Nat) : (n + padLength n) % 8 = 0 := by
  unfold padLength
  omega

theorem length_padded_mod (bits : List Bit) : (padded bits).length % 8 = 0 := by
  rw [padded, List.length_append, List.length_replicate, add_padLength_mod]

/-- Settles O53: the flush makes whole bytes, so each clause on the packed bytes is one on their
bits, which are the padded stream. -/
theorem bytesCarryTheStream : Obligations.BytesCarryTheStream := by
  intro bits
  have hback := flatMap_byteBits_packBytes (length_padded_mod bits)
  refine ⟨⟨padLength bits.length, padLength_le _, rfl, add_padLength_mod _⟩, ?_, fun k _ => ?_, ?_⟩
  · rw [← length_flatMap_byteBits, hback]
  · rw [← getD_flatMap_byteBits, hback]
  · rw [sourceOfBytes, hback]

end Sys2Proof.Machine
end

section
/-! PROOFS. The encoding family, first part: a word as its fields and under a mask, the five formats, the decoder
as the inverse of the encoder (O1 to O4), and the words of the pseudo-commands (O54). -/

namespace Sys2Proof

/-! ## A word and its fields -/

/-- Cut at bit `n`, a word is its two parts. -/
theorem eq_iff_extractLsb'_eq {v m n : Nat} (h : n + m = v) (u w : BitVec v) :
    u = w ↔ u.extractLsb' n m = w.extractLsb' n m ∧ u.extractLsb' 0 n = w.extractLsb' 0 n := by
  refine ⟨fun e => e ▸ ⟨rfl, rfl⟩, fun ⟨hhigh, hlow⟩ => BitVec.eq_of_getLsbD_eq fun k hk => ?_⟩
  by_cases hkn : k < n
  · simpa [hkn] using congrArg (·.getLsbD k) hlow
  · have := congrArg (·.getLsbD (k - n)) hhigh
    simpa [show k - n < m by omega, show n + (k - n) = k by omega] using this

theorem assemble_eq_iff (op : BitVec 4) (arg : BitVec 28) (w : Word) :
    assemble op arg = w ↔ opField w = op ∧ argField w = arg := by
  have hop : (assemble op arg).extractLsb' 28 4 = op := Laws.OpcodeField.field_of_assemble op arg
  have harg : (assemble op arg).extractLsb' 0 28 = arg := BitVec.extractLsb'_append_eq_right
  rw [eq_iff_extractLsb'_eq (n := 28) (m := 4) rfl, hop, harg, eq_comm (a := op), eq_comm (a := arg)]
  rfl

theorem encode_eq_iff (i : Instr) (w : Word) :
    encode i = w ↔ opField w = opcode i ∧ argField w = operandField i :=
  assemble_eq_iff (opcode i) (operandField i) w

/-- R71, R81: the argument is a zero-extended operand of `n` bits when the `m` bits above it are zero. -/
theorem argField_eq_setWidth_iff {m n : Nat} (h : n + m = 28) (x : BitVec n) (w : Word) :
    argField w = x.setWidth 28 ↔ w.extractLsb' n m = 0 ∧ w.extractLsb' 0 n = x := by
  have hhigh : (x.setWidth 28).extractLsb' n m = 0 := by
    ext k hk
    simp
  have hlow : (x.setWidth 28).extractLsb' 0 n = x := by
    ext k hk
    simp [show k < 28 by omega, BitVec.getLsbD_eq_getElem hk]
  have hargHigh : (argField w).extractLsb' n m = w.extractLsb' n m := by
    ext k hk
    simp [argField, show n + k < 28 by omega]
  have hargLow : (argField w).extractLsb' 0 n = w.extractLsb' 0 n := by
    ext k hk
    simp [argField, show k < 28 by omega]
  rw [eq_iff_extractLsb'_eq h, hhigh, hlow, hargHigh, hargLow]

/-! ## The mask of a row -/

/-- The mask that clears bits `n - 1` to 0 of a word. -/
def highMask (n : Nat) : Word := BitVec.allOnes 32 <<< n

theorem getLsbD_and_highMask (w : Word) (n k : Nat) :
    (w &&& highMask n).getLsbD k = (w.getLsbD k && decide (n ≤ k)) := by
  rw [highMask, BitVec.getLsbD_and, BitVec.getLsbD_shiftLeft, BitVec.getLsbD_allOnes]
  by_cases hk : k < 32
  · simp [hk, show k - n < 32 by omega, ← decide_not]
  · simp [BitVec.getLsbD_of_ge w k (by omega)]

theorem extractLsb'_and_highMask {n start : Nat} (h : n ≤ start) (len : Nat) (w : Word) :
    (w &&& highMask n).extractLsb' start len = w.extractLsb' start len := by
  ext k hk
  rw [BitVec.getElem_extractLsb', BitVec.getElem_extractLsb', getLsbD_and_highMask,
    decide_eq_true (by omega), Bool.and_true]

theorem extractLsb'_zero_and_highMask (n : Nat) (w : Word) :
    (w &&& highMask n).extractLsb' 0 n = 0 := by
  ext k hk
  rw [BitVec.getElem_extractLsb', getLsbD_and_highMask, decide_eq_false (by omega)]
  simp

/-- R72: under the mask of an `n`-bit operand a word is its opcode alone when the operand's must-be-zero
bits are zero. -/
theorem and_highMask_eq_iff {m n : Nat} (h : n + m = 28) (op : BitVec 4) (w : Word) :
    w &&& highMask n = assemble op 0 ↔ opField w = op ∧ w.extractLsb' n m = 0 := by
  have hop : opField (w &&& highMask n) = opField w := extractLsb'_and_highMask (by omega) 4 w
  have hzero : (0 : BitVec 28) = (0 : BitVec n).setWidth 28 := by simp
  rw [eq_comm, assemble_eq_iff, hop, hzero, argField_eq_setWidth_iff h,
    extractLsb'_and_highMask le_rfl, extractLsb'_zero_and_highMask]
  simp

/-- R72, R81: the word of an `n`-bit operand matches its row, and the operand is the row's field of it. -/
theorem encode_eq_iff_match {m n : Nat} (h : n + m = 28) {i : Instr} {x : BitVec n}
    (hi : operandField i = x.setWidth 28) (w : Word) :
    encode i = w ↔ w &&& highMask n = assemble (opcode i) 0 ∧ x = w.extractLsb' 0 n := by
  rw [encode_eq_iff, hi, argField_eq_setWidth_iff h, and_highMask_eq_iff h, and_assoc, eq_comm (a := x)]

/-! ## The formats -/

/-- A test of a format (R73): what passes it is the rest of the format's answer. -/
theorem ite_error_eq_ok_iff {c : Prop} [Decidable c] (r : Except Reserved Instr) (e : Reserved) (i : Instr) :
    (if c then r else .error e) = .ok i ↔ c ∧ r = .ok i := by
  split <;> simp [*]

theorem formatN_eq_ok_iff (j i : Instr) (w : Word) :
    formatN j w = .ok i ↔ j = i ∧ argField w = 0 := by
  rw [formatN, ite_error_eq_ok_iff, Except.ok.injEq, and_comm]

theorem formatS_eq_ok_iff (mk : BitVec 9 → Instr) (i : Instr) (w : Word) :
    formatS mk w = .ok i ↔ ∃ x, mk x = i ∧ argField w = x.setWidth 28 := by
  simp [formatS, ite_error_eq_ok_iff, argField_eq_setWidth_iff (m := 19) rfl, and_comm]

theorem formatV_eq_ok_iff (mk : BitVec 28 → Instr) (i : Instr) (w : Word) :
    formatV mk w = .ok i ↔ ∃ v, mk v = i ∧ argField w = v := by
  simp [formatV]

theorem formatI_eq_ok_iff (mk : BitVec 9 → Instr) (i : Instr) (w : Word) :
    formatI mk w = .ok i ↔ ∃ x, mk x = i ∧ x.toNat ≤ 257 ∧ argField w = x.setWidth 28 := by
  simp only [formatI, ite_error_eq_ok_iff, argField_eq_setWidth_iff (m := 19) rfl, Except.ok.injEq]
  grind

theorem formatR_eq_ok_iff (mk : BitVec 4 → Instr) (i : Instr) (w : Word) :
    formatR mk w = .ok i ↔ ∃ r, mk r = i ∧ r.toNat ≤ 7 ∧ argField w = r.setWidth 28 := by
  simp only [formatR, ite_error_eq_ok_iff, argField_eq_setWidth_iff (m := 24) rfl, Except.ok.injEq]
  grind

/-! ## The decoder -/

/-- The row of the opcode map that a command's opcode selects (R72). -/
def mapRow : Instr → Word → Except Reserved Instr
  | .rdreg _ => formatR .rdreg
  | .rdcum _ => formatI .rdcum
  | .mProb _ => formatS .mProb
  | .mLocate _ => formatV .mLocate
  | .mObserve _ => formatS .mObserve
  | .eSym _ => formatS .eSym
  | i => formatN i

theorem decode_eq_mapRow {i : Instr} {w : Word} (h : opField w = opcode i) : decode w = mapRow i w := by
  rw [decode, h]
  cases i <;> rfl

theorem opcode_of_decode {i : Instr} {w : Word} (h : decode w = .ok i) : opField w = opcode i := by
  unfold decode at h
  split at h
  case h_1 hop | h_4 hop | h_8 hop | h_9 hop | h_11 hop | h_12 hop | h_13 hop | h_14 hop =>
    obtain ⟨rfl, -⟩ := (formatN_eq_ok_iff _ i w).mp h
    exact BitVec.eq_of_toNat_eq hop
  case h_2 hop =>
    obtain ⟨r, rfl, -⟩ := (formatR_eq_ok_iff _ i w).mp h
    exact BitVec.eq_of_toNat_eq hop
  case h_3 hop =>
    obtain ⟨x, rfl, -⟩ := (formatI_eq_ok_iff _ i w).mp h
    exact BitVec.eq_of_toNat_eq hop
  case h_5 hop | h_7 hop | h_10 hop =>
    obtain ⟨x, rfl, -⟩ := (formatS_eq_ok_iff _ i w).mp h
    exact BitVec.eq_of_toNat_eq hop
  case h_6 hop =>
    obtain ⟨v, rfl, -⟩ := (formatV_eq_ok_iff _ i w).mp h
    exact BitVec.eq_of_toNat_eq hop
  case h_15 => cases h

theorem mapRow_eq_ok_iff (i : Instr) (w : Word) :
    mapRow i w = .ok i ↔ i.wf = true ∧ argField w = operandField i := by
  cases i with
  | rdreg r => simp [mapRow, formatR_eq_ok_iff, Instr.wf, operandField]
  | rdcum x => simp [mapRow, formatI_eq_ok_iff, Instr.wf, operandField]
  | mProb x | mObserve x | eSym x => simp [mapRow, formatS_eq_ok_iff, Instr.wf, operandField]
  | mLocate v => simp [mapRow, formatV_eq_ok_iff, Instr.wf, operandField]
  | reset | mInit | mTotal | eInit | eFinish | dInit | dSym | dEnd =>
    simp [mapRow, formatN_eq_ok_iff, Instr.wf, operandField]

/-- The decoder inverts the encoder on the well-formed commands, and accepts no other word (R70 to R73). -/
theorem decode_eq_ok_iff (w : Word) (i : Instr) :
    decode w = .ok i ↔ i.wf = true ∧ encode i = w := by
  rw [encode_eq_iff]
  constructor
  · intro h
    have hop := opcode_of_decode h
    rw [decode_eq_mapRow hop, mapRow_eq_ok_iff] at h
    exact ⟨h.1, hop, h.2⟩
  · rintro ⟨hwf, hop, harg⟩
    rw [decode_eq_mapRow hop]
    exact (mapRow_eq_ok_iff i w).mpr ⟨hwf, harg⟩

/-- A command without an operand has one word, which its row's mask leaves whole (R71, R72). -/
theorem decode_eq_ok_iff_word {i : Instr} (hwf : i.wf = true) (w : Word) :
    decode w = .ok i ↔ w &&& 0xFFFFFFFF = encode i := by
  have hmask : w &&& 0xFFFFFFFF = w := BitVec.and_allOnes
  rw [decode_eq_ok_iff, hmask, eq_comm (a := w)]
  simp [hwf]

/-- A command with an operand is selected by match and mask, within the range `P` that is not reserved
(R71 to R73). -/
theorem decode_eq_ok_iff_match {m n : Nat} (h : n + m = 28) {i : Instr} {op : BitVec 4} {x : BitVec n}
    (hop : opcode i = op) (hi : operandField i = x.setWidth 28) {P : Prop} (hwf : i.wf = true ↔ P)
    {mask base : Word} (hmask : highMask n = mask) (hbase : assemble op 0 = base) (w : Word) :
    decode w = .ok i ↔ w &&& mask = base ∧ x = w.extractLsb' 0 n ∧ P := by
  rw [decode_eq_ok_iff, hwf, encode_eq_iff_match h hi, hop, hmask, hbase, and_comm, and_assoc]

/-- The row of a command with a symbol, none of which is reserved (R73, last paragraph). -/
theorem decode_eq_ok_iff_match_symbol {i : Instr} {x : BitVec 9} {op : BitVec 4}
    (hop : opcode i = op) (hi : operandField i = x.setWidth 28) (hwf : i.wf = true)
    {base : Word} (hbase : assemble op 0 = base) (w : Word) :
    decode w = .ok i ↔ w &&& 0xFFFFFE00 = base ∧ x = w.extractLsb' 0 9 := by
  rw [decode_eq_ok_iff_match (m := 19) (mask := 0xFFFFFE00) rfl hop hi (iff_true_intro hwf) rfl hbase,
    and_true]

/-! ## The statements about the decoder -/

/-- Settles O1, by the decoder's characterisation at the command's own word. -/
theorem decodeOfEncode : Obligations.DecodeOfEncode :=
  fun i h => (decode_eq_ok_iff (encode i) i).mpr ⟨h, rfl⟩

/-- Settles O2, by the same characterisation. -/
theorem encodeOfDecode : Obligations.EncodeOfDecode :=
  fun w i => (decode_eq_ok_iff w i).mp

/-- Settles O3: the word of a command with an `n`-bit operand is its match in the bits above the operand,
and the operand below. -/
theorem decodeIsMatchAndMask : Obligations.DecodeIsMatchAndMask := by
  intro w
  refine ⟨decode_eq_ok_iff_word rfl w, fun r => ?_, fun x => ?_, decode_eq_ok_iff_word rfl w,
    fun x => ?_, fun v => ?_, fun x => ?_, decode_eq_ok_iff_word rfl w, decode_eq_ok_iff_word rfl w,
    fun x => ?_, decode_eq_ok_iff_word rfl w, decode_eq_ok_iff_word rfl w, decode_eq_ok_iff_word rfl w,
    decode_eq_ok_iff_word rfl w⟩
  · exact decode_eq_ok_iff_match (m := 24) (i := .rdreg r) (op := 0x2) rfl rfl rfl decide_eq_true_iff rfl rfl w
  · exact decode_eq_ok_iff_match (m := 19) (i := .rdcum x) (op := 0x3) rfl rfl rfl decide_eq_true_iff rfl rfl w
  · exact decode_eq_ok_iff_match_symbol (op := 0x5) rfl rfl rfl rfl w
  · have hv : operandField (.mLocate v) = v.setWidth 28 := (BitVec.setWidth_eq v).symm
    rw [decode_eq_ok_iff_match (m := 0) (op := 0x6) (mask := 0xF0000000) (base := 0x60000000) rfl rfl hv
      (iff_true_intro rfl) rfl rfl, and_true]
  · exact decode_eq_ok_iff_match_symbol (op := 0x7) rfl rfl rfl rfl w
  · exact decode_eq_ok_iff_match_symbol (op := 0xA) rfl rfl rfl rfl w

/-- Settles O4: twelve words decoded. -/
theorem encodingExamples : Obligations.EncodingExamples := by
  unfold Obligations.EncodingExamples
  decide

/-! ## The words of the pseudo-commands -/

/-- R80: the word of `E.SYM b` is its opcode beside the byte. -/
theorem encode_symOfByte (b : Byte) :
    encode (Machine.symOfByte b) = 0xA0000000 ||| b.setWidth 32 := by
  show assemble 0xA ((b.setWidth 9).setWidth 28) = _
  rw [assemble, BitVec.append_def, BitVec.setWidth'_eq, BitVec.setWidth_setWidth (by omega),
    BitVec.setWidth_setWidth (by omega)]
  rfl

/-- Settles O54: each expansion is a list of fixed words but for its bytes. -/
theorem pseudoCommandWords : Obligations.PseudoCommandWords := by
  intro b bytes n
  have hbytes : bytes.map (encode ∘ Machine.symOfByte) = bytes.map (fun c => 0xA0000000 ||| c.setWidth 32) :=
    List.map_congr_left fun c _ => encode_symOfByte c
  refine ⟨?_, rfl, ?_, ?_⟩
  · rw [Machine.expand, List.map_singleton, encode_symOfByte]
  · rw [Machine.expand, List.map_append, List.map_cons, List.map_map, hbytes]
    rfl
  · rw [Machine.expand, List.map_append, List.map_cons, List.map_replicate]
    rfl

end Sys2Proof
end

section
/-! PROOFS. The encoding family, second part: the width of every field of every response (O55). -/

namespace Sys2Proof.Machine

/-! ## Widths -/

/-- The fields of a response fit under the parameters `p`, and `FAULT` comes with every other field
zero (R74). -/
def Response.Fits (p : Params) (r : Response) : Prop :=
  r.sym ≤ 256 ∧ r.lo < 2 ^ p.freqBits ∧ r.hi < 2 ^ p.freqBits ∧ r.total < 2 ^ p.freqBits
    ∧ r.data < 2 ^ p.xlen ∧ (r.status = .fault → r = ⟨.fault, 0, 0, 0, 0, 0⟩)

theorem fits_statusOnly (p : Params) (st : Status) : Response.Fits p { status := st } := by
  refine ⟨Nat.zero_le _, ?_, ?_, ?_, ?_, fun h => by rw [show st = .fault from h]⟩ <;> positivity

theorem fits_symbol (p : Params) {st : Status} (hst : st ≠ .fault) {sym : Nat} (h : sym ≤ 256) :
    Response.Fits p { status := st, sym := sym } := by
  refine ⟨h, ?_, ?_, ?_, ?_, fun hf => absurd hf hst⟩ <;> positivity

theorem fits_data {p : Params} {v : Nat} (h : v < 2 ^ p.xlen) :
    Response.Fits p { status := .ok, data := v } := by
  refine ⟨Nat.zero_le _, ?_, ?_, ?_, h, nofun⟩ <;> positivity

theorem fits_total {p : Params} {v : Nat} (h : v < 2 ^ p.freqBits) :
    Response.Fits p { status := .ok, total := v } := by
  refine ⟨Nat.zero_le _, ?_, ?_, h, ?_, nofun⟩ <;> positivity

theorem lt_two_pow_xlen {p : Params} {n v : Nat} (hn : n ≤ p.xlen) (h : v < 2 ^ n) : v < 2 ^ p.xlen :=
  h.trans_le (Nat.pow_le_pow_right Nat.two_pos hn)

/-- R10: words, the coder registers and `PENDING` are all at most `XLEN` wide. -/
theorem le_xlen (p : Params) : 32 ≤ p.xlen ∧ p.codeBits ≤ p.xlen ∧ p.pendBits ≤ p.xlen := by
  simp [Params.xlen]

theorem freqBits_le_xlen {p : Params} (h : p.valid = true) : p.freqBits ≤ p.xlen := by
  have := p.valid_iff.mp h
  have := le_xlen p
  omega

/-- R22: a word of a sound table is `FREQ_BITS` wide. -/
theorem TableInv.cumAt_lt {p : Params} {m : Memory} {f : Bool} (t : TableInv p m f) {i : Nat}
    (h : i ≤ 257) : cumAt m i < 2 ^ p.freqBits :=
  Nat.lt_of_le_pred (by positivity) ((t.mono h le_rfl).trans t.total)

theorem fits_bounds {p : Params} {m : Memory} {f : Bool} (t : TableInv p m f) {k : Nat} (hk : k ≤ 256) :
    Response.Fits p (boundsResponse (prob k m)) :=
  ⟨hk, t.cumAt_lt (by omega), t.cumAt_lt (by omega), t.cumAt_lt le_rfl, by simp [boundsResponse], nofun⟩

/-- R24 to R32: every register is at most `XLEN` wide. -/
theorem Invariant.register_lt {s : State} (h : Invariant s) {v : Nat} (hv : v ∈ registerFile s) :
    v < 2 ^ s.params.xlen := by
  obtain ⟨hword, hcode, hpend⟩ := le_xlen s.params
  have word (w : Word) : w.toNat < 2 ^ s.params.xlen := lt_two_pow_xlen hword w.isLt
  have code {x : Nat} (hx : x ≤ s.params.maxCode) : x < 2 ^ s.params.xlen :=
    lt_two_pow_xlen hcode (Nat.lt_of_le_pred (by positivity) hx)
  have hoverrun : s.overrun ≤ s.params.codeBits := h.overrunFits.trans (Nat.sub_le _ _)
  simp only [registerFile, List.mem_cons, List.not_mem_nil, or_false] at hv
  rcases hv with rfl | rfl | rfl | rfl | rfl | rfl | rfl | rfl
  · exact word _
  · exact word _
  · exact code (h.ordered.trans h.highFits)
  · exact code h.highFits
  · exact code h.valueFits
  · exact lt_two_pow_xlen hpend (Nat.lt_of_le_pred (by positivity) h.pendingFits)
  · exact lt_two_pow_xlen hcode (hoverrun.trans_lt Nat.lt_two_pow_self)
  · exact word _

/-! ## The response of each pseudocode -/

/-- Where the run ends without a fault, its result meets `P`. -/
def Run.Gives {α : Type} (P : α → Prop) : Run α → Prop
  | .ok a _ => P a
  | .raised _ _ => True
  | .stuck _ => True

/-- A run's result is that of its last piece. -/
theorem Run.Gives.bind {α β : Type} {P : β → Prop} {r : Run α} {k : α → State → Run β}
    (hk : ∀ a t, (k a t).Gives P) : (r.bind k).Gives P := by
  cases r with
  | ok a t => exact hk a t
  | raised c t => trivial
  | stuck f => trivial

theorem decodeSymbol_fits (p : Params) {b : Bounds} (hb : b.symbol ≤ 256) (s : State) :
    (decodeSymbol b s).Gives (Response.Fits p) :=
  Run.Gives.bind fun _ _ => Run.Gives.bind fun _ _ => fits_symbol p (by decide) hb

/-- Under the invariant the response of a command that passed the prologue fits. -/
theorem body_fits {i : Instr} {s : State} (h : Invariant s) (hf : s.mode = .fault → runsInFault i = true)
    (hw : i.wf = true) (hs : symbolTooLarge i = false) : (body i s).Gives (Response.Fits s.params) := by
  have valid (hr : runsInFault i = false) : s.params.valid = true := h.valid fun hm => by simp [hf hm] at hr
  have table (hr : runsInFault i = false) := h.table (valid hr)
  cases i with
  | reset | mInit | mObserve | eInit | dEnd => exact fits_statusOnly _ _
  | rdreg r =>
    have hr := (rdreg_wf_iff r s).mp hw
    rw [body_rdreg (List.getElem?_eq_getElem hr)]
    exact fits_data (h.register_lt (List.getElem_mem hr))
  | rdcum idx =>
    have hlt := (table rfl).cumAt_lt (of_decide_eq_true hw : idx.toNat ≤ 257)
    exact fits_data (lt_two_pow_xlen (freqBits_le_xlen (valid rfl)) hlt)
  | mProb sym => exact fits_bounds (table rfl) (by simpa [symbolTooLarge, symbolOperand] using hs)
  | mLocate v =>
    simp only [body]
    split
    · trivial
    · rw [locate_eq_prob]
      exact fits_bounds (table rfl) (locate_symbol_le _ _)
  | mTotal => exact fits_total ((table rfl).cumAt_lt le_rfl)
  | eSym sym => exact Run.Gives.bind fun _ _ => Run.Gives.bind fun _ _ => fits_statusOnly _ _
  | eFinish =>
    exact Run.Gives.bind fun _ _ => Run.Gives.bind fun _ _ => Run.Gives.bind fun _ _ => fits_statusOnly _ _
  | dInit => exact Run.Gives.bind fun _ _ => fits_statusOnly _ _
  | dSym =>
    refine Run.Gives.bind fun scaled t => ?_
    split
    · exact fits_symbol _ (by decide) le_rfl
    · exact decodeSymbol_fits _ (locate_symbol_le _ _) t

/-- A command delivers one response, and it fits. -/
theorem exec_rsp_fits {i : Instr} {s t : State} (h : Invariant s) (he : exec i s = .next t) :
    ∃ a, t.rsp = s.rsp ++ [a] ∧ a.Fits s.params := by
  have hfault : Response.Fits s.params { status := .fault } := fits_statusOnly _ _
  rw [exec_eq_command] at he
  rcases command_cases i (body i) s with ⟨-, -, e⟩ | ⟨c, -, -, e⟩ | ⟨hf, hw, -, hs, e⟩ <;> rw [e] at he
  · cases he
    exact ⟨_, answerFaulted_rsp s, hfault⟩
  · cases he
    exact ⟨_, takeFault_rsp c (encode i) s, hfault⟩
  · have hkeeps := body_keepsRsp i s
    have hfits := body_fits h hf hw hs
    rcases conclude_next he with ⟨a, u, hu, rfl⟩ | ⟨c, u, hu, rfl⟩ <;> rw [hu] at hkeeps hfits
    · exact ⟨a, congrArg (· ++ [a]) hkeeps, hfits⟩
    · exact ⟨_, congrArg (· ++ [_]) hkeeps, hfault⟩

/-- Settles O55: outside the prologue's faults the response is the one the pseudocode gives, whose fields
are a symbol, words of a sound table, or a register. -/
theorem responseFieldsFit : Obligations.ResponseFieldsFit := by
  intro i s t r h he hr
  obtain ⟨a, ha, hfits⟩ := exec_rsp_fits h he
  obtain rfl : r = a := by simpa [ha] using hr.symm
  exact hfits

end Sys2Proof.Machine
end

section
/-! PROOFS. The model commands: the commands that read the table (O20, O22, O23, O26) and that write it
(O21, O25), `Locate` as the inverse of `Prob` (O27), `Rescale` (O28), and the table's invariants (O29). -/

namespace Sys2Proof.Machine

/-- Outside `FAULT` mode a command that passes every check runs its pseudocode (R155). -/
theorem exec_runs {i : Instr} {s : State} (hm : s.mode ≠ .fault) (hw : i.wf = true)
    (hl : legalMode i s.mode = true) (hs : symbolTooLarge i = false) :
    exec i s = conclude (encode i) (body i s) := by
  rw [exec_eq_command, command_runs hm hw hl hs]

/-- Where its pseudocode ends without a fault, the command delivers the response (R15, R74). -/
theorem exec_of_body_ok {i : Instr} {s t : State} {r : Response} (hb : body i s = .ok r t)
    (hm : s.mode ≠ .fault) (hw : i.wf = true) (hl : legalMode i s.mode = true)
    (hs : symbolTooLarge i = false) : exec i s = .next (respond r t) := by
  rw [exec_runs hm hw hl hs, hb, conclude_ok]

/-- A symbol of the alphabet passes the range check of the commands that take one (R155 step 4). -/
theorem symbolTooLarge_eq_false {i : Instr} {sym : Nat} (hi : symbolOperand i = some sym)
    (h : sym ≤ 256) : symbolTooLarge i = false := by
  simp [symbolTooLarge, hi, h]

/-! ## The commands that read the table -/

/-- Settles O20, by `RDCUM`'s own pseudocode. -/
theorem rdcumReadsWord : Obligations.RdcumReadsWord :=
  fun _ x hm hx => exec_of_body_ok (i := .rdcum x) rfl hm (decide_eq_true hx) (decide_eq_true hm) rfl

/-- Settles O26, by `M.TOTAL`'s own pseudocode. -/
theorem mTotalAnswersLiveTotal : Obligations.MTotalAnswersLiveTotal :=
  fun _ hm => exec_of_body_ok (i := .mTotal) rfl hm rfl (decide_eq_true hm) rfl

/-- Settles O22, by `M.PROB`'s own pseudocode. -/
theorem mProbAnswersBounds : Obligations.MProbAnswersBounds :=
  fun _ x hm hx => exec_of_body_ok (i := .mProb x) rfl hm rfl (decide_eq_true hm)
    (symbolTooLarge_eq_false rfl hx)

/-- Below the total `M.LOCATE` answers what `M.PROB` answers for the symbol found (R91, R99). -/
theorem exec_mLocate {s : State} {v : BitVec 28} (hm : s.mode ≠ .fault)
    (hv : v.toNat < cumAt s.cum 257) :
    exec (.mLocate v) s
      = .next (respond (boundsResponse (prob (locate v.toNat s.cum).symbol s.cum)) s) := by
  have hbody : body (.mLocate v) s = .ok (boundsResponse (locate v.toNat s.cum)) s :=
    if_neg (Nat.not_le.mpr hv)
  rw [← locate_eq_prob]
  exact exec_of_body_ok hbody hm rfl (decide_eq_true hm) rfl

/-- Settles O23: the symbol that `Locate` finds owns the value, and a value has one owner. -/
theorem mLocateFindsOwner : Obligations.MLocateFindsOwner := by
  intro s v hm ht hv
  have hle := locate_symbol_le v.toNat s.cum
  obtain ⟨hlow, hhigh⟩ := locate_owns ht hv
  exact ⟨_, hle, hlow, hhigh, fun j hj h1 h2 => ht.owner_unique hj hle h1 h2 hlow hhigh,
    exec_mLocate hm hv⟩

/-! ## `Locate` and `Prob` -/

/-- No interval reaches above the total (R22). -/
theorem TableInv.upper_le_total {p : Params} {m : Memory} {f : Bool} (t : TableInv p m f) {k : Nat}
    (hk : k ≤ 256) : cumAt m (k + 1) ≤ cumAt m 257 :=
  t.mono (by omega) le_rfl

/-- Every count of a symbol's interval is located at that symbol, with its bounds (R104). -/
theorem locate_of_owns {p : Params} {m : Memory} {f : Bool} (t : TableInv p m f) {k v : Nat}
    (hk : k ≤ 256) (hlow : cumAt m k ≤ v) (hhigh : v < cumAt m (k + 1)) : locate v m = prob k m := by
  obtain ⟨h1, h2⟩ := locate_owns t (hhigh.trans_le (t.upper_le_total hk))
  rw [locate_eq_prob, t.owner_unique (locate_symbol_le v m) hk h1 h2 hlow hhigh]

/-- Settles O27: `Locate` at every count of the symbol's interval, which its frequency keeps from being
empty, so that the first count of it is one. -/
theorem locateInvertsProb : Obligations.LocateInvertsProb := by
  intro p m f t k hk
  have hinc := t.increasing k hk
  exact ⟨fun v => locate_of_owns t hk,
    cumAt m k, hinc.trans_le (t.upper_le_total hk), locate_of_owns t hk le_rfl hinc⟩

/-! ## The commands that write the table -/

/-- Settles O21, by `M.INIT`'s own pseudocode. -/
theorem mInitFreshModel : Obligations.MInitFreshModel :=
  fun _ hm => exec_of_body_ok (i := .mInit) rfl (by simp [hm]) rfl (decide_eq_true hm) rfl

/-- Settles O25: `Observe` writes the table and `FROZEN` only, and leaves in them the model of R93 and
R94. -/
theorem mObserveCounts : Obligations.MObserveCounts := by
  intro s x hm hlen hx
  obtain ⟨hmodel, haccepted⟩ := observedModel_eq_observe x.toNat s hlen hx
  have hbody : body (.mObserve x) s =
      .ok { status := if s.frozen then .rejected else .ok }
        { s with cum := (observedModel x.toNat s).1, frozen := (observedModel x.toNat s).2 } := by
    rw [hmodel, ← observe_frame]
    cases hf : s.frozen <;> simp [body, haccepted, hf]
  exact exec_of_body_ok hbody (by simp [hm]) rfl (decide_eq_true hm) (symbolTooLarge_eq_false rfl hx)

/-! ## `Rescale` and the table's invariants -/

/-- Settles O28: each word of the rescaled table is the one before it and half a frequency, rounded
up, and such a table meets the invariants of a live model. -/
theorem rescaleHalvesFrequencies : Obligations.RescaleHalvesFrequencies := by
  intro p m hv hlen hinc _ htotal
  have ht := rescale_inv hv hlen hinc htotal
  refine ⟨ht.zero, fun k hk => ?_, ht.increasing, ht.live rfl⟩
  rw [cumAt_rescale_succ m hlen k hk, Nat.add_sub_cancel_left]

/-- `Observe` is rejected exactly where the model is frozen (R93, R176). -/
theorem observe_rejected_iff (sym : Nat) (s : State) :
    (observe sym s).1 = false ↔ s.frozen = true := by
  rcases observe_cases sym s with ⟨hf, e⟩ | ⟨hf, -, e⟩ | ⟨hf, -, -, e⟩ | ⟨hf, -, -, e⟩ <;> simp [e, hf]

/-- A frozen model is left as it is (R93). -/
theorem observe_of_frozen (sym : Nat) {s : State} (h : s.frozen = true) : observe sym s = (false, s) :=
  if_pos h

/-- Settles O29: the fresh table meets the invariants, each branch of `Observe` keeps them, and a command
that does not write the table leaves it alone by its frame. -/
theorem tableInvariantKept : Obligations.TableInvariantKept := by
  refine fun s hv => ⟨freshTable_inv hv, fun ht sym hs => ⟨?_, ?_, fun hf => ?_⟩, fun i t hi he => ?_⟩
  · exact observe_tableInv hv ht hs
  · exact observe_rejected_iff sym s
  · rw [observe_of_frozen sym hf]
  · obtain ⟨-, -, htable, -⟩ := commandsChangeOnlyWhatIsListed i s t he
    exact htable hi

end Sys2Proof.Machine
end

section
/-! PROOFS. The coder datapath, first part: the shifter (O30), `Narrow` (O31), `EmitWithFollow` (O32),
`GetBit` (O33) and `Scale` (O37). -/

namespace Sys2Proof.Machine

/-! ## The shifter, `Narrow`, `GetBit` and `Scale` -/

/-- The mask of `Shl` is a remainder, and the doubled value leaves bit 0 free for the bit (R115). -/
theorem shl_eq {p : Params} (hc : 1 ≤ p.codeBits) (x : Nat) (b : Bit) :
    shl p x b = 2 * x % 2 ^ p.codeBits + b.toNat := by
  obtain ⟨n, hn⟩ : ∃ n, p.codeBits = n + 1 := ⟨p.codeBits - 1, by omega⟩
  have hb : b.toNat < 2 ^ 1 := Nat.lt_succ_of_le (bit_toNat_le b)
  have hdrop : 2 * x % 2 ^ p.codeBits = (x % 2 ^ n) <<< 1 := by
    rw [hn, Nat.pow_succ', Nat.mul_mod_mul_left, Nat.shiftLeft_eq, pow_one, Nat.mul_comm]
  rw [shl, Params.maxCode, Nat.and_two_pow_sub_one_eq_mod, Nat.shiftLeft_eq, pow_one, Nat.mul_comm,
    hdrop, Nat.shiftLeft_add_eq_or_of_lt hb]

/-- Settles O30, by the shifter's remainder. -/
theorem shlShiftsOneBit : Obligations.ShlShiftsOneBit := by
  intro p x b hc _
  rw [shl_eq hc]
  cases b <;> rfl

/-- Settles O31: the two quotients differ and neither exceeds the range; they are the range itself at
the top symbol, and 0 at the bottom one. -/
theorem narrowStaysInside : Obligations.NarrowStaysInside := by
  intro s k sl sh t hlt hle hceil ho hr
  obtain ⟨hq, htop⟩ := narrow_quotients hlt hle hr
  have hreq : narrowRequires ⟨k, sl, sh, t⟩ s = true := by
    simp only [narrowRequires, Bool.and_eq_true, decide_eq_true_eq]
    exact ⟨⟨⟨⟨hlt, hle⟩, hceil⟩, ho⟩, hr⟩
  refine ⟨_, _, rfl, rfl, narrow_of_requires hreq, Nat.le_add_right _ _, by omega, by omega, ?_, ?_⟩
  · rintro rfl
    rw [Nat.mul_div_cancel _ (by omega)]
    omega
  · rintro rfl
    rw [Nat.mul_zero, Nat.zero_div, Nat.add_zero]

/-- Settles O33, by the branches of `GetBit`. -/
theorem getBitRules : Obligations.GetBitRules := by
  intro s rest
  refine ⟨fun hb => ?_, fun b hb => ?_, fun hb ho => ?_, fun hb ho => ?_⟩ <;>
    simp only [getBit, hb]
  · exact if_pos ho
  · exact if_neg ho

/-- Settles O37: below the total by the decode invariant, and the owner's two quotients enclose `VALUE`. -/
theorem scaleFindsTheSymbol : Obligations.ScaleFindsTheSymbol := by
  intro s ht hl hh
  have hpos : 0 < cumAt s.cum 257 := (Nat.zero_le _).trans_lt (ht.increasing 256 le_rfl)
  obtain ⟨hscale, hlt⟩ := scale_eq hl hh hpos
  exact ⟨hscale, hlt, fun k _ hlow hhigh => narrowed_holds_value hl hpos hlow hhigh⟩

/-! ## `EmitWithFollow` -/

theorem Run.bind_assoc {α β γ : Type} (r : Run α) (k : α → State → Run β) (k' : β → State → Run γ) :
    (r.bind k).bind k' = r.bind fun a t => (k a t).bind k' := by
  cases r <;> rfl

/-- `EmitBit` of each bit in order. -/
def emitBits : List Bit → State → Run Unit
  | [], s => .ok () s
  | b :: bits, s => (emitBit b s).bind fun _ t => emitBits bits t

theorem emitRun_eq_emitBits (b : Bit) (n : Nat) (s : State) :
    emitRun b n s = emitBits (List.replicate n b) s := by
  induction n generalizing s with
  | zero => rfl
  | succ n ih => simp only [emitRun, List.replicate_succ, emitBits, ih]

theorem boTransact_raises {s : State} {later : List Bool} (h : s.boErr = true :: later) (item : BoItem) :
    boTransact item s = .raised .ioFailure { s with bo := s.bo ++ [⟨item, true⟩], boErr := later } := by
  simp only [boTransact, h]

theorem emitBits_takes {bits : List Bit} {s : State} (h : SinkTakes s bits.length) :
    emitBits bits s = .ok () (afterSent (sentBits bits) s) := by
  induction bits generalizing s with
  | nil => rw [emitBits, sentBits, List.map_nil, afterSent_nil]
  | cons b bits ih =>
    have hrest : SinkTakes (afterSent [⟨.bit b, false⟩] s) bits.length :=
      SinkTakes.rest (by simpa [Nat.add_comm] using h)
    rw [emitBits, emitBit, boTransact_takes (.bit b) s (h.first (by simp)), bind_ok, ih hrest,
      afterSent_afterSent]
    rfl

/-- A run of bits stops at the first `bo_err = 1`: the bits before it were accepted (R170, R179). -/
theorem emitBits_raises {bits : List Bit} {n : Nat} (hn : n < bits.length) {s : State}
    {later : List Bool} (h : s.boErr = List.replicate n false ++ true :: later) :
    emitBits bits s = .raised .ioFailure { s with
      bo := s.bo ++ sentBits (bits.take n) ++ [⟨.bit bits[n], true⟩], boErr := later } := by
  induction n generalizing bits s with
  | zero =>
    cases bits with
    | nil => simp at hn
    | cons b bits =>
      rw [emitBits, emitBit, boTransact_raises h, bind_raised, List.take_zero, sentBits, List.map_nil,
        List.append_nil]
      rfl
  | succ n ih =>
    cases bits with
    | nil => simp at hn
    | cons b bits =>
      have hfirst : SinkTakes s 1 := by simp [SinkTakes, h, List.replicate_succ]
      have hrest : (afterSent [⟨.bit b, false⟩] s).boErr = List.replicate n false ++ true :: later := by
        simp [afterSent, h, List.replicate_succ]
      rw [emitBits, emitBit, boTransact_takes (.bit b) s hfirst, bind_ok,
        ih (Nat.lt_of_succ_lt_succ hn) hrest]
      simp [afterSent, sentBits]

/-- The bits of `EmitWithFollow(b)` at `PENDING = q` (R113). -/
def followBits (b : Bit) (q : Nat) : List Bit := b :: List.replicate q (!b)

@[simp] theorem followBits_length (b : Bit) (q : Nat) : (followBits b q).length = 1 + q := by
  simp [followBits, Nat.add_comm]

theorem followBits_getElem (b : Bit) (q n : Nat) (h : n < (followBits b q).length) :
    (followBits b q)[n] = if n = 0 then b else !b := by
  cases n <;> simp [followBits]

theorem emitWithFollow_eq (b : Bit) (s : State) :
    emitWithFollow b s
      = (emitBits (followBits b s.pending) s).bind fun _ u => .ok () { u with pending := 0 } := by
  simp only [emitWithFollow, emitRun_eq_emitBits, followBits, emitBits, Run.bind_assoc]

theorem emitWithFollow_takes (b : Bit) {s : State} (h : SinkTakes s (1 + s.pending)) :
    emitWithFollow b s
      = .ok () { afterSent (sentBits (followBits b s.pending)) s with pending := 0 } := by
  rw [emitWithFollow_eq, emitBits_takes (by simpa using h), bind_ok]

theorem emitWithFollow_raises (b : Bit) {s : State} {n : Nat} {later : List Bool} (hn : n ≤ s.pending)
    (h : s.boErr = List.replicate n false ++ true :: later) :
    emitWithFollow b s = .raised .ioFailure { s with
      bo := s.bo ++ sentBits ((followBits b s.pending).take n) ++ [⟨.bit (if n = 0 then b else !b), true⟩]
      boErr := later } := by
  have hlt : n < (followBits b s.pending).length := by rw [followBits_length]; omega
  rw [emitWithFollow_eq, emitBits_raises hlt h, bind_raised, followBits_getElem]

/-- Settles O32: the bit and its follow bits are one run of bits, which the sink takes, or which stops
at the first bit refused. -/
theorem emitWithFollowRules : Obligations.EmitWithFollowRules := by
  intro s b
  refine ⟨fun h => ?_, fun n later hn h => ⟨_, rfl, emitWithFollow_raises b hn h⟩⟩
  rw [emitWithFollow_takes b h, afterSent, sentBits_length, followBits_length]
  rfl

end Sys2Proof.Machine
end

section
/-! PROOFS. The coder datapath, second part: the encode loop against its relation (O34), and `E.SYM` up to
a failed bit (O42). -/

namespace Sys2Proof.Machine

/-! ## One iteration, whichever case applies -/

/-- The bits a case emits at `PENDING = q` (R113, R116). -/
def caseBits : ECase → Nat → List Bit
  | .e1, q => followBits false q
  | .e2, q => followBits true q
  | .e3, _ => []

/-- `PENDING` after a case (R113, R122). -/
def casePending : ECase → Nat → Nat
  | .e3, q => q + 1
  | .e1, _ | .e2, _ => 0

theorem EncSteps.step {p : Params} {l h q l' h' q' : Nat} {out : List Bit} {c : ECase}
    (ha : c.applies p l h) (room : c = .e3 → q ≠ p.pendMax)
    (rest : EncSteps p (2 * (l - offset p c)) (2 * (h - offset p c) + 1) (casePending c q) out l' h' q') :
    EncSteps p l h q (caseBits c q ++ out) l' h' q' := by
  cases c with
  | e1 => exact .e1 ha rest
  | e2 => exact .e2 ha rest
  | e3 => exact .e3 ha (room rfl) rest

/-- Induction over completed encode iterations, with the three cases as one (R116). -/
theorem EncSteps.stepInduction {p : Params}
    {motive : {l h q l' h' q' : Nat} → {bits : List Bit} → EncSteps p l h q bits l' h' q' → Prop}
    (done : ∀ l h q, motive (.done (l := l) (h := h) (q := q)))
    (step : ∀ (c : ECase) (l h q l' h' q' : Nat) (out : List Bit) (ha : c.applies p l h)
      (room : c = .e3 → q ≠ p.pendMax)
      (rest : EncSteps p (2 * (l - offset p c)) (2 * (h - offset p c) + 1) (casePending c q) out l' h' q'),
      motive rest → motive (rest.step ha room))
    {l h q l' h' q' : Nat} {bits : List Bit} (st : EncSteps p l h q bits l' h' q') :
    motive st := by
  induction st with
  | done => exact done _ _ _
  | e1 c _ ih => exact step .e1 _ _ _ _ _ _ _ c nofun _ ih
  | e2 c _ ih => exact step .e2 _ _ _ _ _ _ _ c nofun _ ih
  | e3 c room _ ih => exact step .e3 _ _ _ _ _ _ _ c (fun _ => room) _ ih

/-- What a shift makes of an interval: it stays ordered and `CODE_BITS` wide, and its range doubles
(R116). -/
theorem shifted_bounds {p : Params} (hc : 2 ≤ p.codeBits) {c : ECase} {l h : Nat}
    (ha : c.applies p l h) (ho : l ≤ h) (hf : h ≤ p.maxCode) :
    2 * (l - offset p c) ≤ 2 * (h - offset p c) + 1 ∧ 2 * (h - offset p c) + 1 ≤ p.maxCode
      ∧ ∀ n, (2 * (h - offset p c) + 1 - 2 * (l - offset p c) + 1) * 2 ^ n = (h - l + 1) * 2 ^ (n + 1) := by
  obtain ⟨hl, hh⟩ := offset_bounds hc ha ho hf
  have h1 := p.half_eq hc
  have h2 := p.maxCode_eq hc
  refine ⟨by omega, by omega, fun n => ?_⟩
  rw [show 2 * (h - offset p c) + 1 - 2 * (l - offset p c) + 1 = (h - l + 1) * 2 by omega,
    Nat.mul_assoc, ← Nat.pow_succ']

theorem shiftInterval_eq {s : State} {c : ECase} (hc : 2 ≤ s.params.codeBits)
    (ha : c.applies s.params s.low s.high) (ho : s.low ≤ s.high) (hf : s.high ≤ s.params.maxCode) :
    shiftInterval c s
      = { s with
          low := 2 * (s.low - offset s.params c), high := 2 * (s.high - offset s.params c) + 1 } := by
  obtain ⟨hl, hh, -⟩ := shiftInterval_arith hc ha ho hf
  rw [← hl, ← hh]
  rfl

/-- Where a case applies, `2^n` times the range does not cover the code space for `n = 0` (R119). -/
theorem exists_succ_of_not_settled {p : Params} (hc : 2 ≤ p.codeBits) {l h n : Nat}
    (hf : h ≤ p.maxCode) (hr : 2 ^ p.codeBits ≤ (h - l + 1) * 2 ^ n) (hs : ¬ Settled p l h) :
    ∃ m, n = m + 1 := by
  cases n with
  | zero => exact (hs ((renormCase_none_iff p l h).mp (full_range_settled hc hf (by simpa using hr)))).elim
  | succ m => exact ⟨m, rfl⟩

theorem ECase.applies.not_settled {p : Params} {l h : Nat} {c : ECase} (ha : c.applies p l h)
    (ho : l ≤ h) : ¬ Settled p l h := by
  rw [← renormCase_none_iff, renormCase_of_applies ho ha]
  nofun

theorem exists_applies_of_not_settled {p : Params} {l h : Nat} (hs : ¬ Settled p l h) :
    ∃ c : ECase, c.applies p l h := by
  cases hcase : renormCase p l h with
  | none => exact (hs ((renormCase_none_iff p l h).mp hcase)).elim
  | some c => exact ⟨c, renormCase_some hcase⟩

theorem resolve_takes {c : ECase} {s : State} (room : c = .e3 → s.pending ≠ s.params.pendMax)
    (h : SinkTakes s (caseBits c s.pending).length) :
    resolve c s
      = .ok () { afterSent (sentBits (caseBits c s.pending)) s with pending := casePending c s.pending } := by
  cases c with
  | e1 | e2 => exact emitWithFollow_takes _ (by simpa [caseBits] using h)
  | e3 =>
    rw [resolve, incPending, if_neg (room rfl), caseBits, sentBits, List.map_nil, afterSent_nil]
    rfl

/-! ## The loop -/

/-- `s` after encode iterations that left these registers and emitted `bits` (R116). -/
def afterEncSteps (l h q : Nat) (bits : List Bit) (s : State) : State :=
  { afterSent (sentBits bits) s with low := l, high := h, pending := q }

theorem afterEncSteps_eq (l h q : Nat) (bits : List Bit) (s : State) :
    afterEncSteps l h q bits s = { s with
      low := l, high := h, pending := q
      bo := s.bo ++ sentBits bits, boErr := s.boErr.drop bits.length } := by
  rw [afterEncSteps, afterSent, sentBits_length]

theorem renormEnc_of_settled (n : Nat) {s : State} (h : Settled s.params s.low s.high) :
    renormEnc n s = .ok () s := by
  have hcase := (renormCase_none_iff _ _ _).mpr h
  cases n <;> simp only [renormEnc, hcase]

theorem renormEnc_succ (n : Nat) {s : State} {c : ECase} (ha : c.applies s.params s.low s.high)
    (ho : s.low ≤ s.high) :
    renormEnc (n + 1) s = (resolve c s).bind fun _ t => renormEnc n (shiftInterval c t) := by
  simp only [renormEnc, renormCase_of_applies ho ha]

/-- One iteration whose bits the sink takes (R116). -/
theorem renormEnc_step (n : Nat) {s : State} {c : ECase} (hc : 2 ≤ s.params.codeBits)
    (ha : c.applies s.params s.low s.high) (ho : s.low ≤ s.high) (hf : s.high ≤ s.params.maxCode)
    (room : c = .e3 → s.pending ≠ s.params.pendMax)
    (hs : SinkTakes s (caseBits c s.pending).length) :
    renormEnc (n + 1) s = renormEnc n (afterEncSteps (2 * (s.low - offset s.params c))
      (2 * (s.high - offset s.params c) + 1) (casePending c s.pending) (caseBits c s.pending) s) := by
  rw [renormEnc_succ n ha ho, resolve_takes room hs, bind_ok, shiftInterval_eq
    (s := { afterSent (sentBits (caseBits c s.pending)) s with pending := casePending c s.pending })
    hc ha ho hf]
  rfl

/-- Iterations after iterations are iterations. -/
theorem afterEncSteps_afterSent (l h q : Nat) (bits out : List Bit) (s : State) :
    afterEncSteps l h q out (afterSent (sentBits bits) s) = afterEncSteps l h q (bits ++ out) s := by
  rw [afterEncSteps, afterSent_afterSent, ← sentBits_append]
  rfl

theorem EncSteps.bounds {p : Params} (hc : 2 ≤ p.codeBits) {l h q l' h' q' : Nat} {bits : List Bit}
    (st : EncSteps p l h q bits l' h' q') (ho : l ≤ h) (hf : h ≤ p.maxCode) :
    l' ≤ h' ∧ h' ≤ p.maxCode := by
  induction st using EncSteps.stepInduction with
  | done => exact ⟨ho, hf⟩
  | step c l h q l' h' q' out ha _ _ ih =>
    obtain ⟨ho', hf', -⟩ := shifted_bounds hc ha ho hf
    exact ih ho' hf'

/-- The loop with fuel for `2^n` doublings runs through completed iterations and has fuel left for the
rest (R116, R119). -/
theorem EncSteps.renormEnc_eq {p : Params} (hc : 2 ≤ p.codeBits) {l h q l' h' q' : Nat}
    {bits : List Bit} (st : EncSteps p l h q bits l' h' q') (ho : l ≤ h) (hf : h ≤ p.maxCode) {n : Nat}
    (hr : 2 ^ p.codeBits ≤ (h - l + 1) * 2 ^ n) {s : State} (hp : s.params = p)
    (hs : SinkTakes s bits.length) :
    ∃ m, 2 ^ p.codeBits ≤ (h' - l' + 1) * 2 ^ m
      ∧ renormEnc n { s with low := l, high := h, pending := q }
        = renormEnc m (afterEncSteps l' h' q' bits s) := by
  induction st using EncSteps.stepInduction generalizing n s with
  | done l h q => exact ⟨n, hr, by rw [afterEncSteps, sentBits, List.map_nil, afterSent_nil]⟩
  | step c l h q l' h' q' out ha room _ ih =>
    subst hp
    obtain ⟨n, rfl⟩ := exists_succ_of_not_settled hc hf hr (ha.not_settled ho)
    obtain ⟨ho', hf', hr'⟩ := shifted_bounds hc ha ho hf
    rw [List.length_append] at hs
    obtain ⟨m, hm, e⟩ := ih ho' hf' (hr' n ▸ hr) (s := afterSent (sentBits (caseBits c q)) s) rfl
      (SinkTakes.rest (by rwa [sentBits_length]))
    have hstep := renormEnc_step n (s := { s with low := l, high := h, pending := q }) hc ha ho hf room
      (hs.first (Nat.le_add_right _ _))
    rw [afterEncSteps_afterSent] at e
    exact ⟨m, hm, hstep.trans e⟩

/-- `RenormEnc` runs through completed iterations; where a case still applies, it has an iteration left. -/
theorem EncSteps.renormEnc_codeBits {s : State} (hc : 2 ≤ s.params.codeBits) {l h q : Nat}
    {bits : List Bit} (st : EncSteps s.params s.low s.high s.pending bits l h q)
    (ho : s.low ≤ s.high) (hf : s.high ≤ s.params.maxCode) (hs : SinkTakes s bits.length) :
    ∃ m, (¬ Settled s.params l h → ∃ k, m = k + 1)
      ∧ renormEnc s.params.codeBits s = renormEnc m (afterEncSteps l h q bits s) := by
  obtain ⟨m, hm, e⟩ := st.renormEnc_eq hc ho hf (codeSpace_le_range s) rfl hs
  exact ⟨m, exists_succ_of_not_settled hc (st.bounds hc ho hf).2 hm, e⟩

theorem EncTrace.renormEnc {s : State} (hc : 2 ≤ s.params.codeBits) {l h q : Nat} {bits : List Bit}
    (tr : EncTrace s.params s.low s.high s.pending bits l h q) (ho : s.low ≤ s.high)
    (hf : s.high ≤ s.params.maxCode) (hs : SinkTakes s bits.length) :
    renormEnc s.params.codeBits s = .ok () (afterEncSteps l h q bits s) := by
  obtain ⟨m, -, e⟩ := tr.1.renormEnc_codeBits hc ho hf hs
  rw [e]
  exact renormEnc_of_settled m tr.2

/-- The loop raises where, after completed iterations, the next case cannot be resolved (R179). -/
theorem EncSteps.renormEnc_raises {s : State} (hc : 2 ≤ s.params.codeBits) {l h q : Nat}
    {bits : List Bit} (st : EncSteps s.params s.low s.high s.pending bits l h q)
    (ho : s.low ≤ s.high) (hf : s.high ≤ s.params.maxCode) (hs : SinkTakes s bits.length) {c : ECase}
    (ha : c.applies s.params l h) {f : FaultCode} {t : State}
    (hres : resolve c (afterEncSteps l h q bits s) = .raised f t) :
    renormEnc s.params.codeBits s = .raised f t := by
  have ho' := (st.bounds hc ho hf).1
  obtain ⟨m, hm, e⟩ := st.renormEnc_codeBits hc ho hf hs
  obtain ⟨k, rfl⟩ := hm (ha.not_settled ho')
  rw [e, renormEnc_succ k (s := afterEncSteps l h q bits s) ha ho', hres, bind_raised]

/-- From any interval the iterations reach a settled one, or the E3 case with `PENDING` at its maximum;
`n` of them are enough once `2^n` times the range covers the code space, and count at most `n` up
(R116, R119, R122). -/
theorem exists_encSteps {p : Params} (hc : 2 ≤ p.codeBits) (n : Nat) {l h : Nat} (q : Nat)
    (ho : l ≤ h) (hf : h ≤ p.maxCode) (hr : 2 ^ p.codeBits ≤ (h - l + 1) * 2 ^ n) :
    ∃ l' h' q' bits, EncSteps p l h q bits l' h' q'
      ∧ (Settled p l' h' ∨ (q' = p.pendMax ∧ Underflow p l' h' ∧ q' < q + n)) := by
  induction n generalizing l h q with
  | zero =>
    have hn := full_range_settled hc hf (by simpa using hr)
    exact ⟨l, h, q, [], .done, .inl ((renormCase_none_iff _ _ _).mp hn)⟩
  | succ n ih =>
    by_cases hset : Settled p l h
    · exact ⟨l, h, q, [], .done, .inl hset⟩
    obtain ⟨c, ha⟩ := exists_applies_of_not_settled hset
    by_cases room : c = .e3 → q ≠ p.pendMax
    · obtain ⟨ho', hf', hr'⟩ := shifted_bounds hc ha ho hf
      obtain ⟨l', h', q', bits, st, hend⟩ := ih (casePending c q) ho' hf' (hr' n ▸ hr)
      have hq : casePending c q ≤ q + 1 := by cases c <;> simp [casePending]
      exact ⟨l', h', q', _, st.step ha room, hend.imp_right fun ⟨h1, h2, h3⟩ => ⟨h1, h2, by omega⟩⟩
    · obtain ⟨rfl, rfl⟩ : c = .e3 ∧ q = p.pendMax := by simpa using room
      exact ⟨l, h, _, [], .done, .inr ⟨rfl, ha, by omega⟩⟩

/-- Settles O34: the loop is its relation, which goes on while a case applies and `PENDING` has room. -/
theorem renormEncFollowsCases : Obligations.RenormEncFollowsCases := by
  intro s hv ho hf
  have hc : 2 ≤ s.params.codeBits := by have := s.params.codeBits_ge hv; omega
  obtain ⟨l, h, q, bits, st, hend⟩ := exists_encSteps hc _ s.pending ho hf (codeSpace_le_range s)
  refine ⟨fun l h q bits tr hs => ?_, ⟨l, h, q, bits, st, ?_⟩, fun hroom => ⟨l, h, q, bits, st, ?_⟩⟩
  · obtain ⟨ho', hf'⟩ := tr.1.bounds hc ho hf
    exact ⟨ho', hf', by rw [tr.renormEnc hc ho hf hs, afterEncSteps_eq]⟩
  · exact hend.imp_right fun ⟨hq, hu, _⟩ => ⟨hq, hu⟩
  · exact hend.resolve_right fun ⟨hq, _, hlt⟩ => by omega

/-! ## `E.SYM` -/

/-- What the coder asks of the registers between symbols: the part of the invariant that concerns the
table and the interval (R22, R24, R103, R119). -/
structure Coding (s : State) : Prop where
  valid : s.params.valid = true
  table : TableInv s.params s.cum s.frozen
  settled : Settled s.params s.low s.high
  highFits : s.high ≤ s.params.maxCode

theorem Invariant.coding {s : State} (h : Invariant s) (hm : s.mode ≠ .fault) : Coding s :=
  ⟨h.valid hm, h.table (h.valid hm), h.settled hm, h.highFits⟩

theorem Coding.codeBits {s : State} (h : Coding s) : 2 ≤ s.params.codeBits := by
  have := s.params.codeBits_ge h.valid
  omega

/-- The interval narrowed to a symbol is ordered and lies inside the old one (R111). -/
theorem Coding.narrowed {s : State} (h : Coding s) {k : Nat} (hk : k ≤ 256) :
    s.low ≤ narrowedLow s k ∧ narrowedLow s k ≤ narrowedHigh s k ∧ narrowedHigh s k ≤ s.high :=
  (narrow_prob h.valid h.table h.settled hk s rfl rfl rfl).2

/-- `s` narrowed to the symbol `sym`, which is counted: where each loop starts (R131, R141). -/
def narrowedCounted (sym : Nat) (s : State) : State :=
  { s with
    low := narrowedLow s sym, high := narrowedHigh s sym
    cum := (observedModel sym s).1, frozen := (observedModel sym s).2 }

theorem observe_eq_observedModel {s : State} (hlen : s.cum.length = 258) {sym : Nat} (hs : sym ≤ 256) :
    (observe sym s).2 = { s with cum := (observedModel sym s).1, frozen := (observedModel sym s).2 } := by
  rw [(observedModel_eq_observe sym s hlen hs).1, ← observe_frame]

theorem afterEncSteps_narrowedCounted (sym l h q : Nat) (bits : List Bit) (s : State) :
    afterEncSteps l h q bits (narrowedCounted sym s) = encodedSteps sym l h q bits s := by
  rw [afterEncSteps_eq]
  rfl

/-- `E.SYM`'s pseudocode is the encode loop from the narrowed interval, and then the end of the symbol
(R131). -/
theorem body_eSym {s : State} (h : Coding s) {x : BitVec 9} (hx : x.toNat ≤ 256) :
    body (.eSym x) s = (renormEnc s.params.codeBits (narrowedCounted x.toNat s)).bind fun _ u =>
      .ok { status := .ok } (afterSymbol x.toNat u) := by
  obtain ⟨hn, -⟩ := narrow_prob h.valid h.table h.settled hx s rfl rfl rfl
  have ho := observe_eq_observedModel
    (s := { s with low := narrowedLow s x.toNat, high := narrowedHigh s x.toNat }) h.table.length hx
  simp only [body, hn, bind_ok, ho]
  rfl

theorem exec_eSym_runs {s : State} (hm : s.mode = .enc) {x : BitVec 9} (hx : x.toNat ≤ 256) :
    exec (.eSym x) s = conclude (encode (.eSym x)) (body (.eSym x) s) :=
  exec_runs (by simp [hm]) rfl (decide_eq_true hm) (symbolTooLarge_eq_false rfl hx)

/-- `E.SYM` where its loop ends and the sink takes the bits (R131). -/
theorem exec_eSym {s : State} (h : Coding s) (hm : s.mode = .enc) {x : BitVec 9} (hx : x.toNat ≤ 256)
    {l u q : Nat} {bits : List Bit}
    (tr : EncTrace s.params (narrowedLow s x.toNat) (narrowedHigh s x.toNat) s.pending bits l u q)
    (hs : SinkTakes s bits.length) :
    exec (.eSym x) s = .next { encodedSteps x.toNat l u q bits s with
      mode := if x.toNat = 256 then .encEos else .enc
      rsp := s.rsp ++ [⟨.ok, 0, 0, 0, 0, 0⟩] } := by
  obtain ⟨-, ho, hf⟩ := h.narrowed hx
  have hloop : renormEnc s.params.codeBits (narrowedCounted x.toNat s) = _ :=
    EncTrace.renormEnc (s := narrowedCounted x.toNat s) h.codeBits tr ho (hf.trans h.highFits) hs
  rw [exec_eSym_runs hm hx, body_eSym h hx, hloop, afterEncSteps_narrowedCounted, bind_ok, conclude_ok,
    afterSymbol]
  split
  · rfl
  · rw [← hm]
    rfl

/-- `E.SYM` where, after completed iterations, the next case cannot be resolved (R179). -/
theorem exec_eSym_raises {s : State} (h : Coding s) (hm : s.mode = .enc) {x : BitVec 9}
    (hx : x.toNat ≤ 256) {l u q : Nat} {bits : List Bit}
    (st : EncSteps s.params (narrowedLow s x.toNat) (narrowedHigh s x.toNat) s.pending bits l u q)
    (hs : SinkTakes s bits.length) {c : ECase} (ha : c.applies s.params l u) {f : FaultCode} {t : State}
    (hres : resolve c (encodedSteps x.toNat l u q bits s) = .raised f t) :
    exec (.eSym x) s = .next (takeFault f (encode (.eSym x)) t) := by
  obtain ⟨-, ho, hf⟩ := h.narrowed hx
  rw [← afterEncSteps_narrowedCounted] at hres
  have hloop : renormEnc s.params.codeBits (narrowedCounted x.toNat s) = _ :=
    EncSteps.renormEnc_raises (s := narrowedCounted x.toNat s) h.codeBits st ho (hf.trans h.highFits)
      hs ha hres
  rw [exec_eSym_runs hm hx, body_eSym h hx, hloop, bind_raised, conclude_raised]

theorem encode_eSym (x : BitVec 9) : encode (.eSym x) = 0xA0000000 ||| x.setWidth 32 := by
  show assemble 0xA (x.setWidth 28) = _
  rw [assemble, BitVec.append_def, BitVec.setWidth'_eq, BitVec.setWidth_setWidth (by omega)]
  rfl

/-- Settles O42: the failed bit is one of `EmitWithFollow`, in the iteration after the completed ones. -/
theorem eSymFailsPrecisely : Obligations.ESymFailsPrecisely := by
  intro s x l h q m b bits later hi hm hx st hb hmq herr
  have hs : SinkTakes s bits.length := by
    simp [SinkTakes, herr, List.take_append_of_le_length, List.take_replicate]
  have herr' : (encodedSteps x.toNat l h q bits s).boErr = List.replicate m false ++ true :: later := by
    simp [encodedSteps, herr, List.drop_append_of_le_length]
  have hraise := emitWithFollow_raises b (s := encodedSteps x.toNat l h q bits s) hmq herr'
  obtain ⟨c, ha, hc⟩ : ∃ c : ECase, c.applies s.params l h
      ∧ resolve c (encodedSteps x.toNat l h q bits s)
        = emitWithFollow b (encodedSteps x.toNat l h q bits s) := by
    obtain ⟨rfl, hcase⟩ | ⟨rfl, hcase⟩ := hb
    exacts [⟨.e1, hcase, rfl⟩, ⟨.e2, hcase, rfl⟩]
  rw [exec_eSym_raises (hi.coding (by simp [hm])) hm hx st hs ha (hc.trans hraise),
    takeFault_eq_faulted, encode_eSym, sentBits_append, ← List.append_assoc]
  rfl

end Sys2Proof.Machine
end

section
/-! PROOFS. The coder datapath, third part: the decode loop against its relation (O35). -/

namespace Sys2Proof.Machine

/-! ## The bits of a source -/

theorem sourceGives_nil (s : State) : SourceGives s [] := by
  simp [SourceGives, sourceBits]

/-- A source gives a list of bits if it gives the first, and then the others (R78, R114). -/
theorem sourceGives_cons_iff (b : Bit) (bits : List Bit) (s : State) :
    SourceGives s (b :: bits) ↔ SourceGives s [b] ∧ SourceGives (afterFetched 1 s) bits := by
  cases hbi : s.bi with
  | nil =>
    have hroom : s.overrun + (bits.length + 1) ≤ s.params.overrunMax ↔ s.overrun < s.params.overrunMax
        ∧ (bits = [] ∨ s.overrun + 1 + bits.length ≤ s.params.overrunMax) := by
      rw [← List.length_eq_zero_iff]
      omega
    simp [SourceGives, sourceBits, afterFetched, hbi, List.replicate_succ, hroom]
    tauto
  | cons a later =>
    simp [SourceGives, sourceBits, afterFetched, hbi]
    tauto

/-- A bit that the source gives is fetched (R114). -/
theorem getBit_of_sourceGives {b : Bit} {s : State} (h : SourceGives s [b]) :
    getBit s = .ok b (afterFetched 1 s) := by
  obtain ⟨herr, hbit, hroom⟩ := h
  rcases getBit_cases s with ⟨rest, hb, e⟩ | ⟨b', rest, hb, e⟩ | ⟨hb, ho, e⟩ | ⟨hb, ho, e⟩
  · simp [hb] at herr
  · simp [sourceBits, hb] at hbit
    simp [e, afterFetched, hb, hbit]
  · simp [hb, ho] at hroom
  · simp [sourceBits, hb] at hbit
    simp [e, afterFetched, hb, hbit]

/-- Without a further bit the source raises; else it gives one (R114, R168, R170). -/
theorem sourceRaises_or_gives {s : State} (h : s.bi ≠ [] ∨ s.overrun ≤ s.params.overrunMax) :
    SourceRaises s 0 ∨ ∃ b, SourceGives s [b] := by
  rcases getBit_cases s with ⟨rest, hb, -⟩ | ⟨b, rest, hb, -⟩ | ⟨hb, ho, -⟩ | ⟨hb, ho, -⟩
  · exact .inl (.inl ⟨rest, hb⟩)
  · exact .inr ⟨b, by simp [SourceGives, sourceBits, hb]⟩
  · exact .inl (.inr ⟨by simp [hb], by simp [hb, ho]⟩)
  · refine .inr ⟨false, by simp [hb], by simp [sourceBits, hb], .inr ?_⟩
    have := h.resolve_left (not_not.mpr hb)
    simp [hb]
    omega

theorem sourceRaises_succ {s : State} {n : Nat} (h : SourceRaises (afterFetched 1 s) n) :
    SourceRaises s (n + 1) := by
  refine h.imp (fun ⟨later, hd⟩ => ⟨later, ?_⟩) fun ⟨hlen, ho⟩ => ?_
  · rw [← hd, afterFetched, List.drop_drop, Nat.add_comm]
  · simp only [afterFetched, List.length_drop] at hlen ho
    omega

/-! ## One iteration, whichever case applies -/

theorem DecSteps.step {p : Params} {l h v l' h' v' : Nat} {b : Bit} {bits : List Bit} {c : ECase}
    (ha : c.applies p l h)
    (rest : DecSteps p (2 * (l - offset p c)) (2 * (h - offset p c) + 1)
      (2 * (v - offset p c) + b.toNat) bits l' h' v') :
    DecSteps p l h v (b :: bits) l' h' v' := by
  cases c with
  | e1 => exact .e1 ha rest
  | e2 => exact .e2 ha rest
  | e3 => exact .e3 ha rest

/-- Induction over completed decode iterations, with the three cases as one (R117). -/
theorem DecSteps.stepInduction {p : Params}
    {motive : {l h v l' h' v' : Nat} → {bits : List Bit} → DecSteps p l h v bits l' h' v' → Prop}
    (done : ∀ l h v, motive (.done (l := l) (h := h) (v := v)))
    (step : ∀ (c : ECase) (l h v l' h' v' : Nat) (b : Bit) (bits : List Bit) (ha : c.applies p l h)
      (rest : DecSteps p (2 * (l - offset p c)) (2 * (h - offset p c) + 1)
        (2 * (v - offset p c) + b.toNat) bits l' h' v'),
      motive rest → motive (rest.step ha))
    {l h v l' h' v' : Nat} {bits : List Bit} (st : DecSteps p l h v bits l' h' v') :
    motive st := by
  induction st with
  | done => exact done _ _ _
  | e1 c _ ih => exact step .e1 _ _ _ _ _ _ _ _ c _ ih
  | e2 c _ ih => exact step .e2 _ _ _ _ _ _ _ _ c _ ih
  | e3 c _ ih => exact step .e3 _ _ _ _ _ _ _ _ c _ ih

/-- A shift keeps `VALUE` in the interval, whatever bit comes in (R120). -/
theorem shifted_window {p : Params} (hc : 2 ≤ p.codeBits) {c : ECase} {l h v : Nat}
    (ha : c.applies p l h) (hl : l ≤ v) (hh : v ≤ h) (hf : h ≤ p.maxCode) (b : Bit) :
    2 * (l - offset p c) ≤ 2 * (v - offset p c) + b.toNat
      ∧ 2 * (v - offset p c) + b.toNat ≤ 2 * (h - offset p c) + 1 := by
  have hoff := (offset_bounds hc ha (hl.trans hh) hf).1
  have hb := bit_toNat_le b
  omega

/-! ## The loop -/

/-- `s` after decode iterations that left these registers and fetched `n` bits (R117). -/
def afterDecSteps (l h v n : Nat) (s : State) : State :=
  { afterFetched n s with low := l, high := h, value := v }

theorem afterDecSteps_afterFetched (l h v m n : Nat) (s : State) :
    afterDecSteps l h v n (afterFetched m s) = afterDecSteps l h v (m + n) s := by
  rw [afterDecSteps, afterFetched_afterFetched]
  rfl

theorem renormDec_of_settled (n : Nat) {s : State} (h : Settled s.params s.low s.high) :
    renormDec n s = .ok () s := by
  have hcase := (renormCase_none_iff _ _ _).mpr h
  cases n <;> simp only [renormDec, hcase]

theorem renormDec_succ (n : Nat) {s : State} {c : ECase} (ha : c.applies s.params s.low s.high)
    (ho : s.low ≤ s.high) :
    renormDec (n + 1) s = (getBit s).bind fun b t => renormDec n (shiftWindow c b t) := by
  simp only [renormDec, renormCase_of_applies ho ha]

theorem shiftWindow_eq {s : State} {c : ECase} (hc : 2 ≤ s.params.codeBits)
    (ha : c.applies s.params s.low s.high) (hl : s.low ≤ s.value) (hh : s.value ≤ s.high)
    (hf : s.high ≤ s.params.maxCode) (b : Bit) :
    shiftWindow c b s = { s with
      low := 2 * (s.low - offset s.params c), high := 2 * (s.high - offset s.params c) + 1
      value := 2 * (s.value - offset s.params c) + b.toNat } := by
  obtain ⟨hlow, hhigh, -⟩ := shiftInterval_arith hc ha (hl.trans hh) hf
  obtain ⟨hvalue, -⟩ := shiftWindow_arith b hc ha hl hh hf
  rw [← hlow, ← hhigh, ← hvalue]
  rfl

/-- One iteration whose bit the source gives (R117). -/
theorem renormDec_step (n : Nat) {s : State} {c : ECase} (hc : 2 ≤ s.params.codeBits)
    (ha : c.applies s.params s.low s.high) (hl : s.low ≤ s.value) (hh : s.value ≤ s.high)
    (hf : s.high ≤ s.params.maxCode) {b : Bit} (hs : SourceGives s [b]) :
    renormDec (n + 1) s = renormDec n (afterDecSteps (2 * (s.low - offset s.params c))
      (2 * (s.high - offset s.params c) + 1) (2 * (s.value - offset s.params c) + b.toNat) 1 s) := by
  rw [renormDec_succ n ha (hl.trans hh), getBit_of_sourceGives hs, bind_ok,
    shiftWindow_eq (s := afterFetched 1 s) hc ha hl hh hf]
  rfl

theorem DecSteps.bounds {p : Params} (hc : 2 ≤ p.codeBits) {l h v l' h' v' : Nat} {bits : List Bit}
    (st : DecSteps p l h v bits l' h' v') (hl : l ≤ v) (hh : v ≤ h) (hf : h ≤ p.maxCode) :
    l' ≤ v' ∧ v' ≤ h' ∧ h' ≤ p.maxCode := by
  induction st using DecSteps.stepInduction with
  | done => exact ⟨hl, hh, hf⟩
  | step c l h v l' h' v' b bits ha _ ih =>
    obtain ⟨hl', hh'⟩ := shifted_window hc ha hl hh hf b
    exact ih hl' hh' (shifted_bounds hc ha (hl.trans hh) hf).2.1

/-- The loop with fuel for `2^n` doublings runs through completed iterations and has fuel left for the
rest (R117, R119). -/
theorem DecSteps.renormDec_eq {p : Params} (hc : 2 ≤ p.codeBits) {l h v l' h' v' : Nat}
    {bits : List Bit} (st : DecSteps p l h v bits l' h' v') (hl : l ≤ v) (hh : v ≤ h)
    (hf : h ≤ p.maxCode) {n : Nat} (hr : 2 ^ p.codeBits ≤ (h - l + 1) * 2 ^ n) {s : State}
    (hp : s.params = p) (hs : SourceGives s bits) :
    ∃ m, 2 ^ p.codeBits ≤ (h' - l' + 1) * 2 ^ m
      ∧ renormDec n { s with low := l, high := h, value := v }
        = renormDec m (afterDecSteps l' h' v' bits.length s) := by
  induction st using DecSteps.stepInduction generalizing n s with
  | done l h v => exact ⟨n, hr, by rw [afterDecSteps, List.length_nil, afterFetched_zero]⟩
  | step c l h v l' h' v' b bits ha _ ih =>
    subst hp
    have ho : l ≤ h := hl.trans hh
    obtain ⟨n, rfl⟩ := exists_succ_of_not_settled hc hf hr (ha.not_settled ho)
    obtain ⟨-, hf', hr'⟩ := shifted_bounds hc ha ho hf
    obtain ⟨hl', hh'⟩ := shifted_window hc ha hl hh hf b
    obtain ⟨hfirst, hrest⟩ := (sourceGives_cons_iff b bits s).mp hs
    obtain ⟨m, hm, e⟩ := ih hl' hh' hf' (hr' n ▸ hr) (s := afterFetched 1 s) rfl hrest
    have hstep := renormDec_step n (s := { s with low := l, high := h, value := v }) hc ha hl hh hf hfirst
    rw [afterDecSteps_afterFetched, Nat.add_comm 1] at e
    exact ⟨m, hm, hstep.trans e⟩

/-- `RenormDec` runs through completed iterations; where a case still applies, it has an iteration left. -/
theorem DecSteps.renormDec_codeBits {s : State} (hc : 2 ≤ s.params.codeBits) {l h v : Nat}
    {bits : List Bit} (st : DecSteps s.params s.low s.high s.value bits l h v)
    (hl : s.low ≤ s.value) (hh : s.value ≤ s.high) (hf : s.high ≤ s.params.maxCode)
    (hs : SourceGives s bits) :
    ∃ m, (¬ Settled s.params l h → ∃ k, m = k + 1)
      ∧ renormDec s.params.codeBits s = renormDec m (afterDecSteps l h v bits.length s) := by
  obtain ⟨m, hm, e⟩ := st.renormDec_eq hc hl hh hf (codeSpace_le_range s) rfl hs
  exact ⟨m, exists_succ_of_not_settled hc (st.bounds hc hl hh hf).2.2 hm, e⟩

theorem DecTrace.renormDec {s : State} (hc : 2 ≤ s.params.codeBits) {l h v : Nat} {bits : List Bit}
    (tr : DecTrace s.params s.low s.high s.value bits l h v) (hl : s.low ≤ s.value)
    (hh : s.value ≤ s.high) (hf : s.high ≤ s.params.maxCode) (hs : SourceGives s bits) :
    renormDec s.params.codeBits s = .ok () (afterDecSteps l h v bits.length s) := by
  obtain ⟨m, -, e⟩ := tr.1.renormDec_codeBits hc hl hh hf hs
  rw [e]
  exact renormDec_of_settled m tr.2

/-- From any interval that holds `VALUE` the iterations reach a settled one, or a fetch that raises; `n`
of them are enough once `2^n` times the range covers the code space (R117, R119). -/
theorem exists_decSteps {p : Params} (hc : 2 ≤ p.codeBits) (n : Nat) {l h v : Nat} (hl : l ≤ v)
    (hh : v ≤ h) (hf : h ≤ p.maxCode) (hr : 2 ^ p.codeBits ≤ (h - l + 1) * 2 ^ n) {s : State}
    (hp : s.params = p) (hs : n ≤ s.bi.length ∨ s.overrun ≤ p.overrunMax) :
    ∃ l' h' v' bits, DecSteps p l h v bits l' h' v' ∧ SourceGives s bits
      ∧ (Settled p l' h' ∨ (bits.length < n ∧ SourceRaises s bits.length)) := by
  induction n generalizing l h v s with
  | zero =>
    have hn := full_range_settled hc hf (by simpa using hr)
    exact ⟨l, h, v, [], .done, sourceGives_nil s, .inl ((renormCase_none_iff _ _ _).mp hn)⟩
  | succ n ih =>
    by_cases hset : Settled p l h
    · exact ⟨l, h, v, [], .done, sourceGives_nil s, .inl hset⟩
    obtain ⟨c, ha⟩ := exists_applies_of_not_settled hset
    subst hp
    have hs' : s.bi ≠ [] ∨ s.overrun ≤ s.params.overrunMax :=
      hs.imp_left fun hlen => List.ne_nil_of_length_pos (by omega)
    rcases sourceRaises_or_gives hs' with hraise | ⟨b, hb⟩
    · exact ⟨l, h, v, [], .done, sourceGives_nil s, .inr ⟨Nat.succ_pos n, hraise⟩⟩
    · obtain ⟨-, hf', hr'⟩ := shifted_bounds hc ha (hl.trans hh) hf
      obtain ⟨hl', hh'⟩ := shifted_window hc ha hl hh hf b
      have hroom := hb.2.2
      obtain ⟨l', h', v', bits, st, hgives, hend⟩ := ih hl' hh' hf' (hr' n ▸ hr)
        (s := afterFetched 1 s) rfl (by
          simp only [afterFetched, List.length_drop, List.length_singleton] at hroom ⊢
          omega)
      refine ⟨l', h', v', b :: bits, st.step ha, (sourceGives_cons_iff b bits s).mpr ⟨hb, hgives⟩,
        hend.imp_right fun ⟨hlen, hraise⟩ => ⟨Nat.succ_lt_succ hlen, sourceRaises_succ hraise⟩⟩

/-- Settles O35: the loop is its relation, which goes on while a case applies and the source gives. -/
theorem renormDecFollowsCases : Obligations.RenormDecFollowsCases := by
  intro s hv hl hh hf
  have hc : 2 ≤ s.params.codeBits := by have := s.params.codeBits_ge hv; omega
  refine ⟨fun l h v bits tr hs => ?_, fun ho => ?_, fun hsound henough => ?_⟩
  · obtain ⟨hl', hh', hf'⟩ := tr.1.bounds hc hl hh hf
    exact ⟨hl', hh', hf', tr.renormDec hc hl hh hf hs⟩
  · obtain ⟨l, h, v, bits, st, hs, hend⟩ :=
      exists_decSteps hc _ hl hh hf (codeSpace_le_range s) rfl (.inr ho)
    exact ⟨l, h, v, bits, st, hs, hend.imp_right And.right⟩
  · obtain ⟨l, h, v, bits, st, hs, hend⟩ :=
      exists_decSteps hc _ hl hh hf (codeSpace_le_range s) rfl (by omega)
    refine ⟨l, h, v, bits, ⟨st, hend.resolve_right ?_⟩, hs⟩
    rintro ⟨hlen, ⟨later, herr⟩ | ⟨hend, ho⟩⟩
    · have hmem : BiAnswer.err ∈ s.bi.drop bits.length := by simp [herr]
      exact hsound _ (List.mem_of_mem_drop hmem) rfl
    · omega

end Sys2Proof.Machine
end

section
/-! PROOFS. The coder datapath, fourth part: `D.SYM` where its loop ends, and one symbol encoded and
decoded again (O51). -/

namespace Sys2Proof.Machine

/-! ## `D.SYM` -/

/-- A symbol whose narrowed interval holds `VALUE` owns the scaled count (R120, R121). -/
theorem Coding.owns_scaledValue {s : State} (h : Coding s) {k : Nat} (hk : k ≤ 256)
    (hlow : narrowedLow s k ≤ s.value) (hhigh : s.value ≤ narrowedHigh s k) :
    cumAt s.cum k ≤ scaledValue s ∧ scaledValue s < cumAt s.cum (k + 1) := by
  have hpos : 0 < cumAt s.cum 257 := (Nat.zero_le _).trans_lt (h.table.increasing 256 le_rfl)
  have hrange : cumAt s.cum 257 ≤ s.high - s.low + 1 :=
    h.table.total.trans (settledRangeExceedsTotal _ _ _ h.valid h.settled).2.le
  have hquot := (Nat.zero_le _).trans_lt
    (narrow_quotients (h.table.increasing k hk) (h.table.upper_le_total hk) hrange).1
  have hl : s.low ≤ s.value := (h.narrowed hk).1.trans hlow
  unfold narrowedLow at hlow
  unfold narrowedHigh at hhigh
  have hlow' : (s.high - s.low + 1) * cumAt s.cum k < (s.value - s.low + 1) * cumAt s.cum 257 :=
    (Nat.div_lt_iff_lt_mul hpos).mp (by omega)
  have hhigh' : (s.value - s.low + 1) * cumAt s.cum 257 ≤ (s.high - s.low + 1) * cumAt s.cum (k + 1) :=
    (Nat.le_div_iff_mul_le hpos).mp (by omega)
  rw [scaledValue, Nat.le_div_iff_mul_le (by omega), Nat.div_lt_iff_lt_mul (by omega), Nat.mul_comm,
    Nat.mul_comm (cumAt s.cum (k + 1))]
  omega

theorem exec_dSym_runs {s : State} (hm : s.mode = .dec) :
    exec .dSym s = conclude (encode .dSym) (body .dSym s) :=
  exec_runs (by simp [hm]) rfl (decide_eq_true hm) rfl

/-- `D.SYM`'s pseudocode decodes the symbol whose narrowed interval holds `VALUE` (R141). -/
theorem body_dSym {s : State} (h : Coding s) {k : Nat} (hk : k ≤ 256)
    (hlow : narrowedLow s k ≤ s.value) (hhigh : s.value ≤ narrowedHigh s k) :
    body .dSym s = if k = 256 then .ok { status := .eos, sym := 256 } { s with mode := .decEos }
      else decodeSymbol (prob k s.cum) s := by
  have hpos : 0 < cumAt s.cum 257 := (Nat.zero_le _).trans_lt (h.table.increasing 256 le_rfl)
  obtain ⟨hin, -, hin'⟩ := h.narrowed hk
  obtain ⟨hc, hc'⟩ := h.owns_scaledValue hk hlow hhigh
  obtain ⟨hscale, -⟩ := scale_eq (hin.trans hlow) (hhigh.trans hin') hpos
  simp only [body, hscale, bind_ok, locate_of_owns h.table hk hc hc', prob_symbol]

theorem decodeSymbol_eq {s : State} (h : Coding s) {k : Nat} (hk : k ≤ 256) :
    decodeSymbol (prob k s.cum) s = (renormDec s.params.codeBits (narrowedCounted k s)).bind fun _ u =>
      .ok { status := .ok, sym := k } u := by
  obtain ⟨hn, -⟩ := narrow_prob h.valid h.table h.settled hk (observe k s).2 (observe_params k s)
    (observe_low k s) (observe_high k s)
  rw [observe_eq_observedModel h.table.length hk] at hn
  rw [decodeSymbol, prob_symbol, observe_eq_observedModel h.table.length hk, hn, bind_ok]
  rfl

/-- `D.SYM` where `VALUE` is in the interval of `EOS` (R141). -/
theorem exec_dSym_eos {s : State} (h : Coding s) (hm : s.mode = .dec)
    (hlow : narrowedLow s 256 ≤ s.value) (hhigh : s.value ≤ narrowedHigh s 256) :
    exec .dSym s = .next { s with mode := .decEos, rsp := s.rsp ++ [⟨.eos, 256, 0, 0, 0, 0⟩] } := by
  rw [exec_dSym_runs hm, body_dSym h le_rfl hlow hhigh, if_pos rfl, conclude_ok]
  rfl

/-- `D.SYM` where `VALUE` is in the interval of a byte, its loop ends and the source gives the bits
(R141). -/
theorem exec_dSym_byte {s : State} (h : Coding s) (hm : s.mode = .dec) {k : Nat} (hk : k ≤ 255)
    (hlow : narrowedLow s k ≤ s.value) (hhigh : s.value ≤ narrowedHigh s k) {l u v : Nat}
    {bits : List Bit} (tr : DecTrace s.params (narrowedLow s k) (narrowedHigh s k) s.value bits l u v)
    (hs : SourceGives s bits) :
    exec .dSym s = .next { decodedSteps k l u v bits.length s with
      rsp := s.rsp ++ [⟨.ok, k, 0, 0, 0, 0⟩] } := by
  have hk' : k ≤ 256 := by omega
  have hf := (h.narrowed hk').2.2.trans h.highFits
  have hloop : renormDec s.params.codeBits (narrowedCounted k s) = _ :=
    DecTrace.renormDec (s := narrowedCounted k s) h.codeBits tr hlow hhigh hf hs
  rw [exec_dSym_runs hm, body_dSym h hk' hlow hhigh, if_neg (by omega), decodeSymbol_eq h hk', hloop,
    bind_ok, conclude_ok]
  rfl

/-! ## The two loops from one interval -/

theorem ECase.applies.unique {p : Params} {l h : Nat} {c c' : ECase} (ho : l ≤ h)
    (ha : c.applies p l h) (ha' : c'.applies p l h) : c' = c := by
  simpa [renormCase_of_applies ho ha] using (renormCase_of_applies ho ha').symm

theorem DecSteps.of_settled {p : Params} {l h v l' h' v' : Nat} {bits : List Bit}
    (st : DecSteps p l h v bits l' h' v') (ho : l ≤ h) (hs : Settled p l h) : l' = l ∧ h' = h := by
  cases st using DecSteps.stepInduction with
  | done => exact ⟨rfl, rfl⟩
  | step c l h v l' h' v' b bits ha => exact (ha.not_settled ho hs).elim

theorem DecSteps.of_applies {p : Params} {l h v l' h' v' : Nat} {bits : List Bit}
    (st : DecSteps p l h v bits l' h' v') {c : ECase} (ha : c.applies p l h) (ho : l ≤ h)
    (hs : Settled p l' h') :
    ∃ b rest, DecSteps p (2 * (l - offset p c)) (2 * (h - offset p c) + 1)
      (2 * (v - offset p c) + Bool.toNat b) rest l' h' v' := by
  cases st using DecSteps.stepInduction with
  | done => exact (ha.not_settled ho hs).elim
  | step c' l h v l' h' v' b bits ha' rest =>
    obtain rfl := ha.unique ho ha'
    exact ⟨b, bits, rest⟩

/-- The interval alone decides which case applies: both loops end at the same interval (R116, R117). -/
theorem EncSteps.interval_eq {p : Params} (hc : 2 ≤ p.codeBits) {l h q l₁ h₁ q₁ : Nat}
    {out : List Bit} (st : EncSteps p l h q out l₁ h₁ q₁) (ho : l ≤ h) (hf : h ≤ p.maxCode)
    (hs : Settled p l₁ h₁) {v l₂ h₂ v₂ : Nat} {bits : List Bit}
    (st' : DecSteps p l h v bits l₂ h₂ v₂) (hs' : Settled p l₂ h₂) : l₁ = l₂ ∧ h₁ = h₂ := by
  induction st using EncSteps.stepInduction generalizing v bits with
  | done =>
    obtain ⟨rfl, rfl⟩ := st'.of_settled ho hs
    exact ⟨rfl, rfl⟩
  | step c l h q l₁ h₁ q₁ out ha _ _ ih =>
    obtain ⟨ho', hf', -⟩ := shifted_bounds hc ha ho hf
    obtain ⟨b, rest, st''⟩ := st'.of_applies ha ho hs'
    exact ih ho' hf' hs st''

/-! ## Encoder and decoder in step -/

/-- An encoder and a decoder at the same point of a stream: instances that agree as R194 asks, with the
same table and the same interval (R123). -/
structure InStep (e d : State) : Prop where
  codeBits : d.params.codeBits = e.params.codeBits
  freqBits : d.params.freqBits = e.params.freqBits
  policy : d.params.policy = e.params.policy
  cum : d.cum = e.cum
  frozen : d.frozen = e.frozen
  low : d.low = e.low
  high : d.high = e.high

section
variable {e d : State} (h : InStep e d)
include h

theorem InStep.narrowedLow (k : Nat) : narrowedLow d k = narrowedLow e k := by
  simp only [Machine.narrowedLow, h.cum, h.low, h.high]

theorem InStep.narrowedHigh (k : Nat) : narrowedHigh d k = narrowedHigh e k := by
  simp only [Machine.narrowedHigh, h.cum, h.low, h.high]

theorem InStep.observedModel (sym : Nat) : observedModel sym d = observedModel sym e := by
  unfold Machine.observedModel Params.ceil
  rw [h.freqBits, h.policy, h.cum, h.frozen]

/-- A symbol encoded on one side and decoded on the other leaves the two in step (R123). -/
theorem InStep.next (sym l u q v n : Nat) (bits : List Bit) :
    InStep (encodedSteps sym l u q bits e) (decodedSteps sym l u v n d) where
  codeBits := h.codeBits
  freqBits := h.freqBits
  policy := h.policy
  cum := congrArg Prod.fst (h.observedModel sym)
  frozen := congrArg Prod.snd (h.observedModel sym)
  low := rfl
  high := rfl

end

/-- Settles O51: the symbol whose narrowed interval holds `VALUE` is the one decoded, and from that
interval the two loops end at the same one. -/
theorem decodeReplaysEncode : Obligations.DecodeReplaysEncode := by
  intro e d x l h q out he hd hme hmd hx hp hcum hfrozen hl hh hvl hvh tr hs
  have hce := he.coding (by simp [hme])
  have hcd := hd.coding (by simp [hmd])
  have hstep : InStep e d :=
    ⟨by rw [hp], by rw [hp], by rw [hp], hcum.symm, hfrozen.symm, hl.symm, hh.symm⟩
  rw [← hstep.narrowedLow] at hvl
  rw [← hstep.narrowedHigh] at hvh
  refine ⟨_, exec_eSym hce hme hx tr hs, fun heos => ?_, fun hbyte l' h' v bits tr' hs' => ?_⟩
  · rw [heos] at hvl hvh
    exact ⟨_, exec_dSym_eos hcd hmd hvl hvh, rfl, rfl⟩
  · obtain ⟨-, ho, hf⟩ := hce.narrowed hx
    have htr' := tr'
    rw [hstep.narrowedLow, hstep.narrowedHigh, ← hp] at htr'
    obtain ⟨rfl, rfl⟩ :=
      tr.1.interval_eq hce.codeBits ho (hf.trans hce.highFits) tr.2 htr'.1 htr'.2
    have hnext := hstep.next x.toNat l h q v bits.length out
    exact ⟨_, exec_dSym_byte hcd hmd hbyte hvl hvh tr' hs', hmd, rfl, hnext.cum.symm, hnext.frozen.symm,
      rfl, rfl⟩

end Sys2Proof.Machine
end

section
/-! PROOFS. The round trip, first part: a stream as the decoder's window sees it, and the encode loop read
backwards as a decode loop. -/

namespace Sys2Proof.Machine

/-! ## The window on a stream -/

/-- The first `n` bits of a stream as a number, zeros past its end (R53, R114). -/
def window (n : Nat) (τ : List Bit) : Nat := bitsToNat ((List.range n).map (τ.getD · false))

theorem window_zero (τ : List Bit) : window 0 τ = 0 := rfl

theorem window_succ (n : Nat) (τ : List Bit) :
    window (n + 1) τ = 2 * window n τ + (τ.getD n false).toNat := by
  rw [window, List.range_succ, List.map_append, List.map_singleton, bitsToNat_concat, Nat.bit_val]
  rfl

theorem window_lt (n : Nat) (τ : List Bit) : window n τ < 2 ^ n := by
  induction n with
  | zero => simp [window_zero]
  | succ n ih =>
    have hbit := bit_toNat_le (τ.getD n false)
    rw [window_succ, Nat.pow_succ]
    omega

theorem window_cons (n : Nat) (b : Bit) (τ : List Bit) :
    window (n + 1) (b :: τ) = b.toNat * 2 ^ n + window n τ := by
  induction n with
  | zero => simp [window_succ, window_zero]
  | succ n ih =>
    rw [window_succ, ih, window_succ, List.getD_cons_succ, Nat.pow_succ]
    ring

/-- The window on a stream whose first bit is dropped: the case E1 for a 0, the case E2 for a 1 (R117). -/
theorem window_tail {p : Params} (hc : 2 ≤ p.codeBits) (b : Bit) (τ : List Bit) :
    window p.codeBits (b :: τ) = b.toNat * p.half + window p.codeBits τ / 2
      ∧ window p.codeBits τ
        = 2 * (window p.codeBits (b :: τ) - b.toNat * p.half) + ((b :: τ).getD p.codeBits false).toNat := by
  obtain ⟨n, hn⟩ : ∃ n, p.codeBits = n + 1 := ⟨p.codeBits - 1, by omega⟩
  have hbit := bit_toNat_le (τ.getD n false)
  have hhalf : p.half = 2 ^ n := by rw [Params.half, hn, Nat.add_sub_cancel]
  rw [hn, window_cons, window_succ, List.getD_cons_succ, hhalf]
  omega

/-- The window on a stream whose second bit is dropped, where that is not the first: the case E3 (R117). -/
theorem window_dropSecond {p : Params} (hc : 2 ≤ p.codeBits) (b : Bit) (ρ : List Bit) :
    window p.codeBits (b :: (!b) :: ρ) = p.oneFourth + window p.codeBits (b :: ρ) / 2
      ∧ window p.codeBits (b :: ρ) = 2 * (window p.codeBits (b :: (!b) :: ρ) - p.oneFourth)
        + ((b :: (!b) :: ρ).getD p.codeBits false).toNat := by
  obtain ⟨n, hn⟩ : ∃ n, p.codeBits = n + 2 := ⟨p.codeBits - 2, by omega⟩
  have hbit := bit_toNat_le (ρ.getD n false)
  have hquarter : p.oneFourth = 2 ^ n := by rw [Params.oneFourth, hn, Nat.add_sub_cancel]
  rw [hn, window_cons, window_cons, window_cons, window_succ, List.getD_cons_succ, List.getD_cons_succ,
    hquarter, Nat.pow_succ]
  cases b <;> simp only [Bool.toNat_true, Bool.toNat_false, Bool.not_true, Bool.not_false] <;> omega

/-! ## A source that holds a stream -/

/-- The source of `s` holds the bits of `τ` from bit `k` on, and `OVERRUN` counts the reads past its end
(R78, R114). -/
structure Fetched (τ : List Bit) (k : Nat) (s : State) : Prop where
  bi : s.bi = (τ.drop k).map BiAnswer.bit
  overrun : s.overrun = k - τ.length

/-- A bit dropped at the front of the stream is one that need not be fetched. -/
theorem fetched_cons_iff (b : Bit) (τ : List Bit) (k : Nat) (s : State) :
    Fetched (b :: τ) (k + 1) s ↔ Fetched τ k s := by
  constructor <;> rintro ⟨hbi, ho⟩ <;> exact ⟨hbi, by simpa using ho⟩

theorem fetched_dropSecond_iff (a b : Bit) (ρ : List Bit) {k : Nat} (hk : 1 ≤ k) (s : State) :
    Fetched (a :: b :: ρ) (k + 1) s ↔ Fetched (a :: ρ) k s := by
  obtain ⟨j, rfl⟩ := Nat.exists_eq_add_of_le' hk
  rw [fetched_cons_iff, fetched_cons_iff, fetched_cons_iff]

/-- The next bit of the stream is fetched, while `OVERRUN` has room (R114). -/
theorem Fetched.next {τ : List Bit} {k : Nat} {s : State} (h : Fetched τ k s)
    (hroom : k + 1 - τ.length ≤ s.params.overrunMax) :
    SourceGives s [τ.getD k false] ∧ Fetched τ (k + 1) (afterFetched 1 s) := by
  obtain ⟨hbi, ho⟩ := h
  have hdrop : s.bi.drop 1 = (τ.drop (k + 1)).map BiAnswer.bit := by
    rw [hbi, ← List.map_drop, List.drop_drop]
  by_cases hk : k < τ.length
  · have hfirst : s.bi = .bit τ[k] :: (τ.drop (k + 1)).map BiAnswer.bit := by
      rw [hbi, List.drop_eq_getElem_cons hk, List.map_cons]
    refine ⟨?_, hdrop, ?_⟩
    · simp [SourceGives, sourceBits, hfirst, hk]
    · simp only [afterFetched, hfirst, List.length_cons]
      omega
  · have hnil : s.bi = [] := by rw [hbi, List.drop_eq_nil_of_le (by omega), List.map_nil]
    refine ⟨?_, hdrop, ?_⟩
    · refine ⟨by simp [hnil], ?_, .inr ?_⟩
      · simp [sourceBits, hnil, List.getElem?_eq_none (Nat.not_lt.mp hk)]
      · simp only [hnil, List.length_nil, List.length_singleton]
        omega
    · simp only [afterFetched, hnil, List.length_nil]
      omega

/-! ## One symbol's loop, backwards -/

/-- What an encoder at `LOW`, `HIGH`, `PENDING` with `σ` to come, its `PENDING` bits first, leaves for a
decoder: the stream `τ` from `VALUE` on, in which the bits of the E3 cases are dropped; it is in the
interval (R120), and longer than one bit. -/
def Carries (p : Params) (l h q : Nat) (σ τ : List Bit) : Prop :=
  ∃ b ρ, σ = followBits b q ++ ρ ∧ τ = b :: ρ ∧ ρ ≠ []
    ∧ l ≤ window p.codeBits τ ∧ window p.codeBits τ ≤ h

theorem Carries.two_le_length {p : Params} {l h q : Nat} {σ τ : List Bit} (hcar : Carries p l h q σ τ) :
    2 ≤ τ.length := by
  obtain ⟨b, ρ, -, rfl, hne, -⟩ := hcar
  exact Nat.succ_le_succ (List.length_pos_iff.mpr hne)

theorem Carries.bounds {p : Params} {l h q : Nat} {σ τ : List Bit} (hcar : Carries p l h q σ τ) :
    l ≤ window p.codeBits τ ∧ window p.codeBits τ ≤ h := by
  obtain ⟨b, ρ, -, -, -, hbounds⟩ := hcar
  exact hbounds

theorem Carries.widen {p : Params} {l h q : Nat} {σ τ : List Bit} (hcar : Carries p l h q σ τ)
    {l' h' : Nat} (hl : l' ≤ l) (hh : h ≤ h') : Carries p l' h' q σ τ := by
  obtain ⟨b, ρ, hσ, hτ, hne, hlow, hhigh⟩ := hcar
  exact ⟨b, ρ, hσ, hτ, hne, hl.trans hlow, hhigh.trans hh⟩

/-- Without bits pending the decoder's stream is what is to come. -/
theorem Carries.eq_of_pending_zero {p : Params} {l h : Nat} {σ τ : List Bit}
    (hcar : Carries p l h 0 σ τ) : τ = σ := by
  obtain ⟨b, ρ, rfl, rfl, -⟩ := hcar
  rfl

/-- What one decode iteration does to the window and to the source: `τ` becomes `τ'`. -/
structure WindowShift (p : Params) (off : Nat) (τ τ' : List Bit) : Prop where
  value : window p.codeBits τ' = 2 * (window p.codeBits τ - off) + (τ.getD p.codeBits false).toNat
  length : τ.length = τ'.length + 1
  fetched : ∀ s, Fetched τ (p.codeBits + 1) s → Fetched τ' p.codeBits s

/-- The cases E1 and E2: a resolved bit is the first of the stream (R113, R116, R117). -/
theorem Carries.resolved {p : Params} (hc : 2 ≤ p.codeBits) {l h q : Nat} {σ τ : List Bit} (b : Bit)
    {off : Nat} (hoff : b.toNat * p.half = off) (hl : off ≤ l) (hh : off ≤ h)
    (hcar : Carries p (2 * (l - off)) (2 * (h - off) + 1) 0 σ τ) :
    ∃ τ', Carries p l h q (followBits b q ++ σ) τ' ∧ WindowShift p off τ' τ := by
  obtain ⟨hcons, hvalue⟩ := window_tail hc b τ
  rw [hoff] at hcons hvalue
  obtain ⟨hlow, hhigh⟩ := hcar.bounds
  have hne : τ ≠ [] := List.ne_nil_of_length_pos (by have := hcar.two_le_length; omega)
  refine ⟨b :: τ, ⟨b, τ, by rw [hcar.eq_of_pending_zero], rfl, hne, by omega, by omega⟩, hvalue, rfl,
    fun s => ?_⟩
  exact (fetched_cons_iff b τ p.codeBits s).mp

/-- The case E3: a pending bit is the second of the stream, and not the first (R116, R117, R122). -/
theorem Carries.pending {p : Params} (hc : 2 ≤ p.codeBits) {l h q : Nat} {σ τ : List Bit}
    (hl : p.oneFourth ≤ l) (hh : p.oneFourth ≤ h)
    (hcar : Carries p (2 * (l - p.oneFourth)) (2 * (h - p.oneFourth) + 1) (q + 1) σ τ) :
    ∃ τ', Carries p l h q σ τ' ∧ WindowShift p p.oneFourth τ' τ := by
  obtain ⟨b, ρ, rfl, rfl, -, hlow, hhigh⟩ := hcar
  obtain ⟨hsecond, hvalue⟩ := window_dropSecond hc b ρ
  refine ⟨b :: (!b) :: ρ, ⟨b, (!b) :: ρ, ?_, rfl, nofun, by omega, by omega⟩, hvalue, rfl, fun s => ?_⟩
  · simp [followBits, List.replicate_succ']
  · exact (fetched_dropSecond_iff b (!b) ρ (by omega) s).mp

/-- One encode iteration backwards is one decode iteration (R116, R117). -/
theorem Carries.case {p : Params} (hc : 2 ≤ p.codeBits) {l h q : Nat} {σ τ : List Bit} {c : ECase}
    (ha : c.applies p l h) (ho : l ≤ h) (hf : h ≤ p.maxCode)
    (hcar : Carries p (2 * (l - offset p c)) (2 * (h - offset p c) + 1) (casePending c q) σ τ) :
    ∃ τ', Carries p l h q (caseBits c q ++ σ) τ' ∧ WindowShift p (offset p c) τ' τ := by
  have hoff := (offset_bounds hc ha ho hf).1
  cases c with
  | e1 => exact Carries.resolved hc false (Nat.zero_mul _) hoff (hoff.trans ho) hcar
  | e2 => exact Carries.resolved hc true (Nat.one_mul _) hoff (hoff.trans ho) hcar
  | e3 => exact Carries.pending hc hoff (hoff.trans ho) hcar

/-- Read backwards, the iterations of an encode loop are those of a decode loop, from the window on the
stream before them to the window on the stream after them (R123). -/
theorem EncSteps.carries {p : Params} (hc : 2 ≤ p.codeBits) {l h q l' h' q' : Nat} {bits : List Bit}
    (st : EncSteps p l h q bits l' h' q') (ho : l ≤ h) (hf : h ≤ p.maxCode) {σ τ' : List Bit}
    (hcar : Carries p l' h' q' σ τ') :
    ∃ τ fetched, Carries p l h q (bits ++ σ) τ
      ∧ DecSteps p l h (window p.codeBits τ) fetched l' h' (window p.codeBits τ')
      ∧ ∀ s : State, s.params.codeBits = p.codeBits → Fetched τ p.codeBits s →
        SourceGives s fetched ∧ Fetched τ' p.codeBits (afterFetched fetched.length s) := by
  induction st using EncSteps.stepInduction with
  | done l h q =>
    refine ⟨τ', [], hcar, .done, fun s _ hs => ⟨sourceGives_nil s, ?_⟩⟩
    rwa [List.length_nil, afterFetched_zero]
  | step c l h q l' h' q' out ha room _ ih =>
    obtain ⟨ho', hf', -⟩ := shifted_bounds hc ha ho hf
    obtain ⟨τ₁, fetched, hcar₁, st₁, hfetch⟩ := ih ho' hf' hcar
    obtain ⟨τ, hcarτ, hshift⟩ := hcar₁.case hc ha ho hf
    rw [hshift.value] at st₁
    refine ⟨τ, _, List.append_assoc .. ▸ hcarτ, st₁.step ha, fun s hp hs => ?_⟩
    have hroom : p.codeBits + 1 - τ.length ≤ s.params.overrunMax := by
      have := hcar₁.two_le_length
      rw [hshift.length, Params.overrunMax, hp]
      omega
    obtain ⟨hfirst, hs₁⟩ := hs.next hroom
    obtain ⟨hrest, hs'⟩ := hfetch (afterFetched 1 s) hp (hshift.fetched _ hs₁)
    rw [afterFetched_afterFetched, Nat.add_comm] at hs'
    exact ⟨(sourceGives_cons_iff _ _ s).mpr ⟨hfirst, hrest⟩, hs'⟩

/-- Termination emits a bit and at least one inverted bit, which name a value of any settled interval
(R132). -/
theorem Carries.terminated {p : Params} (hc : 2 ≤ p.codeBits) {l h : Nat} (hs : Settled p l h) (q : Nat)
    (extra : List Bit) {b : Bit} (hb : b = decide (p.oneFourth ≤ l)) :
    Carries p l h q (followBits b (q + 1) ++ extra) (b :: (!b) :: extra) := by
  obtain ⟨hlow, hhigh, hside⟩ := hs
  have hsecond := (window_dropSecond hc b extra).1
  have hfirst := (window_tail hc b extra).1
  have hlt := window_lt p.codeBits extra
  have h1 := p.half_eq hc
  have h2 := p.two_pow_codeBits hc
  have h3 := p.threeFourths_eq
  refine ⟨b, (!b) :: extra, by simp [followBits, List.replicate_succ'], rfl, nofun, ?_⟩
  by_cases hq : p.oneFourth ≤ l
  · obtain rfl : b = true := by simp [hb, hq]
    simp only [Bool.toNat_true] at hfirst
    omega
  · obtain rfl : b = false := by simp [hb, hq]
    simp only [Bool.toNat_false] at hfirst
    omega

end Sys2Proof.Machine
end

section
/-! PROOFS. The round trip, second part: the commands around the loops, the two procedures, and the
stream that is decoded to the bytes it was encoded from (O52). -/

namespace Sys2Proof.Machine

/-! ## The bits among the transactions -/

theorem streamBits_append (a b : List BoTxn) : streamBits (a ++ b) = streamBits a ++ streamBits b := by
  induction a using streamBits.induct <;> simp_all [streamBits]

theorem streamBits_sentBits (bits : List Bit) : streamBits (sentBits bits) = bits := by
  induction bits with
  | nil => rfl
  | cons b bits ih => exact congrArg (b :: ·) ih

/-! ## `E.FINISH` -/

theorem exec_eFinish_runs {s : State} (hm : s.mode = .enc ∨ s.mode = .encEos) :
    exec .eFinish s = conclude (encode .eFinish) (body .eFinish s) :=
  exec_runs (by rcases hm with hm | hm <;> simp [hm]) rfl (decide_eq_true hm) rfl

/-- `E.FINISH` where `PENDING` has room and the sink takes its transactions (R132). -/
theorem exec_eFinish {s : State} (hm : s.mode = .enc ∨ s.mode = .encEos)
    (hq : s.pending ≠ s.params.pendMax) (hs : SinkTakes s (s.pending + 3)) :
    exec .eFinish s = .next { s with
      pending := 0, mode := .idle
      bo := s.bo ++ sentBits (followBits (decide (s.params.oneFourth ≤ s.low)) (s.pending + 1))
        ++ [⟨.flush, false⟩]
      boErr := s.boErr.drop (s.pending + 3)
      rsp := s.rsp ++ [⟨.ok, 0, 0, 0, 0, 0⟩] } := by
  have hinc : incPending s = .ok () { s with pending := s.pending + 1 } := if_neg hq
  have hbits : emitWithFollow (decide (s.params.oneFourth ≤ s.low)) { s with pending := s.pending + 1 }
      = .ok () { afterSent (sentBits (followBits (decide (s.params.oneFourth ≤ s.low)) (s.pending + 1))) s
          with pending := 0 } :=
    emitWithFollow_takes _ (hs.first (by simp only; omega))
  have hflush := boTransact_takes .flush
    { afterSent (sentBits (followBits (decide (s.params.oneFourth ≤ s.low)) (s.pending + 1))) s
      with pending := 0 }
    (SinkTakes.rest (s := s) (hs.first (by simp; omega)))
  simp only [exec_eFinish_runs hm, body, hinc, bind_ok, hbits, flush, hflush, conclude_ok]
  simp [respond, afterSent, List.drop_drop, Nat.add_comm, Nat.add_left_comm]

/-- `E.FINISH` where `PENDING` is at its maximum (R175). -/
theorem exec_eFinish_raises {s : State} (hm : s.mode = .enc ∨ s.mode = .encEos)
    (hq : s.pending = s.params.pendMax) :
    exec .eFinish s = .next (takeFault .pendingOverflow (encode .eFinish) s) := by
  have hinc : incPending s = .raised .pendingOverflow s := if_pos hq
  rw [exec_eFinish_runs hm, body, hinc, bind_raised, conclude_raised]

/-! ## `D.INIT` and `D.END` -/

/-- Reading `VALUE` in bit by bit is reading the window on the stream (R140). -/
theorem primeValue_fetched (n : Nat) {τ : List Bit} (hτ : 2 ≤ τ.length) {k : Nat} {s : State}
    (hc : 2 ≤ s.params.codeBits) (hk : k + n ≤ s.params.codeBits) (hv : s.value = window k τ)
    (hs : Fetched τ k s) :
    primeValue n s = .ok () { afterFetched n s with value := window (k + n) τ }
      ∧ Fetched τ (k + n) (afterFetched n s) := by
  induction n generalizing k s with
  | zero =>
    rw [afterFetched_zero, Nat.add_zero, ← hv]
    exact ⟨rfl, hs⟩
  | succ n ih =>
    obtain ⟨hgives, hs₁⟩ := hs.next (by rw [Params.overrunMax]; omega)
    have hlt : window k τ < s.params.half :=
      (window_lt k τ).trans_le (Nat.pow_le_pow_right (by omega) (by omega))
    have hshl : shl s.params s.value (τ.getD k false) = window (k + 1) τ := by
      rw [hv, shl_of_lt_half hc _ hlt, window_succ]
    have hn : k + 1 + n = k + (n + 1) := by omega
    obtain ⟨e, hs'⟩ := ih (k := k + 1) (s := { afterFetched 1 s with value := window (k + 1) τ })
      hc (by rw [hn]; exact hk) rfl ⟨hs₁.bi, hs₁.overrun⟩
    have hstate := afterFetched_afterFetched 1 n s
    rw [Nat.add_comm 1 n] at hstate
    rw [hn] at e hs'
    rw [← hstate]
    refine ⟨?_, hs'.bi, hs'.overrun⟩
    rw [primeValue, getBit_of_sourceGives hgives, bind_ok]
    exact hshl ▸ e

/-- `d` after `D.INIT` on a source that holds `τ` (R140). -/
def afterDInit (τ : List Bit) (d : State) : State :=
  { afterFetched d.params.codeBits (openSession d) with
    value := window d.params.codeBits τ, mode := .dec, rsp := d.rsp ++ [⟨.ok, 0, 0, 0, 0, 0⟩] }

/-- `D.INIT` on a source that holds a stream of at least 2 bits (R140). -/
theorem exec_dInit {d : State} (hm : d.mode = .idle) (hc : 2 ≤ d.params.codeBits) {τ : List Bit}
    (hτ : 2 ≤ τ.length) (hbi : d.bi = τ.map BiAnswer.bit) :
    exec .dInit d = .next (afterDInit τ d) ∧ Fetched τ d.params.codeBits (afterDInit τ d) := by
  obtain ⟨hprime, hs⟩ := primeValue_fetched d.params.codeBits (s := openSession d) (k := 0) hτ hc
    (Nat.zero_add _).le rfl ⟨hbi, (Nat.zero_sub _).symm⟩
  rw [Nat.zero_add] at hprime hs
  have hbody : body .dInit d = .ok { status := .ok } { afterFetched d.params.codeBits (openSession d) with
      value := window d.params.codeBits τ, mode := .dec } := by
    rw [body, hprime, bind_ok]
  exact ⟨exec_of_body_ok hbody (by simp [hm]) rfl (decide_eq_true hm) rfl, hs.bi, hs.overrun⟩

/-- `D.END` closes the session (R142). -/
theorem exec_dEnd {s : State} (hm : s.mode = .dec ∨ s.mode = .decEos) :
    exec .dEnd s = .next { s with mode := .idle, rsp := s.rsp ++ [⟨.ok, 0, 0, 0, 0, 0⟩] } :=
  exec_of_body_ok (i := .dEnd) rfl (by rcases hm with hm | hm <;> simp [hm]) rfl (decide_eq_true hm) rfl

/-- `e` after `E.INIT` (R130). -/
def afterEInit (e : State) : State :=
  { openSession e with mode := .enc, rsp := e.rsp ++ [⟨.ok, 0, 0, 0, 0, 0⟩] }

theorem exec_eInit {e : State} (hm : e.mode = .idle) : exec .eInit e = .next (afterEInit e) :=
  exec_of_body_ok (i := .eInit) rfl (by simp [hm]) rfl (decide_eq_true hm) rfl

/-! ## The state between symbols -/

/-- The coder's registers at the start of a session (R130, R140). -/
theorem Coding.opened {s t : State} (hv : s.params.valid = true) (hp : t.params = s.params)
    (hcum : t.cum = freshTable) (hfrozen : t.frozen = false) (hl : t.low = 0)
    (hh : t.high = s.params.maxCode) : Coding t := by
  have hc := s.params.codeBits_ge hv
  have hs := full_range_settled (p := s.params) (low := 0) (by omega) le_rfl
    (by simp only [Params.maxCode]; omega)
  rw [renormCase_none_iff] at hs
  refine ⟨hp ▸ hv, ?_, ?_, ?_⟩
  · rw [hp, hcum, hfrozen]
    exact freshTable_inv hv
  · rwa [hp, hl, hh]
  · rw [hp, hh]

/-- The coder's registers after a symbol whose loop ended (R131, R141). -/
theorem Coding.next {s t : State} (h : Coding s) {k : Nat} (hk : k ≤ 256) (hp : t.params = s.params)
    (hcum : t.cum = (observedModel k s).1) (hfrozen : t.frozen = (observedModel k s).2)
    (hs : Settled s.params t.low t.high) (hf : t.high ≤ s.params.maxCode) : Coding t := by
  have ht := observe_tableInv h.valid h.table hk
  rw [observe_eq_observedModel h.table.length hk] at ht
  refine ⟨hp ▸ h.valid, ?_, hp ▸ hs, hp ▸ hf⟩
  rw [hp, hcum, hfrozen]
  exact ht

/-- `e` after `E.SYM x`, whose loop left these registers and emitted `bits` (R131). -/
def afterESym (x : BitVec 9) (l u q : Nat) (bits : List Bit) (e : State) : State :=
  { encodedSteps x.toNat l u q bits e with
    mode := if x.toNat = 256 then .encEos else .enc
    rsp := e.rsp ++ [⟨.ok, 0, 0, 0, 0, 0⟩] }

/-- `d` after `D.SYM` for the byte `k`, whose loop left these registers and fetched `n` bits (R141). -/
def afterDSym (k l u v n : Nat) (d : State) : State :=
  { decodedSteps k l u v n d with rsp := d.rsp ++ [⟨.ok, k, 0, 0, 0, 0⟩] }

/-- The whole loop of `E.SYM x` from `e` (R131). -/
abbrev SymTrace (e : State) (k : Nat) (bits : List Bit) (l u q : Nat) : Prop :=
  EncTrace e.params (narrowedLow e k) (narrowedHigh e k) e.pending bits l u q

theorem Coding.afterESym {e : State} (h : Coding e) {x : BitVec 9} (hx : x.toNat ≤ 256) {l u q : Nat}
    {bits : List Bit} (tr : SymTrace e x.toNat bits l u q) : Coding (afterESym x l u q bits e) := by
  obtain ⟨-, ho, hf⟩ := h.narrowed hx
  exact h.next hx rfl rfl rfl tr.2 (tr.1.bounds h.codeBits ho (hf.trans h.highFits)).2

theorem SinkAccepts.afterESym {e : State} (h : SinkAccepts e) (x : BitVec 9) (l u q : Nat)
    (bits : List Bit) : SinkAccepts (afterESym x l u q bits e) :=
  fun err herr => h err (List.mem_of_mem_drop herr)

/-! ## The encode procedure -/

/-- In `FAULT` mode a command other than `RESET` and `RDREG` changes nothing but the responses (R180). -/
theorem exec_faulted {i : Instr} {s : State} (hm : s.mode = .fault) (hi : runsInFault i = false) :
    exec i s = .next (answerFaulted s) := by
  rw [exec_eq_command, command, if_pos ⟨hm, hi⟩]

theorem issue_faulted {is : List Instr} (his : ∀ i ∈ is, runsInFault i = false) {s t : State}
    (hm : s.mode = .fault) (h : issue is s = .next t) : t.mode = .fault := by
  induction is generalizing s with
  | nil =>
    cases h
    exact hm
  | cons i is ih =>
    obtain ⟨hi, his⟩ := List.forall_mem_cons.mp his
    rw [issue, exec_faulted hm hi] at h
    exact ih his (s := answerFaulted s) hm h

/-- The encode procedure after `E.INIT` (R80, R133). -/
def encodeRest (bytes : List Byte) : List Instr := bytes.map symOfByte ++ [.eSym 256, .eFinish]

theorem runsInFault_encodeRest (bytes : List Byte) : ∀ i ∈ encodeRest bytes, runsInFault i = false := by
  intro i hi
  simp only [encodeRest, List.mem_append, List.mem_map, List.mem_cons, List.not_mem_nil, or_false] at hi
  rcases hi with ⟨b, -, rfl⟩ | rfl | rfl <;> rfl

/-- On a sink that accepts, `E.SYM` ends its loop or raises `PendingOverflow` (R122, R175). -/
theorem exec_eSym_accepts {e : State} (h : Coding e) (hm : e.mode = .enc) (hs : SinkAccepts e)
    {x : BitVec 9} (hx : x.toNat ≤ 256) :
    (∃ l u q bits, SymTrace e x.toNat bits l u q ∧ exec (.eSym x) e = .next (afterESym x l u q bits e))
      ∨ ∃ t, exec (.eSym x) e = .next t ∧ t.mode = .fault := by
  obtain ⟨-, ho, hf⟩ := h.narrowed hx
  obtain ⟨l, u, q, bits, st, hset | ⟨hq, hunder, -⟩⟩ := exists_encSteps h.codeBits _ e.pending ho
    (hf.trans h.highFits) (codeSpace_le_range (narrowedCounted x.toNat e))
  · exact .inl ⟨l, u, q, bits, ⟨st, hset⟩, exec_eSym h hm hx ⟨st, hset⟩ (.of_accepts hs _)⟩
  · have hres : resolve .e3 (encodedSteps x.toNat l u q bits e)
        = .raised .pendingOverflow (encodedSteps x.toNat l u q bits e) := if_pos hq
    exact .inr ⟨_, exec_eSym_raises h hm hx st (.of_accepts hs _) (c := .e3) hunder hres, rfl⟩

/-- An encode procedure that closes its session went through its `E.SYM` without a fault. -/
theorem issue_eSym {e e' : State} (h : Coding e) (hm : e.mode = .enc) (hs : SinkAccepts e)
    {x : BitVec 9} (hx : x.toNat ≤ 256) {rest : List Instr} (hrest : ∀ i ∈ rest, runsInFault i = false)
    (hi : issue (.eSym x :: rest) e = .next e') (hidle : e'.mode = .idle) :
    ∃ l u q bits, SymTrace e x.toNat bits l u q
      ∧ issue rest (afterESym x l u q bits e) = .next e' := by
  rcases exec_eSym_accepts h hm hs hx with ⟨l, u, q, bits, tr, he⟩ | ⟨t, he, ht⟩ <;> rw [issue, he] at hi
  · exact ⟨l, u, q, bits, tr, hi⟩
  · simp [issue_faulted hrest ht hi] at hidle

theorem issue_eFinish {e e' : State} (hm : e.mode = .encEos) (hs : SinkAccepts e)
    (hi : issue [.eFinish] e = .next e') (hidle : e'.mode = .idle) :
    e'.bo = e.bo ++ sentBits (followBits (decide (e.params.oneFourth ≤ e.low)) (e.pending + 1))
      ++ [⟨.flush, false⟩] := by
  by_cases hq : e.pending = e.params.pendMax
  · rw [issue, exec_eFinish_raises (.inr hm) hq] at hi
    cases hi
    cases hidle
  · rw [issue, exec_eFinish (.inr hm) hq (.of_accepts hs _)] at hi
    cases hi
    rfl

/-! ## The round trip -/

/-- The thresholds of the cases are functions of `CODE_BITS` alone (R10). -/
theorem thresholds_congr {p p' : Params} (hp : p'.codeBits = p.codeBits) :
    p'.half = p.half ∧ p'.oneFourth = p.oneFourth ∧ p'.threeFourths = p.threeFourths := by
  simp only [Params.half, Params.oneFourth, Params.threeFourths, hp, and_self]

/-- The decode loop knows the parameters by `CODE_BITS` alone (R194). -/
theorem DecTrace.congr_params {p p' : Params} (hp : p'.codeBits = p.codeBits) {l h v l' h' v' : Nat}
    {bits : List Bit} (tr : DecTrace p l h v bits l' h' v') : DecTrace p' l h v bits l' h' v' := by
  obtain ⟨hhalf, hone, hthree⟩ := thresholds_congr hp
  have happlies (c : ECase) (l h : Nat) : c.applies p' l h = c.applies p l h := by
    cases c <;> simp only [ECase.applies, hhalf, hone, hthree]
  have hoff (c : ECase) : offset p' c = offset p c := by
    cases c <;> simp only [offset, hhalf, hone]
  obtain ⟨st, hs⟩ := tr
  refine ⟨?_, by simpa only [Settled, hhalf, hone, hthree] using hs⟩
  clear hs
  induction st using DecSteps.stepInduction with
  | done => exact .done
  | step c l h v l' h' v' b bits ha _ ih =>
    exact DecSteps.step (c := c) (happlies c l h ▸ ha) (by rwa [hoff])

/-- What the decode loop of `DECODE` answers for `bytes` and then `EOS` (R80, R143). -/
def Decodes (bytes : List Byte) (d : State) : Prop :=
  ∃ d', decodeLoop (bytes.length + 1) d = .next d' ∧ d'.mode = .decEos
    ∧ d'.rsp = d.rsp ++ bytes.map (fun b => ⟨.ok, b.toNat, 0, 0, 0, 0⟩) ++ [⟨.eos, 256, 0, 0, 0, 0⟩]

theorem lastStatus_of_rsp {s : State} {l : List Response} {r : Response} (h : s.rsp = l ++ [r]) :
    lastStatus s = some r.status := by
  simp [lastStatus, h]

theorem Decodes.eos {d t : State} (he : exec .dSym d = .next t) (hm : t.mode = .decEos)
    (hr : t.rsp = d.rsp ++ [⟨.eos, 256, 0, 0, 0, 0⟩]) : Decodes [] d := by
  have hloop : decodeLoop 1 d = .next t := by
    simp [decodeLoop, he, lastStatus_of_rsp hr]
  exact ⟨t, hloop, hm, by rw [hr, List.map_nil, List.append_nil]⟩

theorem Decodes.byte {d t : State} {b : Byte} {bytes : List Byte} (he : exec .dSym d = .next t)
    (hr : t.rsp = d.rsp ++ [⟨.ok, b.toNat, 0, 0, 0, 0⟩]) (h : Decodes bytes t) :
    Decodes (b :: bytes) d := by
  obtain ⟨d', hloop, hm, hr'⟩ := h
  have hloop' : decodeLoop (bytes.length + 1 + 1) d = .next d' := by
    rw [decodeLoop, he, ← hloop]
    exact if_pos (lastStatus_of_rsp hr)
  exact ⟨d', hloop', hm, by simp [hr', hr]⟩

/-- Where the encoder `e` has `σ` to come, a decoder in step with it that holds the stream decodes
`bytes` and then `EOS` (R123). -/
def Replays (e : State) (bytes : List Byte) (σ : List Bit) : Prop :=
  ∃ τ, Carries e.params e.low e.high e.pending σ τ ∧ ∀ d : State, InStep e d → Coding d →
    d.mode = .dec → d.value = window e.params.codeBits τ → Fetched τ e.params.codeBits d →
    Decodes bytes d

/-- The loop of one symbol backwards: the stream before it is in the narrowed interval, and the decoder's
loop goes from it to the stream after it (R120, R123). -/
theorem SymTrace.carries {e : State} (h : Coding e) {k : Nat} (hk : k ≤ 256) {l u q : Nat}
    {bits : List Bit} (tr : SymTrace e k bits l u q) {σ τ' : List Bit}
    (hcar : Carries e.params l u q σ τ') :
    ∃ τ, Carries e.params e.low e.high e.pending (bits ++ σ) τ ∧ ∀ d : State, InStep e d →
      d.value = window e.params.codeBits τ → Fetched τ e.params.codeBits d →
      (narrowedLow d k ≤ d.value ∧ d.value ≤ narrowedHigh d k)
      ∧ ∃ fetched,
        DecTrace d.params (narrowedLow d k) (narrowedHigh d k) d.value fetched l u
          (window e.params.codeBits τ')
        ∧ SourceGives d fetched
        ∧ Fetched τ' e.params.codeBits (afterFetched fetched.length d) := by
  obtain ⟨hlow, ho, hhigh⟩ := h.narrowed hk
  obtain ⟨τ, fetched, hcarτ, st, hfetch⟩ := tr.1.carries h.codeBits ho (hhigh.trans h.highFits) hcar
  refine ⟨τ, hcarτ.widen hlow hhigh, fun d hd hv hs => ?_⟩
  obtain ⟨hgives, hs'⟩ := hfetch d hd.codeBits hs
  rw [hd.narrowedLow, hd.narrowedHigh, hv]
  exact ⟨hcarτ.bounds, fetched, DecTrace.congr_params hd.codeBits ⟨st, tr.2⟩, hgives, hs'⟩

theorem replays_eos {e : State} (h : Coding e) {l u q : Nat} {bits : List Bit}
    (tr : SymTrace e 256 bits l u q) {σ τ' : List Bit} (hcar : Carries e.params l u q σ τ') :
    Replays e [] (bits ++ σ) := by
  obtain ⟨τ, hcarτ, hdec⟩ := SymTrace.carries h le_rfl tr hcar
  refine ⟨τ, hcarτ, fun d hd hcd hm hv hs => ?_⟩
  obtain ⟨⟨hlow, hhigh⟩, -⟩ := hdec d hd hv hs
  exact Decodes.eos (exec_dSym_eos hcd hm hlow hhigh) rfl rfl

theorem replays_byte {e : State} (h : Coding e) (b : Byte) {l u q : Nat} {bits : List Bit}
    {x : BitVec 9} (hx : x.toNat = b.toNat) (tr : SymTrace e x.toNat bits l u q) {bytes : List Byte}
    {σ : List Bit} (hrest : Replays (afterESym x l u q bits e) bytes σ) :
    Replays e (b :: bytes) (bits ++ σ) := by
  have hb : x.toNat ≤ 255 := by have := b.isLt; omega
  obtain ⟨τ', hcar, hdec'⟩ := hrest
  obtain ⟨τ, hcarτ, hdec⟩ := SymTrace.carries h (by omega) tr hcar
  refine ⟨τ, hcarτ, fun d hd hcd hm hv hs => ?_⟩
  obtain ⟨⟨hlow, hhigh⟩, fetched, tr', hgives, hs'⟩ := hdec d hd hv hs
  have hnext : InStep (afterESym x l u q bits e)
      (afterDSym x.toNat l u (window e.params.codeBits τ') fetched.length d) :=
    { hd.next x.toNat l u q (window e.params.codeBits τ') fetched.length bits with }
  have hcoding := hcd.next (t := afterDSym x.toNat l u (window e.params.codeBits τ') fetched.length d)
    (k := x.toNat) (by omega) rfl rfl rfl tr'.2 (by
      obtain ⟨-, ho, hf⟩ := hcd.narrowed (k := x.toNat) (by omega)
      exact (tr'.1.bounds hcd.codeBits hlow hhigh (hf.trans hcd.highFits)).2.2)
  exact Decodes.byte (exec_dSym_byte hcd hm hb hlow hhigh tr' hgives) (by rw [← hx])
    (hdec' _ hnext hcoding hm rfl ⟨hs'.bi, hs'.overrun⟩)

theorem toNat_setWidth_byte (b : Byte) : (b.setWidth 9).toNat = b.toNat := by
  have := b.isLt
  rw [BitVec.toNat_setWidth, Nat.mod_eq_of_lt (by omega)]

/-- The stream of an encode procedure that closes its session is replayed, whatever bits follow it
(R123, R133). -/
theorem issue_encodeRest_replays (extra : List Bit) (bytes : List Byte) {e e' : State} (h : Coding e)
    (hm : e.mode = .enc) (hs : SinkAccepts e) (hi : issue (encodeRest bytes) e = .next e')
    (hidle : e'.mode = .idle) :
    ∃ σ, streamBits e'.bo = streamBits e.bo ++ σ ∧ Replays e bytes (σ ++ extra) := by
  induction bytes generalizing e with
  | nil =>
    obtain ⟨l, u, q, bits, tr, hi'⟩ := issue_eSym h hm hs (x := 256) le_rfl (by simp [runsInFault]) hi hidle
    have hbo : e'.bo = e.bo ++ sentBits bits
        ++ sentBits (followBits (decide (e.params.oneFourth ≤ l)) (q + 1)) ++ [⟨.flush, false⟩] :=
      issue_eFinish (e := afterESym 256 l u q bits e) rfl (hs.afterESym _ _ _ _ _) hi' hidle
    have hcar := Carries.terminated h.codeBits tr.2 q extra rfl
    refine ⟨bits ++ followBits (decide (e.params.oneFourth ≤ l)) (q + 1), ?_, ?_⟩
    · simp only [hbo, streamBits_append, streamBits_sentBits, streamBits, List.append_nil,
        List.append_assoc]
    · rw [List.append_assoc]
      exact replays_eos h tr hcar
  | cons b bytes ih =>
    have hx := toNat_setWidth_byte b
    obtain ⟨l, u, q, bits, tr, hi'⟩ := issue_eSym h hm hs (x := b.setWidth 9)
      (by have := b.isLt; omega) (runsInFault_encodeRest bytes) hi hidle
    have hmode : (afterESym (b.setWidth 9) l u q bits e).mode = .enc :=
      if_neg (by have := b.isLt; omega)
    obtain ⟨σ, hbo, hreplays⟩ := ih (h.afterESym (by have := b.isLt; omega) tr) hmode (hs.afterESym _ _ _ _ _) hi'
    refine ⟨bits ++ σ, ?_, ?_⟩
    · rw [hbo, ← List.append_assoc]
      simp only [afterESym, encodedSteps, streamBits_append, streamBits_sentBits]
    · rw [List.append_assoc]
      exact replays_byte h b hx tr hreplays

/-- Two instances that agree as R194 asks start their sessions in step (R130, R140). -/
theorem inStep_opened {e d : State} (hcode : d.params.codeBits = e.params.codeBits)
    (hfreq : d.params.freqBits = e.params.freqBits) (hpol : d.params.policy = e.params.policy)
    (τ : List Bit) : InStep (afterEInit e) (afterDInit τ d) where
  codeBits := hcode
  freqBits := hfreq
  policy := hpol
  cum := rfl
  frozen := rfl
  low := rfl
  high := congrArg (2 ^ · - 1) hcode

/-- `DECODE` answers the symbols between the answers of `D.INIT` and `D.END` (R80, R143). -/
theorem decodeStream_of_decodes {d t : State} {bytes : List Byte} (hinit : exec .dInit d = .next t)
    (hr : t.rsp = d.rsp ++ [⟨.ok, 0, 0, 0, 0, 0⟩]) (h : Decodes bytes t) :
    ∃ d', decodeStream (bytes.length + 1) d = .next d' ∧ d'.mode = .idle
      ∧ d'.rsp = d.rsp ++ [⟨.ok, 0, 0, 0, 0, 0⟩] ++ bytes.map (fun b => ⟨.ok, b.toNat, 0, 0, 0, 0⟩)
        ++ [⟨.eos, 256, 0, 0, 0, 0⟩, ⟨.ok, 0, 0, 0, 0, 0⟩] := by
  obtain ⟨u, hloop, hmode, hrsp⟩ := h
  have hstream : decodeStream (bytes.length + 1) d = exec .dEnd u := by
    simp only [decodeStream, hinit, hloop]
  exact ⟨_, hstream.trans (exec_dEnd (.inr hmode)), rfl, by simp [hrsp, hr]⟩

/-- Settles O52: from the start of a session nothing is pending, so that the decoder's stream is the one
encoded and what follows it; the loop of `DECODE` replays it. -/
theorem decodeOfEncodedStream : Obligations.DecodeOfEncodedStream := by
  intro e e' d bytes extra hve hvd hcode hfreq hpol hme hmd hs hbo hissue hidle hbi
  have hissue' : issue (encodeRest bytes) (afterEInit e) = .next e' := by
    rw [← hissue, expand, List.cons_append, issue, exec_eInit hme]
    rfl
  obtain ⟨σ, hσ, τ, hcar, hdec⟩ := issue_encodeRest_replays extra bytes
    (e := afterEInit e) (Coding.opened hve rfl rfl rfl rfl rfl) rfl hs hissue' hidle
  obtain rfl : τ = σ ++ extra := hcar.eq_of_pending_zero
  have hstream : streamBits e'.bo = σ := by
    rw [hσ, show (afterEInit e).bo = [] from hbo]
    rfl
  obtain ⟨hinit, hfetched⟩ := exec_dInit (τ := σ ++ extra) hmd
    (by have := d.params.codeBits_ge hvd; omega) hcar.two_le_length (hstream ▸ hbi)
  exact decodeStream_of_decodes hinit rfl (hdec _ (inStep_opened hcode hfreq hpol _)
    (Coding.opened hvd rfl rfl rfl rfl rfl) rfl (congrArg (window · _) hcode) (hcode ▸ hfetched))

end Sys2Proof.Machine
end

section
/-! PROOFS. The encode commands: `E.INIT` opens a session (O39), `E.SYM` codes one symbol (O40), `E.FINISH`
terminates the stream (O41) or stops at the transaction that the sink fails (O43). -/

namespace Sys2Proof.Machine

/-- Settles O39: the state after `E.INIT`, its constants written out. -/
theorem eInitOpensSession : Obligations.EInitOpensSession :=
  fun _ hm => exec_eInit hm

/-! ## `E.SYM` -/

/-- With room in `PENDING` for `CODE_BITS` counts, the loop of `E.SYM` has a trace (R116, R122). -/
theorem Coding.exists_encTrace {s : State} (h : Coding s) {k : Nat} (hk : k ≤ 256)
    (hroom : s.pending + s.params.codeBits ≤ s.params.pendMax) :
    ∃ l u q bits, EncTrace s.params (narrowedLow s k) (narrowedHigh s k) s.pending bits l u q := by
  obtain ⟨-, ho, hf⟩ := h.narrowed hk
  exact (renormEncFollowsCases (narrowedCounted k s) h.valid ho (hf.trans h.highFits)).2.2 hroom

/-- Settles O40: between symbols the loop runs along its trace from the narrowed interval, and there is
such a trace where `PENDING` has room. -/
theorem eSymEncodesSymbol : Obligations.ESymEncodesSymbol := by
  intro s x hi hm hx
  have hc : Coding s := hi.coding (by simp [hm])
  refine ⟨fun l h q bits tr hs => exec_eSym hc hm hx tr hs, fun hs hroom => ?_⟩
  obtain ⟨l, h, q, bits, tr⟩ := hc.exists_encTrace hx hroom
  exact ⟨l, h, q, bits, _, tr, exec_eSym hc hm hx tr (.of_accepts hs _)⟩

/-! ## `E.FINISH` -/

/-- The bit that `E.FINISH` emits first (R132). -/
def terminationBit (s : State) : Bit := decide (s.params.oneFourth ≤ s.low)

theorem terminationBit_eq_false_iff (s : State) :
    terminationBit s = false ↔ s.low < 2 ^ (s.params.codeBits - 2) :=
  decide_eq_false_iff_not.trans Nat.not_le

/-- Settles O41: the state after `E.FINISH`, for the bit that it emits first. -/
theorem eFinishTerminates : Obligations.EFinishTerminates :=
  fun s hm hq hs => ⟨terminationBit s, terminationBit_eq_false_iff s, exec_eFinish hm hq hs⟩

/-- Where `PENDING` has room, `E.FINISH` counts up, emits the termination bits and flushes (R132). -/
theorem body_eFinish {s : State} (hq : s.pending ≠ s.params.pendMax) :
    body .eFinish s
      = (emitWithFollow (terminationBit s) { s with pending := s.pending + 1 }).bind fun _ u =>
          (flush u).bind fun _ v => .ok { status := .ok } { v with mode := .idle } := by
  have hinc : incPending s = .ok () { s with pending := s.pending + 1 } := if_neg hq
  rw [body, hinc, bind_ok]
  rfl

/-- A termination bit refused: `PENDING` stays counted up (R170, R179). -/
theorem exec_eFinish_bit_raises {s : State} (hm : s.mode = .enc ∨ s.mode = .encEos)
    (hq : s.pending ≠ s.params.pendMax) {m : Nat} (hmp : m ≤ s.pending + 1) {later : List Bool}
    (herr : s.boErr = List.replicate m false ++ true :: later) :
    exec .eFinish s = .next (takeFault .ioFailure (encode .eFinish) { s with
      pending := s.pending + 1
      bo := s.bo ++ sentBits ((followBits (terminationBit s) (s.pending + 1)).take m)
        ++ [⟨.bit (if m = 0 then terminationBit s else !terminationBit s), true⟩]
      boErr := later }) := by
  have hbit := emitWithFollow_raises (terminationBit s) (s := { s with pending := s.pending + 1 }) hmp herr
  rw [exec_eFinish_runs hm, body_eFinish hq, hbit, bind_raised, conclude_raised]

/-- A sink whose next answers are 0 for each of `sent` takes them, and its later answers are left (R77). -/
theorem sinkTakes_of_boErr {s : State} {sent : List BoTxn} {later : List Bool}
    (h : s.boErr = List.replicate sent.length false ++ later) :
    SinkTakes s sent.length ∧ (afterSent sent s).boErr = later := by
  simp [SinkTakes, afterSent, h]

/-- `s` after `E.FINISH` emitted the termination bits, which clears `PENDING` (R113, R132). -/
def terminated (s : State) : State :=
  { afterSent (sentBits (followBits (terminationBit s) (s.pending + 1))) s with pending := 0 }

/-- The flush refused: the termination bits were accepted, so that `PENDING` is cleared (R170, R179). -/
theorem exec_eFinish_flush_raises {s : State} (hm : s.mode = .enc ∨ s.mode = .encEos)
    (hq : s.pending ≠ s.params.pendMax) {later : List Bool}
    (herr : s.boErr = List.replicate (s.pending + 2) false ++ true :: later) :
    exec .eFinish s = .next (takeFault .ioFailure (encode .eFinish) { s with
      pending := 0
      bo := s.bo ++ sentBits (followBits (terminationBit s) (s.pending + 1)) ++ [⟨.flush, true⟩]
      boErr := later }) := by
  have hlen : (sentBits (followBits (terminationBit s) (s.pending + 1))).length = s.pending + 2 := by
    rw [sentBits_length, followBits_length, Nat.add_comm]
  obtain ⟨htakes, hleft⟩ := sinkTakes_of_boErr (hlen ▸ herr)
  rw [sentBits_length, followBits_length] at htakes
  have hbits : emitWithFollow (terminationBit s) { s with pending := s.pending + 1 }
      = .ok () (terminated s) := emitWithFollow_takes _ htakes
  rw [exec_eFinish_runs hm, body_eFinish hq, hbits, bind_ok, flush,
    boTransact_raises (s := terminated s) hleft, bind_raised, conclude_raised]
  rfl

/-- Settles O43: the sink's answers say whether a termination bit or the flush is refused. -/
theorem eFinishFlushFails : Obligations.EFinishFlushFails :=
  fun s _ hm hq => ⟨terminationBit s, terminationBit_eq_false_iff s, exec_eFinish_flush_raises hm hq,
    fun _ hmp => exec_eFinish_bit_raises hm hq hmp⟩

end Sys2Proof.Machine
end

section
/-! PROOFS. The decode commands: `D.INIT` primes `VALUE` (O44) or stops at the fetch that raises (O45, O48),
`D.SYM` meets `EOS` (O46), decodes a byte (O47) or stops at the fetch that raises (O49), and `D.END` closes
the session (O50). -/

namespace Sys2Proof.Machine

/-- Settles O50: the state after `D.END`. -/
theorem dEndCloses : Obligations.DEndCloses :=
  fun _ hm => exec_dEnd hm

/-! ## A fetch that raises -/

theorem getBit_of_err {s : State} {later : List BiAnswer} (h : s.bi = .err :: later) :
    getBit s = .raised .ioFailure { s with bi := later } :=
  (getBitRules s later).1 h

theorem getBit_of_exhausted {s : State} (hb : s.bi = []) (ho : s.overrun = s.params.overrunMax) :
    getBit s = .raised .streamExhausted s := by
  obtain ⟨-, -, hend, -⟩ := getBitRules s []
  exact hend hb ho

/-! ## `D.INIT` -/

theorem bitsToNat_lt (bits : List Bit) : bitsToNat bits < 2 ^ bits.length := by
  refine Nat.lt_pow_two_of_testBit _ fun i hi => ?_
  rw [testBit_bitsToNat]
  exact List.getD_eq_default _ _ (by simpa using hi)

/-- A register that holds fewer than `CODE_BITS` bits takes the next one without loss (R115, R140). -/
theorem shl_bitsToNat {p : Params} {bits : List Bit} (h : bits.length < p.codeBits) (b : Bit) :
    shl p (bitsToNat bits) b = bitsToNat (bits ++ [b]) := by
  have hlt : 2 * bitsToNat bits < 2 ^ p.codeBits :=
    calc 2 * bitsToNat bits < 2 * 2 ^ bits.length := Nat.mul_lt_mul_of_pos_left (bitsToNat_lt bits) (by omega)
      _ = 2 ^ (bits.length + 1) := (Nat.pow_succ').symm
      _ ≤ 2 ^ p.codeBits := Nat.pow_le_pow_right (by omega) h
  rw [shl_eq (by omega), Nat.mod_eq_of_lt hlt, bitsToNat_concat, Nat.bit_val]

/-- One read of `D.INIT` whose bit the source gives (R114, R140). -/
theorem primeValue_step (n : Nat) {held : List Bit} {b : Bit} {s : State}
    (hv : s.value = bitsToNat held) (hfit : held.length < s.params.codeBits) (hs : SourceGives s [b]) :
    primeValue (n + 1) s = primeValue n { afterFetched 1 s with value := bitsToNat (held ++ [b]) } := by
  rw [primeValue, getBit_of_sourceGives hs, bind_ok, ← shl_bitsToNat hfit, ← hv]
  rfl

/-- The reads whose bits the source gives shift them in behind the bits that `VALUE` holds (R114, R140). -/
theorem primeValue_of_sourceGives (n : Nat) {held bits : List Bit} {s : State}
    (hv : s.value = bitsToNat held) (hfit : held.length + bits.length ≤ s.params.codeBits)
    (hs : SourceGives s bits) :
    primeValue (bits.length + n) s
      = primeValue n { afterFetched bits.length s with value := bitsToNat (held ++ bits) } := by
  induction bits generalizing held s with
  | nil => rw [List.append_nil, ← hv, List.length_nil, afterFetched_zero, Nat.zero_add]
  | cons b bits ih =>
    rw [List.length_cons] at hfit ⊢
    obtain ⟨hfirst, hrest⟩ := (sourceGives_cons_iff b bits s).mp hs
    have hfit' : (held ++ [b]).length + bits.length ≤ s.params.codeBits := by simp; omega
    have hnext := ih (held := held ++ [b])
      (s := { afterFetched 1 s with value := bitsToNat (held ++ [b]) }) rfl hfit' hrest
    rw [Nat.add_right_comm, primeValue_step _ hv (by omega) hfirst, hnext, List.append_cons held b bits,
      Nat.add_comm bits.length 1, ← afterFetched_afterFetched]
    rfl

/-- `s` in `D.INIT` after the reads of `bits` (R140). -/
def primed (bits : List Bit) (s : State) : State :=
  { afterFetched bits.length (openSession s) with value := bitsToNat bits }

/-- `D.INIT`'s pseudocode after the reads whose bits the source gives (R140). -/
theorem body_dInit {s : State} {bits : List Bit} {n : Nat} (hn : bits.length + n = s.params.codeBits)
    (hs : SourceGives (openSession s) bits) :
    body .dInit s = (primeValue n (primed bits s)).bind fun _ t =>
      .ok { status := .ok } { t with mode := .dec } := by
  have hprime := primeValue_of_sourceGives n (held := []) (s := openSession s) rfl
    (by rw [List.length_nil, openSession_params]; omega) hs
  rw [body, ← hn, hprime]
  rfl

theorem exec_dInit_runs {s : State} (hm : s.mode = .idle) :
    exec .dInit s = conclude (encode .dInit) (body .dInit s) :=
  exec_runs (by simp [hm]) rfl (decide_eq_true hm) rfl

/-- `D.INIT` where, after the reads of `bits`, the next one raises (R179). -/
theorem exec_dInit_raises {s : State} (hm : s.mode = .idle) {bits : List Bit}
    (hlen : bits.length < s.params.codeBits) (hs : SourceGives (openSession s) bits) {f : FaultCode}
    {t : State} (hget : getBit (primed bits s) = .raised f t) :
    exec .dInit s = .next (takeFault f (encode .dInit) t) := by
  obtain ⟨n, hn⟩ := Nat.exists_eq_add_of_lt hlen
  rw [exec_dInit_runs hm, body_dInit (n := n + 1) hn.symm hs, primeValue, hget, bind_raised, bind_raised,
    conclude_raised]

@[simp] theorem length_sourceBits (n : Nat) (s : State) : (sourceBits n s).length = n := by
  simp only [sourceBits, List.length_append, List.length_map, List.length_take, List.length_replicate]
  omega

/-- From the start of a session a source gives its first `n` answers, zeros past its end included, if none is
`bi_err` and `OVERRUN` has room for the zeros (R114). -/
theorem sourceGives_openSession {s : State} {n : Nat} (herr : ∀ a ∈ s.bi.take n, a ≠ .err)
    (hroom : n ≤ s.bi.length + s.params.overrunMax) : SourceGives (openSession s) (sourceBits n s) := by
  rw [SourceGives, length_sourceBits]
  exact ⟨herr, rfl, .inr (by rw [openSession_overrun, openSession_bi, openSession_params]; omega)⟩

/-- Settles O44: of a source with 2 bits, `OVERRUN` counts at most `CODE_BITS - 2` reads past the end, so that
each of the `CODE_BITS` reads is given its bit. -/
theorem dInitPrimesValue : Obligations.DInitPrimesValue := by
  intro s hm herr hlen
  have hs := sourceGives_openSession herr (by rw [Params.overrunMax]; omega)
  rw [exec_dInit_runs hm, body_dInit (n := 0) (length_sourceBits _ _) hs, primeValue, bind_ok, conclude_ok,
    primed, length_sourceBits, afterFetched, openSession_overrun, Nat.zero_add]
  rfl

/-- `D.INIT` where the source ends and `OVERRUN` is at its maximum before the last read (R168). -/
theorem exec_dInit_exhausted {s : State} (hm : s.mode = .idle) {bits : List Bit}
    (hlen : bits.length = s.bi.length + s.params.overrunMax) (hfit : bits.length < s.params.codeBits)
    (hs : SourceGives (openSession s) bits) :
    exec .dInit s = .next (takeFault .streamExhausted (encode .dInit) { openSession s with
      overrun := s.params.overrunMax, bi := [], value := bitsToNat bits }) := by
  have hprimed : primed bits s = { openSession s with
      overrun := s.params.overrunMax, bi := [], value := bitsToNat bits } := by
    simp [primed, afterFetched, hlen]
  have hget := getBit_of_exhausted (s := primed bits s) (by rw [hprimed]) (by rw [hprimed]; rfl)
  rw [exec_dInit_raises hm hfit hs hget, hprimed]

/-- Settles O45: the source gives its bits and `OVERRUN_MAX` zeros, fewer than `CODE_BITS` together, and the
next read is at its end. -/
theorem dInitStreamExhausted : Obligations.DInitStreamExhausted := by
  intro s hm hv hsound hlen
  have hcode := s.params.codeBits_ge hv
  have hs := sourceGives_openSession (n := s.bi.length + s.params.overrunMax)
    (fun a ha => hsound a (List.mem_of_mem_take ha)) le_rfl
  exact exec_dInit_exhausted hm (length_sourceBits _ _)
    (by rw [length_sourceBits]; omega) hs

/-- A source that holds `bits` gives them, whatever it answers later (R78). -/
theorem sourceGives_of_bi {s : State} {bits : List Bit} {later : List BiAnswer}
    (h : s.bi = bits.map .bit ++ later) : SourceGives s bits := by
  have htake : s.bi.take bits.length = bits.map .bit := by simp [h]
  refine ⟨fun a ha => ?_, ?_, .inl (by simp [h])⟩
  · rw [htake] at ha
    obtain ⟨b, -, rfl⟩ := List.mem_map.mp ha
    nofun
  · rw [sourceBits, htake]
    simp [h, Function.comp_def]

/-- Settles O48: the source gives `bits`, and the next read meets `bi_err`. -/
theorem dInitFailsPrecisely : Obligations.DInitFailsPrecisely := by
  intro s bits later hm _ hlen hbi
  have hprimed : primed bits s = { openSession s with
      overrun := 0, bi := .err :: later, value := bitsToNat bits } := by
    simp [primed, afterFetched, hbi]
  have hget := getBit_of_err (s := primed bits s) (later := later) (by rw [hprimed])
  rw [exec_dInit_raises hm hlen (sourceGives_of_bi hbi) hget, hprimed]
  rfl

/-! ## `D.SYM` -/

/-- In a decode session the interval narrowed to the symbol that owns the scaled count holds `VALUE`
(R120, R121). -/
theorem Invariant.narrowed_holds_value {s : State} (hi : Invariant s) (hm : s.mode = .dec) {k : Nat}
    (hk : cumAt s.cum k ≤ scaledValue s) (hk' : scaledValue s < cumAt s.cum (k + 1)) :
    narrowedLow s k ≤ s.value ∧ s.value ≤ narrowedHigh s k :=
  have htable := (hi.coding (by simp [hm])).table
  Machine.narrowed_holds_value (hi.window (.inl hm)).1
    ((Nat.zero_le _).trans_lt (htable.increasing 256 le_rfl)) hk hk'

/-- Settles O46: the scaled count is below the total, so that the owner is `EOS`. -/
theorem dSymMeetsEos : Obligations.DSymMeetsEos := by
  intro s hi hm hk
  have hc := hi.coding (by simp [hm])
  obtain ⟨hl, hh⟩ := hi.window (.inl hm)
  obtain ⟨-, htotal, -⟩ := scaleFindsTheSymbol s hc.table hl hh
  obtain ⟨hlow, hhigh⟩ := hi.narrowed_holds_value hm hk htotal
  exact exec_dSym_eos hc hm hlow hhigh

/-- On a sound source that has enough bits, the loop of `D.SYM` has a trace whose bits the source gives
(R114, R117). -/
theorem Coding.exists_decTrace {s : State} (h : Coding s) {k : Nat} (hk : k ≤ 256)
    (hlow : narrowedLow s k ≤ s.value) (hhigh : s.value ≤ narrowedHigh s k) (hsound : SourceSound s)
    (henough : s.params.codeBits + s.overrun ≤ s.bi.length + s.params.overrunMax) :
    ∃ l u v bits, DecTrace s.params (narrowedLow s k) (narrowedHigh s k) s.value bits l u v
      ∧ SourceGives s bits := by
  obtain ⟨-, -, hf⟩ := h.narrowed hk
  obtain ⟨-, -, hgives⟩ :=
    renormDecFollowsCases (narrowedCounted k s) h.valid hlow hhigh (hf.trans h.highFits)
  exact hgives hsound henough

/-- Settles O47: the loop runs along its trace from the narrowed interval, and there is such a trace where the
source has enough bits. -/
theorem dSymDecodesByte : Obligations.DSymDecodesByte := by
  intro s k hi hm hk hown hown'
  have hc := hi.coding (by simp [hm])
  obtain ⟨hlow, hhigh⟩ := hi.narrowed_holds_value hm hown hown'
  refine ⟨fun l h v bits tr hs => exec_dSym_byte hc hm hk hlow hhigh tr hs, fun hsound henough => ?_⟩
  obtain ⟨l, h, v, bits, tr, hs⟩ := hc.exists_decTrace (by omega) hlow hhigh hsound henough
  exact ⟨l, h, v, bits, _, tr, hs, exec_dSym_byte hc hm hk hlow hhigh tr hs⟩

/-- The loop raises where a case still applies after completed iterations and the next fetch raises
(R117, R179). -/
theorem DecSteps.renormDec_raises {s : State} (hc : 2 ≤ s.params.codeBits) {l h v : Nat}
    {bits : List Bit} (st : DecSteps s.params s.low s.high s.value bits l h v)
    (hl : s.low ≤ s.value) (hh : s.value ≤ s.high) (hf : s.high ≤ s.params.maxCode)
    (hs : SourceGives s bits) (hset : ¬ Settled s.params l h) {f : FaultCode} {t : State}
    (hget : getBit (afterDecSteps l h v bits.length s) = .raised f t) :
    renormDec s.params.codeBits s = .raised f t := by
  obtain ⟨hl', hh', -⟩ := st.bounds hc hl hh hf
  obtain ⟨c, ha⟩ := exists_applies_of_not_settled hset
  obtain ⟨m, hm, e⟩ := st.renormDec_codeBits hc hl hh hf hs
  obtain ⟨k, rfl⟩ := hm hset
  rw [e, renormDec_succ k (s := afterDecSteps l h v bits.length s) ha (hl'.trans hh'), hget, bind_raised]

/-- `D.SYM` where `VALUE` is in the interval of a byte and, after completed iterations, the next fetch raises
(R179). -/
theorem exec_dSym_raises {s : State} (h : Coding s) (hm : s.mode = .dec) {k : Nat} (hk : k ≤ 255)
    (hlow : narrowedLow s k ≤ s.value) (hhigh : s.value ≤ narrowedHigh s k) {l u v : Nat}
    {bits : List Bit} (st : DecSteps s.params (narrowedLow s k) (narrowedHigh s k) s.value bits l u v)
    (hs : SourceGives s bits) (hset : ¬ Settled s.params l u) {f : FaultCode} {t : State}
    (hget : getBit (decodedSteps k l u v bits.length s) = .raised f t) :
    exec .dSym s = .next (takeFault f (encode .dSym) t) := by
  have hk' : k ≤ 256 := by omega
  have hf := (h.narrowed hk').2.2.trans h.highFits
  have hloop : renormDec s.params.codeBits (narrowedCounted k s) = .raised f t :=
    DecSteps.renormDec_raises (s := narrowedCounted k s) h.codeBits st hlow hhigh hf hs hset hget
  rw [exec_dSym_runs hm, body_dSym h hk' hlow hhigh, if_neg (by omega), decodeSymbol_eq h hk', hloop,
    bind_raised, conclude_raised]

/-- Settles O49: a case still applies after the completed iterations, and its fetch finds the source at its
end with no room in `OVERRUN`, or meets `bi_err`. -/
theorem dSymFailsPrecisely : Obligations.DSymFailsPrecisely := by
  intro s k l h v bits hi hm hk hown hown' st hs hset
  have hc := hi.coding (by simp [hm])
  obtain ⟨hlow, hhigh⟩ := hi.narrowed_holds_value hm hown hown'
  refine ⟨fun hend ho => ?_, fun later herr => ?_⟩
  · exact exec_dSym_raises hc hm hk hlow hhigh st hs hset
      (getBit_of_exhausted (List.drop_eq_nil_of_le hend) ho)
  · exact exec_dSym_raises hc hm hk hlow hhigh st hs hset (getBit_of_err herr)

end Sys2Proof.Machine
end

section
/-! PROOFS. The system commands and the modes, first part: which words are reserved encodings (R73). -/

namespace Sys2Proof

/-! ## The words a format rejects -/

/-- A test of a format (R73): it rejects what fails it, and what the rest of the format rejects. -/
theorem exists_ite_error_iff {c : Prop} [Decidable c] (r : Except Reserved Instr) (e : Reserved) :
    (∃ e', (if c then r else .error e) = .error e') ↔ ¬ c ∨ ∃ e', r = .error e' := by
  by_cases hc : c <;> simp [hc]

theorem formatN_rejects_iff (i : Instr) (w : Word) :
    (∃ e, formatN i w = .error e) ↔ argField w ≠ 0 := by
  simp [formatN, exists_ite_error_iff]

theorem formatS_rejects_iff (mk : BitVec 9 → Instr) (w : Word) :
    (∃ e, formatS mk w = .error e) ↔ w.extractLsb' 9 19 ≠ 0 := by
  simp [formatS, exists_ite_error_iff]

theorem formatI_rejects_iff (mk : BitVec 9 → Instr) (w : Word) :
    (∃ e, formatI mk w = .error e) ↔
      w.extractLsb' 9 19 ≠ 0 ∨ 258 ≤ (w.extractLsb' 0 9).toNat := by
  simp [formatI, exists_ite_error_iff, Nat.succ_le_iff]

theorem formatR_rejects_iff (mk : BitVec 4 → Instr) (w : Word) :
    (∃ e, formatR mk w = .error e) ↔
      w.extractLsb' 4 24 ≠ 0 ∨ 8 ≤ (w.extractLsb' 0 4).toNat := by
  simp [formatR, exists_ite_error_iff, Nat.succ_le_iff]

/-! ## The reserved encodings -/

/-- The reserved encodings of R73 (a) to (d), by opcode and operand. -/
def IsReserved (w : Word) : Prop :=
  w.extractLsb' 28 4 = 0x0 ∨ w.extractLsb' 28 4 = 0xF
    ∨ (w.extractLsb' 28 4 ∈ [0x1, 0x4, 0x8, 0x9, 0xB, 0xC, 0xD, 0xE] ∧ w.extractLsb' 0 28 ≠ 0)
    ∨ (w.extractLsb' 28 4 ∈ [0x3, 0x5, 0x7, 0xA] ∧ w.extractLsb' 9 19 ≠ 0)
    ∨ (w.extractLsb' 28 4 = 0x2 ∧ w.extractLsb' 4 24 ≠ 0)
    ∨ (w.extractLsb' 28 4 = 0x2 ∧ 8 ≤ (w.extractLsb' 0 4).toNat)
    ∨ (w.extractLsb' 28 4 = 0x3 ∧ 258 ≤ (w.extractLsb' 0 9).toNat)

theorem extractLsb'_eq_of_opField {w : Word} {k : Nat} (h : (opField w).toNat = k) :
    w.extractLsb' 28 4 = BitVec.ofNat 4 k :=
  (BitVec.toNat_eq_nat.mp h).2

/-- The decoder rejects exactly the reserved encodings: one row of the opcode map after another (R72, R73). -/
theorem decode_rejects_iff (w : Word) : (∃ e, decode w = .error e) ↔ IsReserved w := by
  unfold decode IsReserved
  split
  case h_1 hop | h_4 hop | h_8 hop | h_9 hop | h_11 hop | h_12 hop | h_13 hop | h_14 hop =>
    simp [extractLsb'_eq_of_opField hop, formatN_rejects_iff, argField]
  case h_5 hop | h_7 hop | h_10 hop =>
    simp [extractLsb'_eq_of_opField hop, formatS_rejects_iff]
  case h_2 hop =>
    simp [extractLsb'_eq_of_opField hop, formatR_rejects_iff]
  case h_3 hop =>
    simp [extractLsb'_eq_of_opField hop, formatI_rejects_iff]
  case h_6 hop =>
    simp [extractLsb'_eq_of_opField hop, formatV]
  case h_15 =>
    have hlt := (opField w).isLt
    have hop : (opField w).toNat = 0 ∨ (opField w).toNat = 15 := by grind
    have hop := hop.imp extractLsb'_eq_of_opField extractLsb'_eq_of_opField
    exact ⟨fun _ => hop.imp_right .inl, fun _ => ⟨_, rfl⟩⟩

end Sys2Proof
end

section
/-! PROOFS. The system commands and the modes, second part: `MODE` and the faults that a command can leave, for
reserved encodings (O6), in `FAULT` mode (O8) and by the transition table (O12). -/

namespace Sys2Proof.Machine

/-! ## The faults a command's pseudocode raises -/

/-- The run raises only codes that stand for a fault and are not the prologue's `IllegalCommand`. -/
def Run.RaisesOwn {α : Type} : Run α → Prop
  | .ok _ _ => True
  | .raised c _ => c ≠ .none ∧ c ≠ .illegalCommand
  | .stuck _ => True

theorem Run.RaisesOwn.bind {α β : Type} {r : Run α} {k : α → State → Run β} (h : r.RaisesOwn)
    (hk : ∀ a t, (k a t).RaisesOwn) : (r.bind k).RaisesOwn := by
  cases r with
  | ok a t => exact hk a t
  | raised c t => exact h
  | stuck f => trivial

theorem narrow_raisesOwn (b : Bounds) (s : State) : (narrow b s).RaisesOwn := by
  unfold narrow
  split <;> trivial

theorem scale_raisesOwn (s : State) : (scale s).RaisesOwn := by
  unfold scale
  split <;> trivial

theorem boTransact_raisesOwn (item : BoItem) (s : State) : (boTransact item s).RaisesOwn := by
  rcases boTransact_cases item s with ⟨h, -⟩ | h <;> rw [h]
  exacts [trivial, ⟨nofun, nofun⟩]

theorem emitWithFollow_raisesOwn (b : Bit) (s : State) : (emitWithFollow b s).RaisesOwn := by
  obtain ⟨sent, h | h⟩ := emitWithFollow_cases b s <;> rw [h]
  exacts [trivial, ⟨nofun, nofun⟩]

theorem incPending_raisesOwn (s : State) : (incPending s).RaisesOwn := by
  rcases incPending_cases s with ⟨-, h⟩ | ⟨-, h⟩ <;> rw [h]
  exacts [⟨nofun, nofun⟩, trivial]

theorem getBit_raisesOwn (s : State) : (getBit s).RaisesOwn := by
  rcases getBit_cases s with ⟨_, _, h⟩ | ⟨_, _, _, h⟩ | ⟨_, _, h⟩ | ⟨_, _, h⟩ <;> rw [h]
  exacts [⟨nofun, nofun⟩, trivial, ⟨nofun, nofun⟩, trivial]

theorem resolve_raisesOwn (c : ECase) (s : State) : (resolve c s).RaisesOwn := by
  cases c
  exacts [emitWithFollow_raisesOwn _ s, emitWithFollow_raisesOwn _ s, incPending_raisesOwn s]

theorem renormEnc_raisesOwn (n : Nat) (s : State) : (renormEnc n s).RaisesOwn := by
  induction n generalizing s with
  | zero => unfold renormEnc; split <;> trivial
  | succ n ih =>
    unfold renormEnc
    split
    · trivial
    · exact (resolve_raisesOwn _ s).bind fun _ t => ih _

theorem renormDec_raisesOwn (n : Nat) (s : State) : (renormDec n s).RaisesOwn := by
  induction n generalizing s with
  | zero => unfold renormDec; split <;> trivial
  | succ n ih =>
    unfold renormDec
    split
    · trivial
    · exact (getBit_raisesOwn s).bind fun _ t => ih _

theorem primeValue_raisesOwn (n : Nat) (s : State) : (primeValue n s).RaisesOwn := by
  induction n generalizing s with
  | zero => trivial
  | succ n ih => exact (getBit_raisesOwn s).bind fun _ t => ih _

/-- The pseudocode of what runs in `FAULT` mode raises nothing (R150, R151). -/
theorem body_of_runsInFault {i : Instr} (h : runsInFault i = true) (s : State) :
    ∃ a u, body i s = .ok a u := by
  cases i with
  | reset => exact ⟨_, _, rfl⟩
  | rdreg r =>
    have hr := (rdreg_wf_iff r s).mp h
    exact ⟨_, _, body_rdreg (List.getElem?_eq_getElem hr)⟩
  | _ => cases h

/-- A well-formed command raises `IllegalCommand` nowhere in its pseudocode: only `RDREG` names it there, for
the numbers that R73 (c) reserves. -/
theorem body_raisesOwn {i : Instr} (hw : i.wf = true) (s : State) : (body i s).RaisesOwn := by
  cases i with
  | reset | rdcum | mInit | mProb | mObserve | mTotal | eInit | dEnd => trivial
  | rdreg r =>
    obtain ⟨a, u, h⟩ := body_of_runsInFault (i := .rdreg r) hw s
    rw [h]
    trivial
  | mLocate v =>
    simp only [body]
    split
    exacts [⟨nofun, nofun⟩, trivial]
  | eSym sym =>
    exact (narrow_raisesOwn _ s).bind fun _ t => (renormEnc_raisesOwn _ _).bind fun _ _ => trivial
  | eFinish =>
    exact (incPending_raisesOwn s).bind fun _ t => (emitWithFollow_raisesOwn _ t).bind fun _ u =>
      (boTransact_raisesOwn .flush u).bind fun _ _ => trivial
  | dInit => exact (primeValue_raisesOwn _ _).bind fun _ _ => trivial
  | dSym =>
    refine (scale_raisesOwn s).bind fun scaled t => ?_
    split
    · trivial
    · exact (narrow_raisesOwn _ _).bind fun _ u => (renormDec_raisesOwn _ u).bind fun _ _ => trivial

/-! ## The mode a command's pseudocode leaves -/

@[simp] theorem observe_mode (sym : Nat) (s : State) : (observe sym s).2.mode = s.mode := by
  rw [observe_frame]

theorem WroteBits.mode_eq {s t : State} (h : WroteBits s t) : t.mode = s.mode := by
  obtain ⟨sent, ht⟩ := h
  rw [ht]
  rfl

theorem ReadBits.mode_eq {s t : State} (h : ReadBits s t) : t.mode = s.mode := by
  obtain ⟨n, -, ht⟩ := h
  rw [ht]

theorem narrow_mode (b : Bounds) (s : State) : (narrow b s).Leaves (·.mode = s.mode) :=
  (narrow_frame b s).mono fun _ h => by rw [h]

theorem afterSymbol_mode (sym : Nat) (s : State) :
    (afterSymbol sym s).mode = if sym = eos then .encEos else s.mode := by
  unfold afterSymbol
  split <;> rfl

/-- Where the run ends, its result and state meet `P`. -/
def Run.Ends {α : Type} (P : α → State → Prop) : Run α → Prop
  | .ok a s => P a s
  | .raised _ _ => True
  | .stuck _ => True

theorem Run.Ends.bind {α β : Type} {r : Run α} {k : α → State → Run β} {P : State → Prop}
    {Q : β → State → Prop} (h : r.Leaves P) (hk : ∀ a t, P t → (k a t).Ends Q) : (r.bind k).Ends Q := by
  cases r with
  | ok a t => exact hk a t h
  | raised c t => trivial
  | stuck f => trivial

/-- `MODE` after the command `i` that ran from `s` and answered `a`: the rows of R153. -/
def modeAfter (i : Instr) (a : Response) (s : State) : Mode :=
  match i with
  | .reset => if s.params.valid then .idle else .fault
  | .eInit => .enc
  | .eSym sym => if sym.toNat = eos then .encEos else s.mode
  | .dInit => .dec
  | .dSym => if a = ⟨.eos, 256, 0, 0, 0, 0⟩ then .decEos else s.mode
  | .eFinish | .dEnd => .idle
  | .rdreg _ | .rdcum _ | .mInit | .mProb _ | .mLocate _ | .mObserve _ | .mTotal => s.mode

theorem body_mode (i : Instr) (s : State) : (body i s).Ends fun a u => u.mode = modeAfter i a s := by
  cases i with
  | reset | rdcum | mInit | mProb | mTotal | eInit | dEnd => exact rfl
  | rdreg r =>
    simp only [body]
    split
    exacts [rfl, trivial]
  | mLocate v =>
    simp only [body]
    split
    exacts [trivial, rfl]
  | mObserve sym => exact observe_mode sym.toNat s
  | eSym sym =>
    refine Run.Ends.bind (narrow_mode _ s) fun _ t ht => ?_
    refine Run.Ends.bind (renormEnc_wrote _ _) fun _ u hu => ?_
    have hmode : u.mode = s.mode := by rw [hu.mode_eq, observe_mode, ht]
    exact (afterSymbol_mode sym.toNat u).trans (by rw [hmode]; rfl)
  | eFinish =>
    exact Run.Ends.bind (incPending_wrote s) fun _ t _ =>
      Run.Ends.bind (emitWithFollow_wrote _ t) fun _ u _ =>
        Run.Ends.bind (boTransact_wrote .flush u) fun _ _ _ => rfl
  | dInit => exact Run.Ends.bind (primeValue_read _ _) fun _ _ _ => rfl
  | dSym =>
    refine Run.Ends.bind (scale_frame s) fun scaled t ht => ?_
    subst ht
    split
    · exact rfl
    · refine Run.Ends.bind (narrow_mode _ _) fun _ u hu => ?_
      refine Run.Ends.bind (renormDec_read _ u) fun _ v hv => ?_
      exact hv.mode_eq.trans (hu.trans (observe_mode _ t))

/-- Outside `FAULT` mode only `RESET` ends, without a fault raised, in `FAULT` mode (R150, R169). -/
theorem eq_reset_of_modeAfter {i : Instr} {a : Response} {s : State} (hm : s.mode ≠ .fault)
    (h : modeAfter i a s = .fault) : i = .reset := by
  cases i with
  | reset => rfl
  | eSym sym =>
    simp only [modeAfter] at h
    split at h
    exacts [(nomatch h), absurd h hm]
  | dSym =>
    simp only [modeAfter] at h
    split at h
    exacts [(nomatch h), absurd h hm]
  | eInit | dInit | eFinish | dEnd => cases h
  | rdreg | rdcum | mInit | mProb | mLocate | mObserve | mTotal => exact absurd h hm

/-- The rows of R153 for the command `i` from `s` to `t`, faults apart. -/
def ModeListed (i : Instr) (s t : State) : Prop :=
  (i = .reset ∧ t.mode = if s.params.valid then .idle else .fault)
    ∨ (i = .eInit ∧ s.mode = .idle ∧ t.mode = .enc)
    ∨ (i = .eSym 256 ∧ s.mode = .enc ∧ t.mode = .encEos)
    ∨ (i = .eFinish ∧ (s.mode = .enc ∨ s.mode = .encEos) ∧ t.mode = .idle)
    ∨ (i = .dInit ∧ s.mode = .idle ∧ t.mode = .dec)
    ∨ (i = .dSym ∧ s.mode = .dec ∧ t.mode = .decEos ∧ t.rsp = s.rsp ++ [⟨.eos, 256, 0, 0, 0, 0⟩])
    ∨ (i = .dEnd ∧ (s.mode = .dec ∨ s.mode = .decEos) ∧ t.mode = .idle)

/-- From a mode in which it is legal (R154), a command leaves `MODE` alone or follows its row of R153. -/
theorem modeListed_of_modeAfter {i : Instr} {a : Response} {s t : State} (hl : legalMode i s.mode = true)
    (ht : t.mode = modeAfter i a s) (hrsp : t.rsp = s.rsp ++ [a]) :
    t.mode = s.mode ∨ ModeListed i s t := by
  cases i with
  | reset => exact .inr (.inl ⟨rfl, ht⟩)
  | eInit => exact .inr (.inr (.inl ⟨rfl, of_decide_eq_true hl, ht⟩))
  | eSym sym =>
    simp only [modeAfter] at ht
    split at ht
    case isTrue hsym =>
      obtain rfl : sym = 256 := BitVec.eq_of_toNat_eq hsym
      exact .inr (.inr (.inr (.inl ⟨rfl, of_decide_eq_true hl, ht⟩)))
    case isFalse => exact .inl ht
  | eFinish => exact .inr (.inr (.inr (.inr (.inl ⟨rfl, of_decide_eq_true hl, ht⟩))))
  | dInit => exact .inr (.inr (.inr (.inr (.inr (.inl ⟨rfl, of_decide_eq_true hl, ht⟩)))))
  | dSym =>
    simp only [modeAfter] at ht
    split at ht
    case isTrue ha =>
      exact .inr (.inr (.inr (.inr (.inr (.inr (.inl ⟨rfl, of_decide_eq_true hl, ht, ha ▸ hrsp⟩))))))
    case isFalse => exact .inl ht
  | dEnd => exact .inr (.inr (.inr (.inr (.inr (.inr (.inr ⟨rfl, of_decide_eq_true hl, ht⟩))))))
  | rdreg | rdcum | mInit | mProb | mLocate | mObserve | mTotal => exact .inl ht

/-! ## A well-formed command, and a reserved word -/

/-- Outside `FAULT` mode the prologue of a well-formed command raises only the faults of the mode and of the
symbol (R155 steps 3 and 4). -/
theorem command_cases_of_wf {i : Instr} (body : State → Run Response) {s : State} (hm : s.mode ≠ .fault)
    (hw : i.wf = true) :
    (∃ c, (c = .illegalSequence ∨ c = .symbolRange) ∧ command i body s = .next (takeFault c (encode i) s))
    ∨ command i body s = conclude (encode i) (body s) := by
  by_cases hl : legalMode i s.mode = true
  · by_cases hs : symbolTooLarge i = true
    · exact .inl ⟨_, .inr rfl, by simp [command, hm, hw, hl, hs]⟩
    · exact .inr (command_runs hm hw hl (by simpa using hs))
  · exact .inl ⟨_, .inl rfl, by simp [command, hm, hw, hl]⟩

/-- A well-formed command never raises `IllegalCommand` (R73, R173). -/
theorem exec_faultCode_ne_illegalCommand {i : Instr} {s t : State} (hw : i.wf = true)
    (hm : s.mode ≠ .fault) (h : exec i s = .next t) (ht : t.mode = .fault) : t.faultCode ≠ .illegalCommand := by
  rw [exec_eq_command] at h
  rcases command_cases_of_wf (body i) hm hw with ⟨c, hc, e⟩ | e <;> rw [e] at h
  · cases h
    rcases hc with rfl | rfl <;> exact nofun
  · have hraise := body_raisesOwn hw s
    have hmode := body_mode i s
    rcases conclude_next h with ⟨a, u, hb, rfl⟩ | ⟨c, u, hb, rfl⟩ <;> rw [hb] at hraise hmode
    · obtain rfl := eq_reset_of_modeAfter hm (hmode.symm.trans ht)
      cases hb
      rw [respond_faultCode, coreReset_faultCode]
      split <;> exact nofun
    · exact hraise.2

theorem runWord_of_error {w : Word} {e : Reserved} (h : decode w = .error e) (s : State) :
    runWord w s = runReserved w s := by
  simp only [runWord, h]

/-! ## The statements -/

/-- Settles O6: the decoder's rows give the reserved encodings; one of them meets the two answers of the
prologue; and neither the prologue nor the pseudocode of a well-formed command raises `IllegalCommand`. -/
theorem reservedWordsFault : Obligations.ReservedWordsFault := by
  refine fun w => ⟨decode_rejects_iff w, fun s rest hcmd => ?_⟩
  rw [step_of_command hcmd]
  refine ⟨fun e he => ?_, fun i t hi hm h ht => ?_⟩
  · rw [runWord_of_error he]
    exact ⟨fun hm => if_neg hm, fun hm => if_pos hm⟩
  · rw [runWord_of_decode hi] at h
    obtain ⟨hw, -⟩ := (decode_eq_ok_iff w i).mp hi
    exact exec_faultCode_ne_illegalCommand (s := { s with cmd := rest }) hw hm h ht

/-- A word that decodes to a command executed in `FAULT` mode is `RESET`'s, or `RDREG`'s of one of the eight
registers (R155 step 1). -/
theorem word_of_runsInFault {w : Word} {i : Instr} (hi : decode w = .ok i) (h : runsInFault i = true) :
    w = 0x10000000 ∨ (0x20000000 ≤ w.toNat ∧ w.toNat ≤ 0x20000007) := by
  obtain ⟨hw, rfl⟩ := (decode_eq_ok_iff w i).mp hi
  cases i with
  | reset => exact .inl rfl
  | rdreg r =>
    have hr : r.toNat ≤ 7 := of_decide_eq_true hw
    have hword : (encode (.rdreg r)).toNat = 0x20000000 + r.toNat := by
      show ((0x2 : BitVec 4) ++ r.setWidth 28).toNat = _
      rw [toNat_append_eq_add, BitVec.toNat_setWidth_of_le (by omega)]
      rfl
    omega
  | _ => cases h

/-- Settles O8: a reserved word and a command that is not executed in `FAULT` mode get the same answer. -/
theorem faultModeAnswersFault : Obligations.FaultModeAnswersFault := by
  intro s w rest hcmd hm hreset hrdreg
  rw [step_of_command hcmd]
  cases hi : decode w with
  | error e =>
    rw [runWord_of_error hi]
    exact if_pos hm
  | ok i =>
    have hrun : runsInFault i = false := by
      by_contra hrun
      exact (word_of_runsInFault hi (by simpa using hrun)).elim hreset hrdreg
    rw [runWord_of_decode hi]
    exact exec_faulted (s := { s with cmd := rest }) hm hrun

/-- Settles O12: the prologue's answer keeps `MODE`; a fault is raised outside `FAULT` mode only; and where the
pseudocode ends, `MODE` is as the table lists, from a mode in which the command is legal. -/
theorem modeChangesOnlyAsListed : Obligations.ModeChangesOnlyAsListed := by
  intro i s t h
  rw [exec_eq_command] at h
  rcases command_cases i (body i) s with ⟨-, -, e⟩ | ⟨c, hc, hm, e⟩ | ⟨hf, hw, hl, -, e⟩ <;> rw [e] at h
  · cases h
    exact .inl rfl
  · cases h
    exact .inr (.inl ⟨hm, rfl, by rcases hc with rfl | rfl | rfl <;> exact nofun⟩)
  · have hraise := body_raisesOwn hw s
    have hmode := body_mode i s
    have hrsp := body_keepsRsp i s
    rcases conclude_next h with ⟨a, u, hb, rfl⟩ | ⟨c, u, hb, rfl⟩ <;> rw [hb] at hraise hmode hrsp
    · exact (modeListed_of_modeAfter (t := respond a u) hl hmode (congrArg (· ++ [a]) hrsp)).imp_right .inr
    · refine .inr (.inl ⟨fun hm => ?_, rfl, hraise.1⟩)
      obtain ⟨a, v, hok⟩ := body_of_runsInFault (hf hm) s
      rw [hb] at hok
      cases hok

end Sys2Proof.Machine
end

section
/-! PROOFS. The exceptions: a command where it is not legal (O10), a symbol above the alphabet (O11), a value
at or above the total (O24), `PENDING` at its maximum (O38), and no second fault in `FAULT` mode (O9). -/

namespace Sys2Proof.Machine

/-! ## The word a fault records -/

/-- The word of a command with an `n`-bit operand: the operand below the opcode (R71, R81). -/
theorem encode_eq_or {n : Nat} (hn : n ≤ 28) {i : Instr} {x : BitVec n} {op : BitVec 4}
    (hop : opcode i = op) (hi : operandField i = x.setWidth 28) {base : Word}
    (hbase : assemble op 0 = base) : encode i = base ||| x.setWidth 32 := by
  rw [encode, hop, hi, ← hbase, assemble, assemble, BitVec.append_def, BitVec.append_def, BitVec.setWidth'_eq,
    BitVec.setWidth'_eq, BitVec.setWidth_setWidth (by omega)]
  exact congrArg (· ||| x.setWidth 32) BitVec.or_zero.symm

theorem encode_mProb (x : BitVec 9) : encode (.mProb x) = 0x50000000 ||| x.setWidth 32 :=
  encode_eq_or (op := 0x5) (by decide) rfl rfl rfl

theorem encode_mObserve (x : BitVec 9) : encode (.mObserve x) = 0x70000000 ||| x.setWidth 32 :=
  encode_eq_or (op := 0x7) (by decide) rfl rfl rfl

theorem encode_mLocate (v : BitVec 28) : encode (.mLocate v) = 0x60000000 ||| v.setWidth 32 :=
  encode_eq_or (i := .mLocate v) (op := 0x6) le_rfl rfl (BitVec.setWidth_eq v).symm rfl

/-! ## The faults of the prologue -/

/-- R155 step 3: a well-formed command in a mode where it is not legal. -/
theorem exec_illegalSequence {i : Instr} {s : State} (hm : s.mode ≠ .fault) (hw : i.wf = true)
    (hl : legalMode i s.mode = false) : exec i s = .next (faulted .illegalSequence (encode i) s) := by
  rw [exec_eq_command, command, if_neg (hm ·.1), if_neg (by simp [hw]), if_pos hl, takeFault_eq_faulted]

/-- R155 step 4: a legal command whose symbol is not in the alphabet. -/
theorem exec_symbolRange {i : Instr} {s : State} {sym : Nat} (hm : s.mode ≠ .fault) (hw : i.wf = true)
    (hl : legalMode i s.mode = true) (hi : symbolOperand i = some sym) (hsym : 257 ≤ sym) :
    exec i s = .next (faulted .symbolRange (encode i) s) := by
  have hlarge : symbolTooLarge i = true := by
    rw [symbolTooLarge, hi]
    exact decide_eq_true hsym
  rw [exec_eq_command, command, if_neg (hm ·.1), if_neg (by simp [hw]), if_neg (by simp [hl]), if_pos hlarge,
    takeFault_eq_faulted]

/-- Settles O10: each of these commands is well-formed, and R154 has no "yes" for it in the mode. -/
theorem illegalSequenceFaults : Obligations.IllegalSequenceFaults := by
  refine fun s hm => ⟨fun hidle => ⟨?_, fun x => ?_, ?_, ?_⟩, fun henc x => ?_, fun henc heos => ?_,
    fun hdec => ?_, fun hdec heos => ?_⟩
  · exact exec_illegalSequence (i := .mInit) hm rfl (decide_eq_false hidle)
  · rw [← encode_mObserve]
    exact exec_illegalSequence hm rfl (decide_eq_false hidle)
  · exact exec_illegalSequence (i := .eInit) hm rfl (decide_eq_false hidle)
  · exact exec_illegalSequence (i := .dInit) hm rfl (decide_eq_false hidle)
  · rw [← encode_eSym]
    exact exec_illegalSequence hm rfl (decide_eq_false henc)
  · exact exec_illegalSequence (i := .eFinish) hm rfl (decide_eq_false (not_or_intro henc heos))
  · exact exec_illegalSequence (i := .dSym) hm rfl (decide_eq_false hdec)
  · exact exec_illegalSequence (i := .dEnd) hm rfl (decide_eq_false (not_or_intro hdec heos))

/-- Settles O11: the three commands that take a symbol, in a mode where each is legal. -/
theorem symbolRangeFaults : Obligations.SymbolRangeFaults := by
  refine fun s x hx => ⟨fun hm => ?_, fun hm => ?_, fun hm => ?_⟩
  · rw [← encode_mProb]
    exact exec_symbolRange hm rfl (decide_eq_true hm) rfl hx
  · rw [← encode_mObserve]
    exact exec_symbolRange (by simp [hm]) rfl (decide_eq_true hm) rfl hx
  · rw [← encode_eSym]
    exact exec_symbolRange (by simp [hm]) rfl (decide_eq_true hm) rfl hx

/-! ## The faults of the pseudocode -/

/-- Settles O24: the prologue lets `M.LOCATE` run, and its pseudocode raises before anything else. -/
theorem mLocateValueRange : Obligations.MLocateValueRange := by
  intro s v hm hv
  have hbody : body (.mLocate v) s = .raised .valueRange s := if_pos hv
  rw [exec_runs (i := .mLocate v) hm rfl (decide_eq_true hm) rfl, hbody, conclude_raised,
    takeFault_eq_faulted, encode_mLocate]

/-- The E3 case at the maximum of `PENDING` (R122). -/
theorem resolve_e3_raises {s : State} (hq : s.pending = s.params.pendMax) :
    resolve .e3 s = .raised .pendingOverflow s :=
  if_pos hq

theorem Underflow.ordered {p : Params} {l h : Nat} (hu : Underflow p l h) : l ≤ h := by
  obtain ⟨-, hlow, hhigh, -⟩ := hu
  exact hlow.le.trans hhigh

/-- The loop raises in its first iteration where the E3 case applies at the maximum of `PENDING` (R122). -/
theorem renormEnc_underflow_raises {n : Nat} (hn : 1 ≤ n) {s : State} (hq : s.pending = s.params.pendMax)
    (hu : Underflow s.params s.low s.high) : renormEnc n s = .raised .pendingOverflow s := by
  obtain ⟨m, rfl⟩ := Nat.exists_eq_add_of_le' hn
  rw [renormEnc_succ m (c := .e3) hu hu.ordered, resolve_e3_raises hq, bind_raised]

/-- Settles O38: the guard of the increment, before `E.FINISH` emits anything, in the first iteration of the
loop, and in the iteration of `E.SYM` after the completed ones. -/
theorem pendingOverflowFaults : Obligations.PendingOverflowFaults := by
  refine ⟨fun s hm hq => exec_eFinish_raises hm hq,
    fun s hq hc h1 h2 h3 h4 => renormEnc_underflow_raises hc hq ⟨h1, h2, h3, h4⟩,
    fun s x l h bits hi hm hx st hu hs => ?_⟩
  have hres := resolve_e3_raises (s := encodedSteps x.toNat l h s.params.pendMax bits s) rfl
  rw [← encode_eSym]
  exact exec_eSym_raises (hi.coding (by simp [hm])) hm hx st hs (c := .e3) hu hres

/-! ## No fault in `FAULT` mode -/

/-- In `FAULT` mode a well-formed command other than `RESET` writes the responses only (R155 step 1, R180,
R181). -/
theorem exec_faulted_frame {i : Instr} {s t : State} (hm : s.mode = .fault) (hw : i.wf = true)
    (hi : i ≠ .reset) (h : exec i s = .next t) : t = { s with rsp := t.rsp } := by
  cases hrun : runsInFault i with
  | false =>
    rw [exec_faulted hm hrun] at h
    cases h
    rfl
  | true =>
    cases i with
    | reset => exact absurd rfl hi
    | rdreg r =>
      have hget := List.getElem?_eq_getElem ((rdreg_wf_iff r s).mp hw)
      rw [rdregReadsRegister s r _ hget] at h
      cases h
      rfl
    | _ => cases hrun

/-- Settles O9: a reserved word, and a command that is not `RESET`, add a response to the first fault. -/
theorem faultIsSticky : Obligations.FaultIsSticky := by
  intro s t w rest hcmd hm hreset h
  rw [step_of_command hcmd] at h
  cases hi : decode w with
  | error e =>
    have hanswer : runReserved w { s with cmd := rest } = .next (answerFaulted { s with cmd := rest }) :=
      if_pos hm
    rw [runWord_of_error hi, hanswer] at h
    cases h
    rfl
  | ok i =>
    obtain ⟨hw, rfl⟩ := (decode_eq_ok_iff w i).mp hi
    rw [runWord_of_decode hi] at h
    exact exec_faulted_frame (s := { s with cmd := rest }) hm hw (fun e => hreset (e ▸ rfl)) h

end Sys2Proof.Machine
end
